-- ==== Sys2Proof/Word.lean ====
section
/-! DEFINITION. The words of the FIR filter engine, for the width `W` of any number format: one value of the format (rule
R110), one command word (rule R53) and one response word (rule R55). Bit 0 is the least significant bit everywhere
(rule R5). -/

namespace Sys2Proof

/-- One value of `FMT` as its interchange encoding of `W` bits (00_scope.md rule R4; 42_numerics.md rule R110). -/
abbrev Word (W : Nat) := BitVec W

/-- One command word of `W+1` bits, `{cmd_op, cmd_data}` (30_encoding.md rule R53). -/
abbrev CmdWord (W : Nat) := BitVec (W + 1)

/-- One response word of `W+1` bits, `{rsp_err, rsp_data}` (30_encoding.md rule R55). -/
abbrev RspWord (W : Nat) := BitVec (W + 1)

end Sys2Proof
end

