-- ==== Sys2Proof/Config.lean ====
section
/-! DEFINITION. What a configuration fixes (00_scope.md rule R4) and the free values of the model.

The arithmetic of a number format is a record `Fmt` (42_numerics.md rule R111); the engine's operations
(Machine/Ops.lean) take it as an argument and hold for any `Fmt`. `N`, `COEFF`, `FMT` and `STRICT` are operands of
CONSTRUCT, kept in `FilterConfig`. There `FMT` is its name, a `Format`, because the state is plain data; Machine/Binary.lean
gives every name its record. A free value is an opaque constant: nothing in Lean can evaluate it. -/

namespace Sys2Proof

/-- The arithmetic of a number format: "a configuration record with four members" (42_numerics.md rule R111).
Each member is a function of its operands alone. -/
structure Fmt (α : Type) where
  /-- the product of `FMT` (rule R112) -/
  fmul : α → α → α
  /-- the sum of `FMT` (rule R113) -/
  fadd : α → α → α
  /-- neither an infinity nor a NaN (rule R115) -/
  isFinite : α → Bool
  /-- the positive zero, the value of every history slot after a reset (rule R114) -/
  zero : α

/-- The named properties every admissible format has (42_numerics.md rule R111), for a reading `val` of its finite words
as exact real values and its NaN test. A zero is a finite word of value 0. -/
structure Machine.Admissible {α : Type} (F : Fmt α) (val : α → ℚ) (nan : α → Bool) : Prop where
  zero_is_zero : F.isFinite F.zero = true ∧ val F.zero = 0
  nan_not_finite : ∀ a, nan a = true → F.isFinite a = false
  exact_mul : ∀ a b r, F.isFinite a = true → F.isFinite b = true → F.isFinite r = true → val r = val a * val b →
    F.isFinite (F.fmul a b) = true ∧ val (F.fmul a b) = val a * val b
  exact_add : ∀ a b r, F.isFinite a = true → F.isFinite b = true → F.isFinite r = true → val r = val a + val b →
    F.isFinite (F.fadd a b) = true ∧ val (F.fadd a b) = val a + val b
  zero_mul : ∀ z c, F.isFinite z = true → val z = 0 → F.isFinite c = true →
    F.isFinite (F.fmul z c) = true ∧ val (F.fmul z c) = 0
  zero_add : ∀ a z, F.isFinite a = true → val a ≠ 0 → F.isFinite z = true → val z = 0 →
    F.fadd a z = a ∧ F.fadd z a = a
  zero_add_zero : ∀ z z', F.isFinite z = true → val z = 0 → F.isFinite z' = true → val z' = 0 →
    F.isFinite (F.fadd z z') = true ∧ val (F.fadd z z') = 0
  finite_closed_or_overflow : ∀ a b, F.isFinite a = true → F.isFinite b = true →
    nan (F.fmul a b) = false ∧ nan (F.fadd a b) = false

/-- A number format of words of `W` bits: its arithmetic with the classes of its words and the values of the finite ones,
and what the spec asks of every format (42_numerics.md rules R111, R115, R117). -/
structure NumberFormat (W : Nat) where
  arith : Fmt (Word W)
  isInf : Word W → Bool
  isNaN : Word W → Bool
  value : Word W → ℚ
  /-- the named properties (rule R111) -/
  admissible : Machine.Admissible arith value isNaN
  /-- finite is exactly neither an infinity nor a NaN (rule R115) -/
  finite_iff : ∀ a, arith.isFinite a = (!isInf a && !isNaN a)
  inf_not_nan : ∀ a, isInf a = true → isNaN a = false
  /-- a product with a NaN operand is a NaN (rule R117) -/
  nan_mul : ∀ a b, isNaN a = true ∨ isNaN b = true → isNaN (arith.fmul a b) = true
  /-- a sum with a NaN operand is a NaN (rule R117) -/
  nan_add : ∀ a b, isNaN a = true ∨ isNaN b = true → isNaN (arith.fadd a b) = true

/-- The shape of an IEEE 754 binary interchange format: the widths of its exponent and fraction fields. -/
structure BinFormat where
  expBits : Nat
  fracBits : Nat
  deriving DecidableEq, Repr

/-- The width of a word: a sign bit, the exponent field, the fraction field (20_memory.md rule R36). -/
abbrev BinFormat.width (f : BinFormat) : Nat := 1 + f.expBits + f.fracBits

/-- The name of a number format, the open parameter `FMT` (00_scope.md rule R4; 42_numerics.md rules R110, R111).
DESIGN CHOICE, notes/assumptions/1.md: which formats have a name of their own. -/
inductive Format where
  /-- IEEE 754 binary arithmetic of this shape, rounded to nearest, ties to even (rules R112, R113) -/
  | binary (shape : BinFormat)
  /-- any other admissible format of words of `W` bits, by a number; its arithmetic is free within rules R111, R115, R117 -/
  | other (W : Nat) (number : Nat)
  deriving DecidableEq, Repr

/-- `W`, the width in bits of one word of `FMT` (00_scope.md rule R4). -/
abbrev Format.width : Format → Nat
  | .binary shape => shape.width
  | .other W _ => W

/-- The configuration CONSTRUCT fixes for one instance of the block and nothing changes afterwards
(00_scope.md rule R4; 10_state.md rules R10, R13). -/
structure FilterConfig where
  /-- `FMT`, the number format of samples, taps, history words and outputs -/
  fmt : Format
  /-- `N`, the number of taps and the capacity of the history buffer -/
  taps : Nat
  /-- `COEFF[0..N-1]`, tap 0 first -/
  coeff : List (Word fmt.width)
  /-- `STRICT`: whether PUSH rejects a non-finite sample -/
  strict : Bool
  deriving DecidableEq, Repr

/-- `W` of a configuration (00_scope.md rule R4). -/
abbrev FilterConfig.W (cfg : FilterConfig) : Nat := cfg.fmt.width

/-- The shape of the reference format, IEEE 754 binary64: 11 exponent bits, 52 fraction bits (42_numerics.md rule R110,
20_memory.md rule R36). -/
abbrev Config.binary64 : BinFormat := ⟨11, 52⟩

/-- Free value: the bits the `k`-th draw of "some NaN" takes in a word of `W` bits (42_numerics.md rule R117; 93 I5).
Machine/Binary.lean turns them into a NaN word. notes/assumptions/2.md. -/
opaque Config.freeNaN : (W : Nat) → Nat → Word W

/-- Free value: the number format of this width and number, any one at all that is admissible (rules R111, R115, R117).
The bracketed argument only says that there is one. notes/assumptions/1.md. -/
opaque Config.otherFormat (W : Nat) [Inhabited (NumberFormat W)] (number : Nat) : NumberFormat W

/-- Free value: the bits of tap `k` of the table the instance has before any CONSTRUCT of the host; the source
prints no tap (91 N1). Machine/Binary.lean makes the word finite (rule R121). notes/assumptions/4.md. -/
opaque Config.freeTap : Nat → Word Config.binary64.width

/-- Free value: `LAT`, the number of clock cycles the `k`-th command taken at the ports waits before its
response; finite and otherwise open (00_scope.md rule R4; 93 I14). notes/assumptions/5.md. -/
opaque Config.latency : Nat → Nat

/-- `FMT` of the instance the reset state holds: the reference value (rule R4). DESIGN CHOICE, notes/assumptions/3.md. -/
abbrev Config.resetFormat : Format := .binary Config.binary64

/-- `N` of the instance the reset state holds: the source's scenario has 32 taps (91 N1, rule R4).
DESIGN CHOICE, notes/assumptions/3.md. -/
abbrev Config.resetTaps : Nat := 32

/-- `STRICT` of the instance the reset state holds: the reference value 0 (rule R4, 93 I4).
DESIGN CHOICE, notes/assumptions/3.md. -/
abbrev Config.resetStrict : Bool := false

end Sys2Proof
end

