-- ==== Sys2Proof/Machine/Binary.lean ====
section
/-! DEFINITION. The arithmetic of the IEEE 754 binary formats, and the record of every number format (42_numerics.md
rules R110 to R122). The reference format is binary64 (rule R110).

A word is handled as the natural number its bits spell. Every finite value is a whole number of the format's
smallest positive value (`units`), so sums and products are formed exactly as whole numbers and rounded once
(`roundMag`): round to nearest, ties to even, gradual underflow, overflow to infinity. -/

namespace Sys2Proof.Machine

/-- The weight of the sign bit: `2^63` in binary64 (20_memory.md rule R36). -/
def signWeight (f : BinFormat) : Nat := 2 ^ (f.expBits + f.fracBits)

/-- The sign bit, the most significant bit of the word (rule R36). -/
def signOf (f : BinFormat) (x : Nat) : Bool := x.testBit (f.expBits + f.fracBits)

/-- The word without its sign bit. -/
def magOf (f : BinFormat) (x : Nat) : Nat := x % signWeight f

/-- The biased exponent field: bits 62 down to 52 in binary64 (rule R36). -/
def expOf (f : BinFormat) (x : Nat) : Nat := magOf f x / 2 ^ f.fracBits

/-- The fraction field: bits 51 down to 0 in binary64 (rule R36). -/
def fracOf (f : BinFormat) (x : Nat) : Nat := x % 2 ^ f.fracBits

/-- The exponent field of infinities and NaNs: `0x7FF` in binary64 (rule R115). -/
def expMax (f : BinFormat) : Nat := 2 ^ f.expBits - 1

/-- The magnitude of an infinity. -/
def infMag (f : BinFormat) : Nat := expMax f * 2 ^ f.fracBits

/-- `isFinite(a)` is `a[62:52] != 0x7FF` (rule R115). -/
def finiteNat (f : BinFormat) (x : Nat) : Bool := expOf f x != expMax f

def infNat (f : BinFormat) (x : Nat) : Bool := expOf f x == expMax f && fracOf f x == 0

def nanNat (f : BinFormat) (x : Nat) : Bool := expOf f x == expMax f && fracOf f x != 0

/-- A word from its sign and its magnitude. -/
def packSign (f : BinFormat) (negative : Bool) (mag : Nat) : Nat :=
  (if negative then signWeight f else 0) + mag

/-- The absolute value of a finite word, as a multiple of the smallest positive value of the format
(`2^-1074` in binary64). Subnormal words count like any other (rule R122). -/
def unitsOf (f : BinFormat) (x : Nat) : Nat :=
  if expOf f x = 0 then fracOf f x
  else (2 ^ f.fracBits + fracOf f x) * 2 ^ (expOf f x - 1)

/-- The value of a finite word as a multiple of the smallest positive value. -/
def signedUnits (f : BinFormat) (x : Nat) : Int :=
  if signOf f x then -(unitsOf f x : Int) else (unitsOf f x : Int)

/-- The smallest positive value is `2^-unitExp`: `2^-1074` in binary64. A product of two values is a multiple of
`2^-(2*unitExp)`. -/
def unitExp (f : BinFormat) : Nat := 2 ^ (f.expBits - 1) - 2 + f.fracBits

/-- The magnitude field of the value nearest to `k * 2^-scale` smallest positive values, ties to the even
significand; the magnitude of infinity when that is too large (rules R112, R113). `q` is the position of the
last bit kept. -/
def roundMag (f : BinFormat) (k scale : Nat) : Nat :=
  let q := max scale (k.log2 - f.fracBits)
  let kept := k / 2 ^ q
  let rest := k % 2 ^ q
  let up := 2 ^ q < 2 * rest || (2 ^ q == 2 * rest && kept % 2 == 1)
  min ((q - scale) * 2 ^ f.fracBits + (kept + if up then 1 else 0)) (infMag f)

/-- The product, rounded once (rule R112); `nan` is the NaN word an invalid product gives (rule R117). -/
def mulNat (f : BinFormat) (nan a b : Nat) : Nat :=
  if nanNat f a || nanNat f b then nan
  else if infNat f a || infNat f b then
    if magOf f a == 0 || magOf f b == 0 then nan
    else packSign f (signOf f a != signOf f b) (infMag f)
  else packSign f (signOf f a != signOf f b) (roundMag f (unitsOf f a * unitsOf f b) (unitExp f))

/-- The sum, rounded once (rule R113), with the signed zeros of rule R120; `nan` is the NaN word an invalid sum
gives (rule R117). -/
def addNat (f : BinFormat) (nan a b : Nat) : Nat :=
  if nanNat f a || nanNat f b then nan
  else if infNat f a then
    if infNat f b && signOf f a != signOf f b then nan else a
  else if infNat f b then b
  else
    let sum := signedUnits f a + signedUnits f b
    if sum = 0 then packSign f (signOf f a && signOf f b) 0
    else packSign f (sum < 0) (roundMag f sum.natAbs 0)

/-- The record of a binary format carried in `w` bits (rule R111), with the NaN word its invalid operations give. -/
def ieee (f : BinFormat) (w : Nat) (nan : BitVec w) : Fmt (BitVec w) where
  fmul a b := BitVec.ofNat w (mulNat f nan.toNat a.toNat b.toNat)
  fadd a b := BitVec.ofNat w (addNat f nan.toNat a.toNat b.toNat)
  isFinite a := finiteNat f a.toNat
  zero := 0

/-- Any bits made a NaN: the exponent field all ones, the fraction kept, or its top bit set where it is zero. Every
NaN word comes out of some bits. -/
def asNaN (f : BinFormat) (x : Nat) : Nat :=
  packSign f (signOf f x)
    (infMag f + if fracOf f x = 0 then 2 ^ (f.fracBits - 1) else fracOf f x)

/-- Any bits made finite: a full exponent field loses its lowest bit (rule R121: taps are finite). Every finite word
comes out of some bits. -/
def asFinite (f : BinFormat) (x : Nat) : Nat :=
  if finiteNat f x then x else x - 2 ^ f.fracBits

/-- The formats the model gives a meaning: IEEE 754 has at least two exponent bits and one fraction bit. -/
def usable (f : BinFormat) : Bool := decide (2 ≤ f.expBits) && decide (1 ≤ f.fracBits)

/-- "Some NaN": the NaN word of draw `k` (rule R117, decision D11). notes/assumptions/2.md. -/
def nanWord (f : BinFormat) (k : Nat) : Word f.width :=
  BitVec.ofNat f.width (asNaN f (Config.freeNaN f.width k).toNat)

/-- The record of an IEEE 754 binary format; an operation of draw `k` that gives a NaN gives `nanWord f k`. -/
def binaryFmt (f : BinFormat) (k : Nat) : Fmt (Word f.width) := ieee f f.width (nanWord f k)

/-- There is a number format of every width: zero is its one finite word and every other word is a NaN. Nothing rests on
it but that `Config.otherFormat` has something to be. -/
def existingFormat (W : Nat) : NumberFormat W where
  arith := { fmul := (· ||| ·), fadd := (· ||| ·), isFinite := (· == 0), zero := 0 }
  isInf _ := false
  isNaN a := a != 0
  value _ := 0
  admissible := by constructor <;> simp +contextual
  finite_iff a := by simp [bne]
  inf_not_nan := by simp
  nan_mul a b h := by simp at h ⊢; tauto
  nan_add a b h := by simp at h ⊢; tauto

/-- The number format of this width and number: an admissible one, and nothing else is known of it (rule R111).
notes/assumptions/1.md. -/
def otherFormat (W number : Nat) : NumberFormat W := @Config.otherFormat W ⟨existingFormat W⟩ number

/-- A result that is a NaN is "some NaN" (rule R117): at draw `k` the free bits, where they are a NaN of the format. -/
def NumberFormat.someNaN {W : Nat} (F : NumberFormat W) (k : Nat) (r : Word W) : Word W :=
  if F.isNaN r && F.isNaN (Config.freeNaN W k) then Config.freeNaN W k else r

/-- The record of a format known by its number, at draw `k`. -/
def otherFmt (W number k : Nat) : Fmt (Word W) :=
  let F := otherFormat W number
  { fmul := fun a b => NumberFormat.someNaN F k (F.arith.fmul a b)
    fadd := fun a b => NumberFormat.someNaN F k (F.arith.fadd a b)
    isFinite := F.arith.isFinite
    zero := F.arith.zero }

/-- The record of every number format (rule R111), at draw `k`. -/
def fmtAt : (f : Format) → Nat → Fmt (Word f.width)
  | .binary shape, k => binaryFmt shape k
  | .other W number, k => otherFmt W number k

/-- `isFinite` of a format (rule R115); no draw decides it. -/
def isFinite (f : Format) (w : Word f.width) : Bool := (fmtAt f 0).isFinite w

/-- `ZERO` of a format (rule R114): in a binary format the word with all bits zero. -/
def zeroWord (f : Format) : Word f.width := (fmtAt f 0).zero

/-- Whether a word is a NaN (rule R117). -/
def isNaN : (f : Format) → Word f.width → Bool
  | .binary shape, w => nanNat shape w.toNat
  | .other W number, w => (otherFormat W number).isNaN w

/-- Whether a word is an infinity (rule R115). -/
def isInfinity : (f : Format) → Word f.width → Bool
  | .binary shape, w => infNat shape w.toNat
  | .other W number, w => (otherFormat W number).isInf w

/-- Whether a word of a binary format is an infinity. -/
def isInf (f : BinFormat) (w : Word f.width) : Bool := infNat f w.toNat

/-- Whether a word of a binary format is a zero of either sign. -/
def isZero (f : BinFormat) (w : Word f.width) : Bool := magOf f w.toNat == 0

/-- Tap `k` of the table of the reset state: some finite word. notes/assumptions/4.md. -/
def resetTap (k : Nat) : Word Config.resetFormat.width :=
  BitVec.ofNat Config.binary64.width (asFinite Config.binary64 (Config.freeTap k).toNat)

end Sys2Proof.Machine
end

