-- ==== Sys2Proof/Syntax.lean ====
section
/-! DEFINITION. The operations of spec/opcode_table.json, one constructor per row: the two commands of the port
(RESET, PUSH), the elaboration CONSTRUCT, and the host's pseudo-operations PUSHV and `f(v)`
(30_encoding.md rules R50, R53, R57, R61). -/

namespace Sys2Proof

/-- A sample as the host writes it: one word, with its width `W` (30_encoding.md rules R53, R54). -/
structure Sample where
  W : Nat
  word : Word W
  deriving DecidableEq, Repr

/-- A list of samples of one width, as PUSHV takes them (41_push.md rule R101). -/
structure Samples where
  W : Nat
  words : List (Word W)
  deriving DecidableEq, Repr

/-- The operations. -/
inductive Instr where
  /-- CONSTRUCT N, [c0, ..., c(N-1)] with FMT and STRICT (40_construct_reset.md rule R70): the configuration is
  its operand. -/
  | construct (cfg : FilterConfig)
  /-- RESET (40_construct_reset.md rule R73): no operand; the data field of its word is ignored. -/
  | reset
  /-- PUSH v (41_push.md rule R90): the operand is one word of `FMT`, used as it stands (rule R54). -/
  | push (sample : Sample)
  /-- PUSHV [v0, ..., v(m-1)] (41_push.md rule R101): the host's bulk wrapper. -/
  | pushv (samples : Samples)
  /-- f(v) (30_encoding.md rule R61): calling the instance itself, another spelling of PUSH v. -/
  | call (sample : Sample)
  deriving DecidableEq, Repr

end Sys2Proof
end

