-- ==== Sys2Proof/Machine/State.lean ====
section
/-! DEFINITION. The state of the machine, as plain data, and its value after reset.

The ARCHITECTURAL state of the engine is one `Instance`: history, cursor and the configuration they belong to
(10_state.md rules R10, R16). Around it stand the block's ports (30_encoding.md rules R51, R52, R55, R56), the host's
pending interactions (70_reset_and_hazards.md rule R172), and what the host has got back, because a step of
Host/Core.lean has no output of its own. The engine keeps none of these (60_exceptions.md rule R137). -/

namespace Sys2Proof.Machine

/-- One Filter Instance (10_state.md rule R10) and its configuration. `mask`, `n` follow from `cfg.taps`. -/
structure Instance where
  /-- `N`, `COEFF`, `FMT`, `STRICT`: fixed by CONSTRUCT, never written afterwards (rules R13, R32) -/
  cfg : FilterConfig
  /-- the HIST space: `N` slots of one word, slot 0 first (rule R11) -/
  history : List (Word cfg.fmt.width)
  /-- the next slot to be overwritten, `0 <= cursor < N` (rule R12) -/
  cursor : Nat
  deriving DecidableEq, Repr

/-- The two error kinds (60_exceptions.md rule R130). -/
inductive ErrorKind where
  /-- raised by CONSTRUCT only: the tap count is zero or not a power of two (rule R131) -/
  | invalidConfiguration
  /-- raised by PUSH only, when STRICT = 1 and the sample is not finite (rule R132) -/
  | invalidSample
  deriving DecidableEq, Repr

/-- One response word, with the width `W` of the port it came from (30_encoding.md rule R55). -/
structure Response where
  W : Nat
  word : RspWord W
  deriving DecidableEq, Repr

/-- What the host gets back, in order (70_reset_and_hazards.md rule R172). -/
inductive Delivery where
  /-- a response transferred on the response port (30_encoding.md rules R55, R56) -/
  | response (r : Response)
  /-- CONSTRUCT answered ok: an instance exists (30_encoding.md rule R60) -/
  | constructed
  /-- CONSTRUCT raised its error: no instance exists (rule R131) -/
  | notConstructed (e : ErrorKind)
  /-- PUSHV returned: the outputs collected, and where a sample was rejected its index and error (rule R101) -/
  | bulk (W : Nat) (outputs : List (Word W)) (failed : Option (Nat × ErrorKind))
  deriving DecidableEq, Repr

/-- The input ports in one clock cycle (30_encoding.md rule R51). -/
structure PinsIn where
  rst : Bool
  cmdValid : Bool
  cmdOp : Bool
  /-- the width of `cmd_data` -/
  W : Nat
  cmdData : Word W
  deriving DecidableEq, Repr

/-- The output ports as last driven (rule R51). `rsp = none` is `rsp_valid = 0`, when `rsp_err` and `rsp_data` carry
nothing (93 I14); `some r` is `rsp_valid = 1` with `{rsp_err, rsp_data} = r.word`. -/
structure PinsOut where
  cmdReady : Bool
  rsp : Option Response
  deriving DecidableEq, Repr

/-- The command in progress: taken at the ports and not yet answered (rules R52, R168). -/
structure InFlight where
  /-- the width of the port it came from -/
  W : Nat
  /-- the command word present in the transfer cycle -/
  cw : CmdWord W
  /-- clock cycles still to pass before the cycle that answers it -/
  wait : Nat
  deriving DecidableEq, Repr

/-- One interaction of the host (70_reset_and_hazards.md rule R172). -/
inductive HostAction where
  /-- one command transferred on the port and answered (20_memory.md rule R41) -/
  | command (W : Nat) (cw : CmdWord W)
  /-- an operation the host performs by name: the elaboration CONSTRUCT (rule R57), the bulk wrapper PUSHV, the call
  f(v) (rule R61) -/
  | host (i : Instr)
  /-- the hardware reset: `rst` asserted and released (40_construct_reset.md rules R75, R170) -/
  | hardwareReset
  /-- one clock cycle with these input ports (rules R51, R52) -/
  | cycle (pins : PinsIn)
  deriving DecidableEq, Repr

/-- The machine. -/
structure State where
  /-- the instance, if one exists; `none` after a CONSTRUCT that raised InvalidConfiguration (rule R77) -/
  inst : Option Instance
  /-- the output ports as last driven (rule R51) -/
  pins : PinsOut
  /-- the command in progress; at most one (rule R168) -/
  inFlight : Option InFlight
  /-- the host's interactions still to come, the next one first (rules R41, R172) -/
  inbox : List HostAction
  /-- what the host has got back, oldest first (rules R56, R172) -/
  delivered : List Delivery
  /-- the MODEL's own counter of free values drawn; not of the spec. notes/assumptions/2.md -/
  draws : Nat
  deriving DecidableEq, Repr

/-- Why the machine stops with a fault. -/
inductive Fault where
  /-- An access to a slot or a tap that does not exist, or to the table of a tap count 0. Raised by execPush, execCall
  and execPushv only in states that break invariants 1 to 3 of 10_state.md rule R14, which no constructed instance does
  (20_memory.md rule R34: "no out-of-range access"). Safe. -/
  | noSuchSlot
  deriving DecidableEq, Repr

/-- Why the machine gives no meaning. -/
inductive Refusal where
  /-- An instruction without a meaning yet, by its mnemonic. Raised by exec's refused arms only. Safe. -/
  | notModelled (mnemonic : String)
  /-- RESET, PUSH, PUSHV, f(v), the hardware reset or a clock cycle where no instance exists: CONSTRUCT has raised
  InvalidConfiguration, and "no RESET or PUSH can ever be applied to it" (40_construct_reset.md rule R77). Raised by
  execReset, execPush, execCall, execPushv, hardwareReset and cycle, and by stepInstance for a schedule that names no
  instance (notes/assumptions/18.md). Safe. -/
  | noInstance
  /-- CONSTRUCT with a binary shape that is no IEEE 754 format (42_numerics.md rule R111; notes/assumptions/1.md, 7.md).
  Raised by execConstruct. Safe. -/
  | noFormat
  /-- A sample that is no word of the instance's format: its width is not the `W` of the port ("the W bits of `cmd_data`",
  30_encoding.md rule R54; "no conversion between formats", 42_numerics.md rule R110). Raised by execPush, execCall,
  execPushv and cycle. Safe. -/
  | wordWidth
  /-- CONSTRUCT of a table whose length is not the tap count: no operation of the spec (rule R70). Raised by
  execConstruct. Safe. -/
  | tableLength
  /-- CONSTRUCT with a tap that is an infinity or a NaN: "a model should refuse it rather than give it a meaning"
  (42_numerics.md rule R121; 93 I11). Raised by execConstruct. Safe. -/
  | nonFiniteTap
  deriving DecidableEq, Repr

/-- The construction state of a configuration: every slot `ZERO`, `cursor = 0` (10_state.md rule R16). -/
def Instance.fresh (cfg : FilterConfig) : Instance :=
  { cfg := cfg, history := List.replicate cfg.taps (zeroWord cfg.fmt), cursor := 0 }

/-- The configuration of the reset state: the source's 32 taps, whose values are free (rule R4; 91 N1), in the reference
format, with the reference policy STRICT = 0. notes/assumptions/3.md and 4.md. -/
def resetConfig : FilterConfig :=
  { fmt := Config.resetFormat
    taps := Config.resetTaps
    coeff := (List.range Config.resetTaps).map resetTap
    strict := Config.resetStrict }

/-- The machine right after the hardware reset that completes a construction (10_state.md rule R16;
70_reset_and_hazards.md rule R160): history all `ZERO`, cursor 0, `cmd_ready = 1`, `rsp_valid = 0`, nothing in
progress, nothing sent, nothing delivered. -/
def State.reset : State :=
  { inst := some (Instance.fresh resetConfig)
    pins := { cmdReady := true, rsp := none }
    inFlight := none
    inbox := []
    delivered := []
    draws := 0 }

end Sys2Proof.Machine
end

