-- ==== Sys2Proof/Machine/Operands.lean ====
section
/-! DEFINITION. Operand forms: how every index of the engine is formed (42_numerics.md rule R124; 20_memory.md rule
R34; 00_scope.md rule R5) and how a word of HIST or COEF is read and written (00_scope.md rule R6; 20_memory.md rules
R30 to R35), and what CONSTRUCT asks of a table. The spaces are word-addressed lists and have no byte order (rules R35,
R36). -/

namespace Sys2Proof

/-- `FMT` is a format the model gives a meaning (42_numerics.md rule R111). -/
def Format.admitted : Format → Bool
  | .binary shape => Machine.usable shape
  | .other _ _ => true

/-- The table has `N` taps (40_construct_reset.md rule R70). -/
def FilterConfig.tableFits (cfg : FilterConfig) : Bool := cfg.coeff.length == cfg.taps

/-- Every tap is finite (42_numerics.md rule R121). -/
def FilterConfig.tapsFinite (cfg : FilterConfig) : Bool := cfg.coeff.all (Machine.isFinite cfg.fmt)

end Sys2Proof

namespace Sys2Proof.Machine

/-- `N` is a power of two: `N = 2^j` for some `j >= 0` (40_construct_reset.md rule R71). -/
def isPowerOfTwo (n : Nat) : Bool := 2 ^ n.log2 == n

/-- `mask = N - 1` (00_scope.md rule R4). -/
def maskOf (taps : Nat) : Nat := taps - 1

/-- `v & mask` for an integer `v` in two's complement (00_scope.md rule R5): `-(a+1)` is the complement of `a`. -/
def wrap (v : Int) (mask : Nat) : Nat :=
  match v with
  | .ofNat a => a &&& mask
  | .negSucc a => mask ^^^ (a &&& mask)

/-- `(c + 1) & mask` (41_push.md rule R88). -/
def nextIndex (c mask : Nat) : Nat := wrap ((c : Int) + 1) mask

/-- `(i - 1) & mask` (41_push.md rule R94). -/
def prevIndex (i mask : Nat) : Nat := wrap ((i : Int) - 1) mask

/-- `sl(k) = (cursor_new - 1 - k) & mask`, the slot tap `k` is paired with (41_push.md rule R93). -/
def tapSlot (cursorNew mask k : Nat) : Nat := wrap ((cursorNew : Int) - 1 - (k : Int)) mask

/-- `MemRead(space, i)`: one whole word, without side effects (20_memory.md rules R35, R38); none where the space has
no such word. -/
def memRead {α : Type} (mem : List α) (i : Nat) : Option α := mem[i]?

/-- `MemWrite(HIST, i, v)`: one whole word (rule R35); none where the space has no such word. -/
def memWrite {α : Type} (mem : List α) (i : Nat) (v : α) : Option (List α) :=
  if i < mem.length then some (mem.set i v) else none

/-- The form of the two spaces: exactly `N` words in each, at all times (10_state.md rule R14, invariant 1). -/
def Memory.wf (i : Instance) : Bool :=
  i.history.length == i.cfg.taps && i.cfg.coeff.length == i.cfg.taps

end Sys2Proof.Machine
end

