-- ==== Sys2Proof/WellFormed.lean ====
section
/-! DEFINITION. Which terms are operations of the spec: the number format of a CONSTRUCT is one (42_numerics.md rule R111),
its table has as many taps as it says (40_construct_reset.md rule R70, "an ordered sequence of N real taps") and every tap
is finite (42_numerics.md rule R121). Every word of the format is a well-formed sample (30_encoding.md rule R54); whether a
sample is a word of an instance's format is `Instr.fits`. -/

namespace Sys2Proof

/-- A configuration of the spec, whatever its tap count. -/
def FilterConfig.ofSpec (cfg : FilterConfig) : Bool := cfg.fmt.admitted && cfg.tableFits && cfg.tapsFinite

/-- The check of an operation's operands. An illegal tap COUNT is no ill-formed term: CONSTRUCT takes it and answers
InvalidConfiguration (rule R70). -/
def Instr.wellFormed : Instr → Bool
  | .construct cfg => cfg.ofSpec
  | .reset => true
  | .push _ => true
  | .pushv _ => true
  | .call _ => true

/-- The samples of an operation are words of `W` bits, as the port of an instance of that width carries them (rule R54). -/
def Instr.fits (W : Nat) : Instr → Bool
  | .construct _ => true
  | .reset => true
  | .push v => v.W == W
  | .pushv vs => vs.W == W
  | .call v => v.W == W

end Sys2Proof
end

