-- ==== Sys2Proof/Decode.lean ====
section
/-! DEFINITION. The decoder and the encoder of the command port of `W` data bits (30_encoding.md rules R53, R54, R57, R58,
R61, R62). The decoder is total and never answers "invalid" (rule R58). -/

namespace Sys2Proof

/-- `cw[W]`, the operation code (rule R53). -/
def opField {W : Nat} (cw : CmdWord W) : Bool := cw.getLsbD W

/-- `cw[W-1:0]`, the data operand (rule R53). -/
def dataField {W : Nat} (cw : CmdWord W) : Word W := cw.extractLsb' 0 W

/-- `{cmd_op, cmd_data}` (rule R53). -/
def cmdWord {W : Nat} (op : Bool) (data : Word W) : CmdWord W := BitVec.cons op data

/-- `decode(cw) = RESET` if `cw[W] = 0`, and `PUSH(cw[W-1:0])` if `cw[W] = 1` (rule R62). -/
def decode {W : Nat} (cw : CmdWord W) : Instr :=
  if opField cw then .push ⟨W, dataField cw⟩ else .reset

/-- The command words, on a port of `W` data bits, of an operation that fits it. RESET has its canonical word and PUSH its
own (rule R62); `f(v)` is PUSH v and PUSHV the pushes of its samples in order (rule R61); CONSTRUCT has no run-time
encoding (rule R57). -/
def encode (W : Nat) : Instr → List (CmdWord W)
  | .construct _ => []
  | .reset => [cmdWord false 0]
  | .push v => [cmdWord true (v.word.setWidth W)]
  | .pushv vs => vs.words.map fun v => cmdWord true (v.setWidth W)
  | .call v => [cmdWord true (v.word.setWidth W)]

/-- The commands an operation puts on the port (rules R57, R61). -/
def commandsOf : Instr → List Instr
  | .construct _ => []
  | .reset => [.reset]
  | .push v => [.push v]
  | .pushv vs => vs.words.map fun v => .push ⟨vs.W, v⟩
  | .call v => [.push v]

/-- The instruction the decoder reads from an opcode table's word of `nbits` bits, in the reference width `W = 64` of the
table (rule R53). There is one command length, 65 bits (rule R59): bits above `nbits` are zero, a word with a bit above bit
64 is no command word, and a row without bits (CONSTRUCT, PUSHV, f(v)) has no word. -/
def decodeTableWord (nbits w : Nat) : Option Instr :=
  if nbits = 0 then none
  else if w % 2 ^ nbits < 2 ^ 65 then some (decode (W := 64) (BitVec.ofNat 65 (w % 2 ^ nbits)))
  else none

end Sys2Proof
end

