-- ==== Sys2Proof/Machine/Flags.lean ====
section
/-! DEFINITION. Status. The hardware has no flags and no condition codes (10_state.md rule R19); its only status is
the error bit of one response (30_encoding.md rule R55; 60_exceptions.md rule R130), computed here. -/

namespace Sys2Proof.Machine

/-- `{rsp_err, rsp_data}` (rule R55). -/
def rspWord {W : Nat} (err : Bool) (data : Word W) : RspWord W := BitVec.cons err data

/-- `rsp_err` of a response word (rule R55). -/
def rspErr {W : Nat} (rw : RspWord W) : Bool := rw.getLsbD W

/-- `rsp_data` of a response word (rule R55). -/
def rspData {W : Nat} (rw : RspWord W) : Word W := rw.extractLsb' 0 W

/-- The code of an error kind; 0 is "no error" (60_exceptions.md rule R130, decision D6). -/
def ErrorKind.code : ErrorKind → Nat
  | .invalidConfiguration => 1
  | .invalidSample => 2

/-- The sample check of PUSH, step 0: `STRICT = 1` and the sample is not finite (41_push.md rule R86). -/
def rejects {α : Type} (F : Fmt α) (strict : Bool) (s : α) : Bool := strict && !F.isFinite s

end Sys2Proof.Machine
end

