-- ==== Sys2Proof/Machine/Ops.lean ====
section
/-! DEFINITION. The shared operations: the ring and its multiply-accumulate walk for any number format `Fmt`
(41_push.md rules R86 to R92), the delivery of responses and errors (30_encoding.md rules R55, R56; 60_exceptions.md
rule R135: "the counterpart of trap entry"), clearing (40_construct_reset.md rule R73), and one PUSH on the machine,
which PUSH, f(v) and PUSHV share. -/

namespace Sys2Proof.Machine

/-- Step 3 of PUSH from tap 1 on (rule R90): `left` taps remain, `index` is the slot last used, `k` the next tap.
Products are added one at a time, newest sample first (rule R92), each operation rounded on its own (rule R116). -/
def macWalk {α : Type} (F : Fmt α) (hist coeff : List α) (mask : Nat) : Nat → Nat → Nat → α → Option α
  | 0, _, _, acc => some acc
  | left + 1, index, k, acc =>
    match memRead hist (prevIndex index mask), memRead coeff k with
    | some h, some c =>
      macWalk F hist coeff mask left (prevIndex index mask) (k + 1) (F.fadd acc (F.fmul h c))
    | _, _ => none

/-- What one PUSH does to a ring. -/
inductive PushResult (α : Type) where
  /-- InvalidSample: nothing read, nothing written (rule R86) -/
  | rejected
  /-- a slot or tap that does not exist (never on a constructed instance, 20_memory.md rule R34) -/
  | noSlot
  /-- the new history, the new cursor and the output (rule R90) -/
  | done (hist : List α) (cursor : Nat) (acc : α)
  deriving DecidableEq, Repr

/-- PUSH as a whole on a ring (rule R90): check, write, advance, walk. Tap 0 is paired with the sample itself, not
with a read-back; the walk starts from the advanced cursor and its first step back lands on the slot just written
(rule R89, 90_conflicts.md C1). -/
def pushRing {α : Type} (F : Fmt α) (strict : Bool) (taps : Nat) (coeff hist : List α) (cursor : Nat) (s : α) :
    PushResult α :=
  if rejects F strict s then .rejected
  else
    match memWrite hist cursor s, memRead coeff 0 with
    | some hist', some c0 =>
      let cursor' := nextIndex cursor (maskOf taps)
      match macWalk F hist' coeff (maskOf taps) (taps - 1) (prevIndex cursor' (maskOf taps)) 1 (F.fmul s c0) with
      | some acc => .done hist' cursor' acc
      | none => .noSlot
    | _, _ => .noSlot

/-- An instance cleared: every slot `ZERO`, `cursor = 0`, the configuration kept (rule R73). -/
def Instance.cleared (i : Instance) : Instance := Instance.fresh i.cfg

/-- Hand something to the host, after everything it got before (rule R56). -/
def deliver (d : Delivery) (s : State) : State := { s with delivered := s.delivered ++ [d] }

/-- `respond(err, data)`: the command ends and its one response is transferred (rules R55, R56); the engine is ready
again (rule R160). -/
def respond (r : Response) (s : State) : State :=
  { s with delivered := s.delivered ++ [.response r], pins := { cmdReady := true, rsp := some r } }

/-- `raise InvalidSample`: the error response with no data, in the response of the command itself; `history` and
`cursor` as they were (rules R132, R135). -/
def raiseInvalidSample (W : Nat) (s : State) : State := respond ⟨W, rspWord true 0⟩ s

/-- `raise InvalidConfiguration`: the construction fails and no instance exists, so no port is driven (rules R131, R77).
It is not a response on the port (rule R130). -/
def raiseInvalidConfiguration (s : State) : State :=
  deliver (.notConstructed .invalidConfiguration)
    { s with inst := none, inFlight := none, pins := { cmdReady := false, rsp := none } }

/-- An instance comes to exist in the construction state (rule R70); the hardware reset that completes it leaves the
ports ready (rules R57, R160). -/
def install (cfg : FilterConfig) (s : State) : State :=
  deliver .constructed
    { s with inst := some (Instance.fresh cfg), inFlight := none, pins := { cmdReady := true, rsp := none } }

/-- One PUSH of a word `w` of `W` bits on the machine, with its response word (rules R86, R90, R91). The port has the
width of the instance's format, so that a word of another width is none of its samples (30_encoding.md rule R54). The draw
of this PUSH names the NaN it gives, should its output be one (rule R117). -/
def pushOne (W : Nat) (w : Word W) (s : State) : Host.Outcome (State × RspWord W) Fault Refusal :=
  match s.inst with
  | none => .refused .noInstance
  | some i =>
    if W = i.cfg.W then
      match pushRing (fmtAt i.cfg.fmt s.draws) i.cfg.strict i.cfg.taps i.cfg.coeff i.history i.cursor
          (w.setWidth i.cfg.W) with
      | .rejected => .next (raiseInvalidSample i.cfg.W s, rspWord true 0)
      | .noSlot => .fault .noSuchSlot
      | .done hist cursor acc =>
        .next (respond ⟨i.cfg.W, rspWord false acc⟩
          { s with inst := some { i with history := hist, cursor := cursor }, draws := s.draws + 1 },
          rspWord false (acc.setWidth W))
    else .refused .wordWidth

/-- One PUSH as a meaning: its next state. -/
def pushState (W : Nat) (w : Word W) (s : State) : Host.Outcome State Fault Refusal :=
  match pushOne W w s with
  | .next r => .next r.1
  | .fault f => .fault f
  | .refused r => .refused r

/-- The loop of PUSHV (rule R101): push in order, collect the outputs, stop at the first InvalidSample and report its
index. `ys` are the outputs collected so far. -/
def pushLoop (W : Nat) : List (Word W) → List (Word W) → State → Host.Outcome State Fault Refusal
  | [], ys, s => .next (deliver (.bulk W ys none) s)
  | w :: ws, ys, s =>
    match pushOne W w s with
    | .next (s', rw) =>
      if rspErr rw then .next (deliver (.bulk W ys (some (ys.length, .invalidSample))) s')
      else pushLoop W ws (ys ++ [rspData rw]) s'
    | .fault f => .fault f
    | .refused r => .refused r

end Sys2Proof.Machine
end

