-- ==== Sys2Proof/Machine/Lifecycle.lean ====
section
/-! DEFINITION. The lifecycle operations: CONSTRUCT and RESET (40_construct_reset.md). -/

namespace Sys2Proof.Machine

/-- CONSTRUCT (rule R70): InvalidConfiguration when `N` is zero or not a power of two, whatever the taps; else an
instance in the construction state. The table has `N` taps by its syntax (rule R60), the format is one of the spec's (rule
R111), and a non-finite tap is refused, not given a meaning (rule R121). -/
def execConstruct (cfg : FilterConfig) (s : State) : Host.Outcome State Fault Refusal :=
  if cfg.taps = 0 || !isPowerOfTwo cfg.taps then .next (raiseInvalidConfiguration s)
  else if !cfg.fmt.admitted then .refused .noFormat
  else if !cfg.tableFits then .refused .tableLength
  else if !cfg.tapsFinite then .refused .nonFiniteTap
  else .next (install cfg s)

/-- RESET (rule R73): every slot `ZERO`, `cursor = 0`, the response `{0, 0}`. -/
def execReset (s : State) : Host.Outcome State Fault Refusal :=
  match s.inst with
  | none => .refused .noInstance
  | some i => .next (respond ⟨i.cfg.W, rspWord false 0⟩ { s with inst := some i.cleared })

end Sys2Proof.Machine
end

