-- ==== Sys2Proof/Machine/Push.lean ====
section
/-! DEFINITION. The data operation PUSH (41_push.md rule R90) and the host's two pseudo-operations over it: the call
f(v) (30_encoding.md rule R61) and the bulk wrapper PUSHV (41_push.md rule R101). -/

namespace Sys2Proof.Machine

/-- PUSH v (rule R90). -/
def execPush (v : Sample) (s : State) : Host.Outcome State Fault Refusal := pushState v.W v.word s

/-- f(v): "no special semantics beyond being a named `push` operation" (rule R61). -/
def execCall (v : Sample) (s : State) : Host.Outcome State Fault Refusal := pushState v.W v.word s

/-- PUSHV [v0, ..., v(m-1)] (rule R101). -/
def execPushv (vs : Samples) (s : State) : Host.Outcome State Fault Refusal := pushLoop vs.W vs.words [] s

end Sys2Proof.Machine
end

