-- ==== Sys2Proof/Machine/Dispatch.lean ====
section
/-! DEFINITION. One arm per operation. -/

namespace Sys2Proof.Machine

def exec (i : Instr) (s : State) : Host.Outcome State Fault Refusal :=
  match i with
  | .construct cfg => Sys2Proof.Machine.execConstruct cfg s
  | .reset => Sys2Proof.Machine.execReset s
  | .push v => Sys2Proof.Machine.execPush v s
  | .pushv vs => Sys2Proof.Machine.execPushv vs s
  | .call v => Sys2Proof.Machine.execCall v s

end Sys2Proof.Machine
end

