-- ==== Sys2Proof/Machine/Ports.lean ====
section
/-! DEFINITION. The block at its ports: the hardware reset (40_construct_reset.md rule R75; 70_reset_and_hazards.md
rule R170), the valid/ready transfer of commands and responses cycle by cycle (30_encoding.md rules R51, R52, R56;
rules R160, R168), and one interaction of the host (rule R172). -/

namespace Sys2Proof.Machine

/-- The state while `rst = 1` in a cycle: the construction state whatever the engine was doing, the command in progress
abandoned without a response, `cmd_ready = 0` (rules R75, R160, R170). -/
def heldInReset (i : Instance) (s : State) : State :=
  { s with inst := some i.cleared, inFlight := none, pins := { cmdReady := false, rsp := none } }

/-- `rst` asserted and released: as `heldInReset`, and the engine is ready again (rule R160). -/
def hardwareReset (s : State) : Host.Outcome State Fault Refusal :=
  match s.inst with
  | none => .refused .noInstance
  | some i => .next { heldInReset i s with pins := { cmdReady := true, rsp := none } }

/-- No interaction is pending and no command is in progress: the engine is idle in the "ready" state with its state
intact (60_exceptions.md rules R139, R146; 70_reset_and_hazards.md rule R173). DESIGN CHOICE, notes/assumptions/6.md: where
no instance exists there is no engine to be idle and no port to be driven (40_construct_reset.md rule R77), and the step
goes on with the state as it is, because the host may still construct. -/
def idle (s : State) : State :=
  match s.inst with
  | none => s
  | some _ => { s with pins := { cmdReady := true, rsp := none } }

/-- The engine executes the command in progress and answers it (rules R41, R56). -/
def finish (c : InFlight) (s : State) : Host.Outcome State Fault Refusal :=
  exec (decode c.cw) { s with inFlight := none }

/-- In the cycle that delivers a response `cmd_ready` is still 0 (rule R52: "until it has delivered that command's
response"). -/
def notReady : Host.Outcome State Fault Refusal → Host.Outcome State Fault Refusal
  | .next s => .next { s with pins := { s.pins with cmdReady := false } }
  | .fault f => .fault f
  | .refused r => .refused r

/-- The cycle's command word, `{cmd_op, cmd_data}` (rule R53). -/
def PinsIn.word (p : PinsIn) : CmdWord p.W := cmdWord p.cmdOp p.cmdData

/-- One clock cycle with input ports `p` (rules R51, R52, R75, R168). A command is transferred from a port of the instance's
width only (rule R51). -/
def cycle (p : PinsIn) (s : State) : Host.Outcome State Fault Refusal :=
  match s.inst with
  | none => .refused .noInstance
  | some i =>
    if p.rst then .next (heldInReset i s)
    else
      match s.inFlight with
      | some c =>
        match c.wait with
        | 0 => notReady (finish c s)
        | wait + 1 =>
          .next { s with inFlight := some { c with wait := wait }, pins := { cmdReady := false, rsp := none } }
      | none =>
        if !p.cmdValid then .next (idle s)
        else if p.W = i.cfg.W then
          .next { s with
            inFlight := some { W := p.W, cw := p.word, wait := Config.latency s.draws }
            pins := { cmdReady := true, rsp := none }
            draws := s.draws + 1 }
        else .refused .wordWidth

/-- One interaction of the host (rule R172), no command being in progress. -/
def perform (a : HostAction) (s : State) : Host.Outcome State Fault Refusal :=
  match a with
  | .command _ cw => exec (decode cw) s
  | .host i => exec i s
  | .hardwareReset => hardwareReset s
  | .cycle p => cycle p s

/-- One interaction while a command is in progress: a clock cycle passes, a hardware reset abandons the command, and any
other interaction waits, not taken and not lost, until the command has been answered (rules R168, R170). -/
def whileBusy (c : InFlight) (s : State) : Host.Outcome State Fault Refusal :=
  match s.inbox with
  | .cycle p :: rest => cycle p { s with inbox := rest }
  | .hardwareReset :: rest => hardwareReset { s with inbox := rest }
  | _ => finish c s

/-- The next thing that happens at the block. -/
def advance (s : State) : Host.Outcome State Fault Refusal :=
  match s.inFlight with
  | some c => whileBusy c s
  | none =>
    match s.inbox with
    | [] => .next (idle s)
    | a :: rest => perform a { s with inbox := rest }

/-- The host offers a command next: the machine is made to take this word on its port in its next step. -/
def State.offer (W : Nat) (cw : CmdWord W) (s : State) : State :=
  { s with inFlight := none, inbox := .command W cw :: s.inbox }

end Sys2Proof.Machine
end

