-- ==== Sys2Proof/Machine/Step.lean ====
section
/-! DEFINITION. The step: one interaction of the host with the block (20_memory.md rule R41). There is no program
counter and no fetch (10_state.md rule R19, 20_memory.md rule R45): the step takes the next command from the port. -/

namespace Sys2Proof.Machine

/-- One step. -/
def step (s : State) : Host.Outcome State Fault Refusal := advance s

/-- `s` with the command word `w` of `nbits` bits offered on the command port, so that the very next step takes and runs
it; in the reference width `W = 64` of the opcode table. The bits above `nbits` are zero. -/
def State.withFetchWord (s : State) (nbits w : Nat) : State := s.offer 64 (BitVec.ofNat 65 (w % 2 ^ nbits))

end Sys2Proof.Machine
end

