-- ==== Sys2Proof/Machine/System.lean ====
section
/-! DEFINITION. Several instances of the block side by side (10_state.md rule R20; 60_exceptions.md rule R144): each has
a whole machine state of its own, and a schedule says which one moves next. -/

namespace Sys2Proof.Machine

/-- Instance `k` makes one step. DESIGN CHOICE, notes/assumptions/18.md: a schedule that names no instance is refused, as
noInstance. -/
def stepInstance (k : Nat) (sys : List State) : Host.Outcome (List State) Fault Refusal :=
  match sys[k]? with
  | none => .refused .noInstance
  | some s =>
    match step s with
    | .next s' => .next (sys.set k s')
    | .fault f => .fault f
    | .refused r => .refused r

/-- The instances move one at a time in the order of the schedule. DESIGN CHOICE, notes/assumptions/18.md: a schedule runs as
long as every step of it answers a next state; a step that is refused or faults ends the joint run with its answer, although
the other instances could go on, which a schedule without that step shows. -/
def runSystem : List Nat → List State → Host.Outcome (List State) Fault Refusal
  | [], sys => .next sys
  | k :: ks, sys =>
    match stepInstance k sys with
    | .next sys' => runSystem ks sys'
    | .fault f => .fault f
    | .refused r => .refused r

end Sys2Proof.Machine
end

