-- ==== Sys2Proof/Safety.lean ====
section
/-! DEFINITION. The terms claims use: the invariants of an instance (10_state.md rule R14), the window and the
convolution (41_push.md rules R93, R95), exact values and the named properties of a number format (42_numerics.md rule
R111), and sequences of operations. -/

namespace Sys2Proof.Machine

/-- Invariants 1 to 3 of 10_state.md rule R14, the premises on the format and the taps (42_numerics.md rules R111, R121),
and what the strict check keeps: with STRICT = 1 every slot is finite (41_push.md rule R86: "rather than silently
corrupting the window"). -/
def Instance.wf (i : Instance) : Bool :=
  isPowerOfTwo i.cfg.taps && Memory.wf i && decide (i.cursor < i.cfg.taps) && i.cfg.fmt.admitted && i.cfg.tapsFinite
    && (!i.cfg.strict || i.history.all (isFinite i.cfg.fmt))

/-- A machine no run can leave: its instance, if it has one, is well formed, and a command in progress came from its port;
without an instance no command is in progress and no port is driven (40_construct_reset.md rule R77). -/
def State.wf (s : State) : Bool :=
  match s.inst with
  | some i => i.wf && s.inFlight.all fun c => c.W == i.cfg.W
  | none => s.inFlight.isNone && s.pins == { cmdReady := false, rsp := none }

/-- The samples of an interaction are words of the instance's format (30_encoding.md rules R51, R54). -/
def HostAction.fits (W : Nat) : HostAction → Bool
  | .command V _ => V == W
  | .host op => op.fits W
  | .hardwareReset => true
  | .cycle p => p.W == W

/-- The words of a ring, newest first: slot `(cursor - 1 - j) & mask` for `j = 0 .. N-1` (10_state.md rule R15); `z`
would stand for a slot that does not exist. -/
def ringWindow {α : Type} (z : α) (taps : Nat) (hist : List α) (cursor : Nat) : List α :=
  (List.range taps).map fun j => hist.getD (tapSlot cursor (maskOf taps) j) z

/-- The window of an instance: its `N` most recent samples, newest first (rule R15). -/
def Instance.window (i : Instance) : List (Word i.cfg.W) := ringWindow (zeroWord i.cfg.fmt) i.cfg.taps i.history i.cursor

/-- The running sum from `acc` over further pairs, one addition at a time (41_push.md rule R92). -/
def dotFrom {α : Type} (F : Fmt α) : α → List α → List α → α
  | acc, x :: xs, c :: cs => dotFrom F (F.fadd acc (F.fmul x c)) xs cs
  | acc, _, _ => acc

/-- `y = (...((p0 + p1) + p2) ... ) + p(N-1)` with `pk = fmul(x[n-k], COEFF[k])` (rules R92, R95): `xs` newest first,
`cs` tap 0 first. The sum starts as the tap-0 product, not from zero. -/
def firSum {α : Type} (F : Fmt α) (xs cs : List α) : α :=
  match xs, cs with
  | x :: xs, c :: cs => dotFrom F (F.fmul x c) xs cs
  | _, _ => F.zero

/-- `x[m-k]` for `k = 0 .. n-1`, newest first, of a sample sequence with `x[m] = z` for `m < 0` (00_scope.md rule R8). -/
def lastSamples {α : Type} (z : α) (n : Nat) (xs : List α) (m : Nat) : List α :=
  (List.range n).map fun k => if k ≤ m then xs.getD (m - k) z else z

/-- The exact real value of a finite word of a binary format. -/
def valueIn (f : BinFormat) {n : Nat} (w : BitVec n) : ℚ := (signedUnits f w.toNat : ℚ) / 2 ^ unitExp f

/-- The exact real value of a finite word of the reference format (20_memory.md rule R36). -/
def valueOf (w : Word Config.binary64.width) : ℚ := valueIn Config.binary64 w

/-- The exact value of a finite word of any format (42_numerics.md rule R111). -/
def valueAs : (f : Format) → Word f.width → ℚ
  | .binary shape, w => valueIn shape w
  | .other W number, w => (otherFormat W number).value w

/-- A sequence of operations, in order, stopping where one stops (20_memory.md rule R41). -/
def execAll : List Instr → State → Host.Outcome State Fault Refusal
  | [], s => .next s
  | i :: is, s =>
    match exec i s with
    | .next s' => execAll is s'
    | .fault f => .fault f
    | .refused r => .refused r

/-- The pushes of words of `W` bits, in order. -/
def pushes {W : Nat} (xs : List (Word W)) : List Instr := xs.map fun x => .push ⟨W, x⟩

/-- Pushes of a ring of any format from the zero history, with their outputs in order; none where a push is rejected or
finds no slot (41_push.md rule R95). -/
def ringOutputs {α : Type} (F : Fmt α) (taps : Nat) (coeff : List α) : List α → Nat → List α → Option (List α)
  | _, _, [] => some []
  | hist, cursor, x :: xs =>
    match pushRing F false taps coeff hist cursor x with
    | .done hist' cursor' y => (ringOutputs F taps coeff hist' cursor' xs).map (y :: ·)
    | _ => none

/-- The response word of a delivery on a response port of `W` data bits. -/
def Delivery.word? (W : Nat) : Delivery → Option (RspWord W)
  | .response r => if r.W = W then some (r.word.setWidth (W + 1)) else none
  | _ => none

/-- The response words transferred between two states of a run, in order (30_encoding.md rule R56). -/
def responsesSince (W : Nat) (s t : State) : List (RspWord W) :=
  (t.delivered.drop s.delivered.length).filterMap (Delivery.word? W)

/-- PUSH of this sample passes step 0 (41_push.md rule R86). -/
def Instance.accepts (i : Instance) (v : Word i.cfg.W) : Bool := !(i.cfg.strict && !isFinite i.cfg.fmt v)

/-- The instance after an accepted PUSH of `v`: the slot at the cursor written, the cursor advanced, the rest as it was
(41_push.md rules R87, R88). -/
def Instance.pushed (i : Instance) (v : Word i.cfg.W) : Instance :=
  { i with history := i.history.set i.cursor v, cursor := nextIndex i.cursor (maskOf i.cfg.taps) }

/-- The output of an accepted PUSH of `v` that draws `k`: the sequential sum over the window with `v` in it (rule R93). -/
def Instance.output (i : Instance) (k : Nat) (v : Word i.cfg.W) : Word i.cfg.W :=
  firSum (fmtAt i.cfg.fmt k) (i.pushed v).window i.cfg.coeff

/-- Two words a host must take for the same output: equal, or each some NaN (42_numerics.md rule R117). -/
def sameOutput (f : Format) (a b : Word f.width) : Bool := a == b || (isNaN f a && isNaN f b)

/-- Two response words a host must take for the same: the same error bit and the same output. -/
def sameResponse (f : Format) (a b : RspWord f.width) : Prop :=
  rspErr a = rspErr b ∧ sameOutput f (rspData a) (rspData b) = true

end Sys2Proof.Machine
end

