-- ==== Sys2Proof/Certificates/Slice0/Obligations.lean ====
section
/-! DEFINITION. The statements for the provers, family by family. -/

open Sys2Proof Sys2Proof.Machine

/-! Encoding (30_encoding.md) -/

/-- R62, R58, R53: decoding by the operation bit, total; the data of RESET is ignored, the data of PUSH used as it stands;
masked with `1 << W` a word shows which of the two it is. -/
def Obligations.DecodeReadsOperationBitAndData : Prop :=
  ∀ (W : Nat) (cw : CmdWord W), (cw.toNat < 2 ^ W → decode cw = .reset) ∧
    (2 ^ W ≤ cw.toNat → decode cw = .push ⟨W, BitVec.ofNat W (cw.toNat - 2 ^ W)⟩) ∧
    (decode cw = .reset ↔ cw &&& BitVec.twoPow (W + 1) W = 0)

/-- R62, R61, R57: decoding the words of an operation gives back the commands it stands for: RESET and PUSH
themselves, PUSH v for f(v), the pushes in order for PUSHV, and nothing for CONSTRUCT. -/
def Obligations.DecodeOfEncodeGivesTheCommands : Prop :=
  ∀ W : Nat, (∀ cfg, encode W (.construct cfg) = []) ∧ (encode W .reset).map decode = [.reset] ∧
  (∀ v : Word W, (encode W (.push ⟨W, v⟩)).map decode = [.push ⟨W, v⟩]) ∧
  (∀ v : Word W, (encode W (.call ⟨W, v⟩)).map decode = [.push ⟨W, v⟩]) ∧
  (∀ vs : List (Word W), (encode W (.pushv ⟨W, vs⟩)).map decode = pushes vs)

/-- R62, whole, for every `W`: `decode` by bit W, the words of RESET and PUSH, `decode(encode(c)) = c` for every command,
and `encode(decode(cw)) = cw` for every PUSH word and for the canonical RESET word only. -/
def Obligations.CommandsRoundTrip : Prop :=
  ∀ W : Nat,
  (∀ cw : CmdWord W, decode cw = if cw.getLsbD W then .push ⟨W, cw.setWidth W⟩ else .reset) ∧
  encode W .reset = [0] ∧
  (∀ v : Word W, encode W (.push ⟨W, v⟩) = [BitVec.ofNat (W + 1) (2 ^ W + v.toNat)]) ∧
  (∀ c : Instr, (c = .reset ∨ ∃ v : Word W, c = .push ⟨W, v⟩) → (encode W c).map decode = [c]) ∧
  (∀ cw : CmdWord W, encode W (decode cw) = [cw] ↔ (cw.getLsbD W = true ∨ cw = 0))

/-- Words written out from the encodings in the reference width (95_test_vectors.md V16). -/
def Obligations.WordsOfTheSpecDecode : Prop :=
  decode (W := 64) 0x00000000000000000#65 = .reset ∧ decode (W := 64) 0x03FF0000000000000#65 = .reset ∧
  decode (W := 64) 0x0FFFFFFFFFFFFFFFF#65 = .reset ∧
  decode (W := 64) 0x13FF0000000000000#65 = .push ⟨64, 0x3FF0000000000000#64⟩ ∧
  decode (W := 64) 0x10000000000000000#65 = .push ⟨64, 0#64⟩ ∧
  decode (W := 64) 0x18000000000000000#65 = .push ⟨64, 0x8000000000000000#64⟩ ∧
  decode (W := 64) 0x17FF8000000000000#65 = .push ⟨64, 0x7FF8000000000000#64⟩

/-! The step -/

/-- A step with no command in progress takes the word on the port and executes what it decodes to.
The inbox is the model's (log 8). -/
def Obligations.StepRunsTheCommandOnThePort : Prop :=
  ∀ (s : State) (W : Nat) (cw : CmdWord W) (rest : List HostAction), s.inFlight = none →
    s.inbox = .command W cw :: rest → step s = exec (decode cw) { s with inbox := rest }

/-- An operation the host performs by name (CONSTRUCT, PUSHV, f(v)) is executed as it stands.
The inbox is the model's (log 8, log 13). -/
def Obligations.StepRunsTheHostsOperation : Prop :=
  ∀ (s : State) (op : Instr) (rest : List HostAction), s.inFlight = none → s.inbox = .host op :: rest →
    step s = exec op { s with inbox := rest }

/-- A word the table decoder reads, offered on the port, is what the very next step runs.
How a word is offered is the model's (log 8, log 15). -/
def Obligations.StepRunsTheWordOffered : Prop :=
  ∀ (s : State) (nbits w : Nat) (op : Instr), decodeTableWord nbits w = some op →
    step (s.withFetchWord nbits w) = exec op { s with inFlight := none }

/-- While a command is in progress a further transaction waits, not taken and not lost: the step answers the command
(R168).
That the step completes the command is the model's (log 10). -/
def Obligations.WaitingTransactionIsNotTakenNorLost : Prop :=
  ∀ (s : State) (c : InFlight) (a : HostAction) (rest : List HostAction), s.inFlight = some c → s.inbox = a :: rest →
    (∀ p, a ≠ .cycle p) → a ≠ .hardwareReset → step s = exec (decode c.cw) { s with inFlight := none }

/-- R22, R139, R146, R160, R173: with nothing pending the engine is idle, its state intact, ready and without a response.
That a step goes on where no instance exists, with the whole state as it was and no port driven, is the model's (log 6). -/
def Obligations.NothingHappensBetweenCommands : Prop :=
  ∀ s : State, s.inFlight = none → s.inbox = [] →
    ∃ t, step s = .next t ∧ t.inst = s.inst ∧ t.delivered = s.delivered ∧ t.inbox = [] ∧ t.inFlight = none ∧
      (∀ i, s.inst = some i → t.pins = { cmdReady := true, rsp := none }) ∧ (s.inst = none → t = s)

/-! CONSTRUCT (40_construct_reset.md) -/

/-- R70: CONSTRUCT succeeds for every table whose tap count is a power of two, symmetric or not, and raises
InvalidConfiguration for every other tap count; the tap values decide nothing (their finiteness is R121's premise, the
format R111's). A constructed engine is ready, with no response (R160).
That a failed CONSTRUCT removes an instance that stood before is the model's (log 6), and so is that an illegal tap count
wins whatever the format and the table hold (log 7). -/
def Obligations.ConstructByTapCount : Prop :=
  ∀ (cfg : FilterConfig) (s : State),
    ((∃ j, cfg.taps = 2 ^ j) → cfg.fmt.admitted = true → cfg.coeff.length = cfg.taps →
      (∀ c ∈ cfg.coeff, isFinite cfg.fmt c = true) →
      ∃ t, exec (.construct cfg) s = .next t ∧
        t.inst = some { cfg := cfg, history := List.replicate cfg.taps (zeroWord cfg.fmt), cursor := 0 } ∧
        t.delivered = s.delivered ++ [.constructed] ∧ t.pins = { cmdReady := true, rsp := none }) ∧
    ((¬ ∃ j, cfg.taps = 2 ^ j) →
      ∃ t, exec (.construct cfg) s = .next t ∧ t.inst = none ∧
        t.delivered = s.delivered ++ [.notConstructed .invalidConfiguration])

/-- R121, R111: a configuration of legal size is refused for a shape that is no IEEE 754 format, for a table of the wrong
length and for a non-finite tap, and for nothing else: every other one completes.
The refusals and their order are the model's (log 7), and so is which shapes are formats (log 1). -/
def Obligations.ConstructRefusesOnlyForeignTables : Prop :=
  ∀ (cfg : FilterConfig) (s : State) (j : Nat), cfg.taps = 2 ^ j →
    (cfg.fmt.admitted = false ↔ ∃ f, cfg.fmt = .binary f ∧ (f.expBits < 2 ∨ f.fracBits < 1)) ∧
    (cfg.fmt.admitted = false → exec (.construct cfg) s = .refused .noFormat) ∧
    (cfg.fmt.admitted = true → cfg.coeff.length ≠ cfg.taps → exec (.construct cfg) s = .refused .tableLength) ∧
    (cfg.fmt.admitted = true → cfg.coeff.length = cfg.taps → (∃ c ∈ cfg.coeff, isFinite cfg.fmt c = false) →
      exec (.construct cfg) s = .refused .nonFiniteTap) ∧
    (cfg.fmt.admitted = true → cfg.coeff.length = cfg.taps → (¬ ∃ c ∈ cfg.coeff, isFinite cfg.fmt c = false) →
      ∃ t, exec (.construct cfg) s = .next t)

/-- R77, R131: after InvalidConfiguration no RESET, PUSH, f(v) or PUSHV of a sample or more can be applied, and there is no
block to reset or to clock.
The refusals are the model's (log 7), and so is that an instance that stood before is gone (log 6). -/
def Obligations.NoInstanceNoCommand : Prop :=
  ∀ (cfg : FilterConfig) (s t : State) (v : Sample) (vs : Samples) (p : PinsIn), (¬ ∃ j, cfg.taps = 2 ^ j) →
    exec (.construct cfg) s = .next t → vs.words ≠ [] →
    exec .reset t = .refused .noInstance ∧ exec (.push v) t = .refused .noInstance ∧
      exec (.call v) t = .refused .noInstance ∧ exec (.pushv vs) t = .refused .noInstance ∧
      hardwareReset t = .refused .noInstance ∧ cycle p t = .refused .noInstance

/-! RESET and the hardware reset -/

/-- R73: RESET clears every slot and the cursor, keeps the configuration and answers `{0, 0}`; it always succeeds, and two
RESETs in a row leave what one leaves. -/
def Obligations.ResetClearsAndAnswersZero : Prop :=
  ∀ (s : State) (i : Instance), s.inst = some i →
    ∃ t, exec .reset s = .next t ∧
      t.inst = some { i with history := List.replicate i.cfg.taps (zeroWord i.cfg.fmt), cursor := 0 } ∧
      t.delivered = s.delivered ++ [.response ⟨i.cfg.W, 0⟩] ∧
      (∀ u, exec .reset t = .next u → u.inst = t.inst)

/-- R74: after any commands, RESET leaves the state CONSTRUCT leaves, and the outputs of any samples after it are those
after CONSTRUCT alone (which NaN an output is apart, R117). -/
def Obligations.ResetIsReconstruction : Prop :=
  ∀ (s : State) (i : Instance) (cmds : List (CmdWord i.cfg.W)) (s₁ s₂ c : State), s.inst = some i → i.wf = true →
    execAll (cmds.map decode) s = .next s₁ → exec .reset s₁ = .next s₂ → exec (.construct i.cfg) s = .next c →
    s₂.inst = c.inst ∧
    ∀ xs : List (Word i.cfg.W), ∃ t u, execAll (pushes xs) s₂ = .next t ∧ execAll (pushes xs) c = .next u ∧
      t.inst = u.inst ∧ (responsesSince i.cfg.W s₂ t).length = xs.length ∧
      List.Forall₂ (sameResponse i.cfg.fmt) (responsesSince i.cfg.W s₂ t) (responsesSince i.cfg.W c u)

/-- R75, R160, R170: the hardware reset, as an event or as a cycle with `rst = 1`, puts the instance in the construction
state whatever the engine was doing, and abandons a command in progress without a response; `cmd_ready` is 0 while
`rst = 1`, and 1 once the reset is released, as it is at the end of the event.
The form of the event is the model's (log 11). -/
def Obligations.HardwareResetAbandonsTheCommand : Prop :=
  ∀ (s : State) (i : Instance) (a : HostAction) (rest : List HostAction), s.inst = some i → s.inbox = a :: rest →
    (a = .hardwareReset ∨ ∃ p, a = .cycle p ∧ p.rst = true) →
    ∃ t, step s = .next t ∧
      t.inst = some { i with history := List.replicate i.cfg.taps (zeroWord i.cfg.fmt), cursor := 0 } ∧
      t.inFlight = none ∧ t.delivered = s.delivered ∧ t.inbox = rest ∧ t.pins.rsp = none ∧
      (a = .hardwareReset → t.pins.cmdReady = true) ∧ (a ≠ .hardwareReset → t.pins.cmdReady = false)

/-! PUSH (41_push.md) -/

/-- R90 with R87, R88, R91, R92, R93: what an accepted PUSH (and f(v)) writes and answers. The slots are given by their
closed form modulo `N`, the sum by its order: tap 0 is the sample itself, then taps 1 to N-1. The draw `d` only names the
NaN, should the output be one (R117). -/
def Obligations.PushComputesTheSequentialSum : Prop :=
  ∀ (s : State) (i : Instance) (v : Word i.cfg.W), s.inst = some i → i.wf = true →
    (i.cfg.strict = true → isFinite i.cfg.fmt v = true) →
    let N := i.cfg.taps
    let hist := i.history.set i.cursor v
    let cursor := (i.cursor + 1) % N
    let y := fun F : Fmt (Word i.cfg.W) => (List.range' 1 (N - 1)).foldl
      (fun acc k => F.fadd acc (F.fmul (hist.getD ((cursor + (N - 1 - k)) % N) 0) (i.cfg.coeff.getD k 0)))
      (F.fmul v (i.cfg.coeff.getD 0 0))
    ∃ (t : State) (d : Nat), exec (.push ⟨i.cfg.W, v⟩) s = .next t ∧ exec (.call ⟨i.cfg.W, v⟩) s = .next t ∧
      t.inst = some { i with history := hist, cursor := cursor } ∧
      t.delivered = s.delivered ++ [.response ⟨i.cfg.W, (y (fmtAt i.cfg.fmt d)).setWidth _⟩]

/-- R86, R132: with STRICT = 1 a non-finite sample is rejected before anything else, in the response of the same PUSH;
the state is as it was, and nothing else stops a PUSH. -/
def Obligations.StrictPushRejectsNonFinite : Prop :=
  ∀ (s : State) (i : Instance) (v : Word i.cfg.W), s.inst = some i →
    (i.cfg.strict = true → isFinite i.cfg.fmt v = false →
      ∃ t, exec (.push ⟨i.cfg.W, v⟩) s = .next t ∧ exec (.call ⟨i.cfg.W, v⟩) s = .next t ∧ t.inst = s.inst ∧
        t.delivered = s.delivered ++ [.response ⟨i.cfg.W, BitVec.ofNat _ (2 ^ i.cfg.W)⟩]) ∧
    (i.wf = true → i.cfg.strict = false →
      ∃ t rw, exec (.push ⟨i.cfg.W, v⟩) s = .next t ∧ t.delivered = s.delivered ++ [.response ⟨i.cfg.W, rw⟩] ∧
        rspErr rw = false)

/-- R87: a PUSH changes no slot but the one at the cursor, whether the sample is accepted or not; it writes the sample
there, bit for bit, when it is accepted, over the oldest sample of the window, and never touches the configuration. -/
def Obligations.PushWritesOnlyTheSlotAtTheCursor : Prop :=
  ∀ (s t : State) (i : Instance) (v : Word i.cfg.W), s.inst = some i → exec (.push ⟨i.cfg.W, v⟩) s = .next t →
    ∃ hist' cursor', t.inst = some { i with history := hist', cursor := cursor' } ∧
      (∀ j, j ≠ i.cursor → memRead hist' j = memRead i.history j) ∧
      ((i.cfg.strict = true → isFinite i.cfg.fmt v = true) → memRead hist' i.cursor = some v) ∧
      ((i.cfg.strict = true ∧ isFinite i.cfg.fmt v = false) → t.inst = some i) ∧
      (i.wf = true → memRead i.history i.cursor = i.window.getLast?)

/-- R88: the cursor after an accepted PUSH: `(cursor + 1) & mask`, which is one more, or 0 from `N-1`, and for `N = 1`
always 0; it is `(cursor + 1) mod N`. -/
def Obligations.CursorAdvancesAndWraps : Prop :=
  ∀ (s : State) (i : Instance) (v : Word i.cfg.W), s.inst = some i → i.wf = true →
    (i.cfg.strict = true → isFinite i.cfg.fmt v = true) →
    ∃ t i', exec (.push ⟨i.cfg.W, v⟩) s = .next t ∧ t.inst = some i' ∧
      i'.cursor = (i.cursor + 1) &&& (i.cfg.taps - 1) ∧
      i'.cursor = (i.cursor + 1) % i.cfg.taps ∧ (i.cursor + 1 < i.cfg.taps → i'.cursor = i.cursor + 1) ∧
      (i.cursor + 1 = i.cfg.taps → i'.cursor = 0) ∧ (i.cfg.taps = 1 → i'.cursor = 0)

/-- R15, second form: an accepted PUSH puts the sample in front of the window and drops the oldest one. -/
def Obligations.PushShiftsTheWindow : Prop :=
  ∀ (s : State) (i : Instance) (v : Word i.cfg.W), s.inst = some i → i.wf = true →
    (i.cfg.strict = true → isFinite i.cfg.fmt v = true) →
    ∃ t hist' cursor', exec (.push ⟨i.cfg.W, v⟩) s = .next t ∧
      t.inst = some { i with history := hist', cursor := cursor' } ∧
      Instance.window { i with history := hist', cursor := cursor' } = v :: i.window.take (i.cfg.taps - 1) ∧
      i.window.length = i.cfg.taps

/-- R37, R42: the slot a PUSH overwrites is never read: what it held decides nothing of the next state. -/
def Obligations.OverwrittenSlotIsNotRead : Prop :=
  ∀ (s : State) (i : Instance) (v w : Word i.cfg.W), s.inst = some i → i.wf = true →
    (i.cfg.strict = true → isFinite i.cfg.fmt v = true) →
    exec (.push ⟨i.cfg.W, v⟩) { s with inst := some { i with history := i.history.set i.cursor w } } =
      exec (.push ⟨i.cfg.W, v⟩) s

/-- R96: the new state and the output are a function of the instance and the sample, whatever else differs, with one
exception: which NaN is returned when the output is a NaN (R117). -/
def Obligations.PushIsDeterministic : Prop :=
  ∀ (s₁ s₂ : State) (i : Instance) (v : Word i.cfg.W), s₁.inst = some i → s₂.inst = some i → i.wf = true →
    ∃ t₁ t₂ r₁ r₂, exec (.push ⟨i.cfg.W, v⟩) s₁ = .next t₁ ∧ exec (.push ⟨i.cfg.W, v⟩) s₂ = .next t₂ ∧
      t₁.inst = t₂.inst ∧ t₁.delivered = s₁.delivered ++ [.response ⟨i.cfg.W, r₁⟩] ∧
      t₂.delivered = s₂.delivered ++ [.response ⟨i.cfg.W, r₂⟩] ∧ sameResponse i.cfg.fmt r₁ r₂

/-- R15 (content law): after any pushes from the construction state, with `ys` the samples not rejected and `p` their
number, `cursor = p mod N`, every slot holds the last sample pushed to it, or ZERO, and slot `(cursor - 1 - j) & mask`
holds the sample pushed `j` pushes before the newest. -/
def Obligations.ContentLaw : Prop :=
  ∀ (s : State) (cfg : FilterConfig) (xs : List (Word cfg.W)), s.inst = some (Instance.fresh cfg) →
    (Instance.fresh cfg).wf = true →
    let ys := xs.filter fun x => !cfg.strict || isFinite cfg.fmt x
    let p := ys.length
    ∃ t hist cursor, execAll (pushes xs) s = .next t ∧ t.inst = some ⟨cfg, hist, cursor⟩ ∧ cursor = p % cfg.taps ∧
      (∀ m, m < p → p ≤ m + cfg.taps → hist[m % cfg.taps]? = ys[m]?) ∧
      (∀ j, j < cfg.taps → p ≤ j → hist[j]? = some (zeroWord cfg.fmt)) ∧
      (∀ j, j < cfg.taps → hist[tapSlot cursor (maskOf cfg.taps) j]? =
        if j < p then ys[p - 1 - j]? else some (zeroWord cfg.fmt))

/-- R95: the outputs of the samples `x[0], x[1], ...` pushed from the construction state are the convolution with the
taps, each summed in the order of R92.
The draw that names a NaN is the model's (log 2). -/
def Obligations.OutputsAreTheConvolution : Prop :=
  ∀ (s : State) (cfg : FilterConfig) (xs : List (Word cfg.W)), s.inst = some (Instance.fresh cfg) →
    (Instance.fresh cfg).wf = true → (∀ x ∈ xs, cfg.strict = true → isFinite cfg.fmt x = true) →
    ∃ t, execAll (pushes xs) s = .next t ∧
      t.delivered = s.delivered ++ (List.range xs.length).map fun m =>
        .response ⟨cfg.W, (firSum (fmtAt cfg.fmt (s.draws + m)) (lastSamples (zeroWord cfg.fmt) cfg.taps xs m)
          cfg.coeff).setWidth _⟩

/-- R97 in every binary format: impulse response. The `j`-th output after a sample `v` and zeros is the product with tap
`j`, bit for bit where that is not a zero, and a zero where it is; from the `N+1`-th on, zero. -/
def Obligations.ImpulseResponseReadsTheTaps : Prop :=
  ∀ (s : State) (f : BinFormat) (taps : Nat) (coeff : List (Word f.width)) (strict : Bool) (v : Word f.width) (m : Nat),
    s.inst = some (Instance.fresh ⟨.binary f, taps, coeff, strict⟩) →
    (Instance.fresh ⟨.binary f, taps, coeff, strict⟩).wf = true → isFinite (.binary f) v = true →
    ∃ t, execAll (pushes (v :: List.replicate m 0)) s = .next t ∧
      ∀ j, j ≤ m → ∃ y : Word f.width, (responsesSince f.width s t)[j]? = some (y.setWidth _) ∧
        (j < taps → isZero f ((binaryFmt f 0).fmul v (coeff.getD j 0)) = false →
          y = (binaryFmt f 0).fmul v (coeff.getD j 0)) ∧
        (j < taps → isZero f ((binaryFmt f 0).fmul v (coeff.getD j 0)) = true → isZero f y = true) ∧
        (taps ≤ j → isZero f y = true)

/-- R97, the concrete scenario in its parametric form and in every binary format: a unit impulse returns the taps
themselves, in order. The word of 1.0 has the exponent bias in its exponent field and no fraction.
That a binary shape other than binary64 has this arithmetic and this word of 1.0 is PRESUMED (log 17, log 1). -/
def Obligations.UnitImpulseReturnsTheTaps : Prop :=
  ∀ (s : State) (f : BinFormat) (taps : Nat) (coeff : List (Word f.width)) (strict : Bool),
    s.inst = some (Instance.fresh ⟨.binary f, taps, coeff, strict⟩) →
    (Instance.fresh ⟨.binary f, taps, coeff, strict⟩).wf = true →
    let one : Word f.width := BitVec.ofNat _ ((2 ^ (f.expBits - 1) - 1) * 2 ^ f.fracBits)
    ∃ t, execAll (pushes (one :: List.replicate (taps - 1) 0)) s = .next t ∧
      ∀ (j : Nat) (c : Word f.width), coeff[j]? = some c → isZero f c = false →
        (responsesSince f.width s t)[j]? = some (c.setWidth _)

/-- R98: from the `N`-th push of a constant on, every output is the sequential sum of its products with all taps.
The draw that names a NaN is the model's (log 2). -/
def Obligations.ConstantInputReachesTheGain : Prop :=
  ∀ (s : State) (i : Instance) (v : Word i.cfg.W) (m : Nat), s.inst = some i → i.wf = true →
    (i.cfg.strict = true → isFinite i.cfg.fmt v = true) →
    ∃ t, execAll (pushes (List.replicate m v)) s = .next t ∧
      ∀ j, j < m → i.cfg.taps ≤ j + 1 → (responsesSince i.cfg.W s t)[j]? =
        some ((firSum (fmtAt i.cfg.fmt (s.draws + j)) (List.replicate i.cfg.taps v) i.cfg.coeff).setWidth _)

/-- R99: with one tap the engine is a scalar multiplier with no history effect and no addition. -/
def Obligations.SingleTapIsAScalarMultiplier : Prop :=
  ∀ (s : State) (i : Instance) (c v : Word i.cfg.W), s.inst = some i → i.wf = true → i.cfg.taps = 1 → i.cfg.coeff = [c] →
    (i.cfg.strict = true → isFinite i.cfg.fmt v = true) →
    ∃ (t : State) (d : Nat), exec (.push ⟨i.cfg.W, v⟩) s = .next t ∧
      t.inst = some { i with history := [v], cursor := 0 } ∧
      t.delivered = s.delivered ++ [.response ⟨i.cfg.W, ((fmtAt i.cfg.fmt d).fmul v c).setWidth _⟩] ∧
      maskOf i.cfg.taps = 0

/-- R100: ageing out. After the same `N - 1` pushes nothing of two different pasts is left in the next output; after the
same `N` pushes nothing is left in the window. -/
def Obligations.OldSamplesAgeOut : Prop :=
  ∀ (s₁ s₂ : State) (cfg : FilterConfig) (h₁ h₂ xs : List (Word cfg.W)) (c₁ c₂ : Nat) (v : Word cfg.W),
    s₁.inst = some ⟨cfg, h₁, c₁⟩ → s₂.inst = some ⟨cfg, h₂, c₂⟩ →
    Instance.wf ⟨cfg, h₁, c₁⟩ = true → Instance.wf ⟨cfg, h₂, c₂⟩ = true →
    (∀ x ∈ xs ++ [v], cfg.strict = true → isFinite cfg.fmt x = true) → cfg.taps ≤ xs.length + 1 →
    ∃ t₁ t₂ u₁ u₂ h₁' h₂' c₁' c₂' r₁ r₂, execAll (pushes xs) s₁ = .next t₁ ∧ execAll (pushes xs) s₂ = .next t₂ ∧
      exec (.push ⟨cfg.W, v⟩) t₁ = .next u₁ ∧ exec (.push ⟨cfg.W, v⟩) t₂ = .next u₂ ∧
      u₁.delivered = t₁.delivered ++ [.response ⟨cfg.W, r₁⟩] ∧ u₂.delivered = t₂.delivered ++ [.response ⟨cfg.W, r₂⟩] ∧
      rspErr r₁ = false ∧ rspErr r₂ = false ∧ sameOutput cfg.fmt (rspData r₁) (rspData r₂) = true ∧
      u₁.inst = some ⟨cfg, h₁', c₁'⟩ ∧ u₂.inst = some ⟨cfg, h₂', c₂'⟩ ∧
      Instance.window ⟨cfg, h₁', c₁'⟩ = Instance.window ⟨cfg, h₂', c₂'⟩

/-- R117, R100, in every format: while a NaN sample is in the window every output is a NaN, with `rsp_err = 0`. -/
def Obligations.NaNInTheWindowGivesNaN : Prop :=
  ∀ (s : State) (i : Instance) (v : Word i.cfg.W), s.inst = some i → i.wf = true → i.cfg.strict = false →
    (isNaN i.cfg.fmt v = true ∨ ∃ x ∈ i.window.take (i.cfg.taps - 1), isNaN i.cfg.fmt x = true) →
    ∃ t y, exec (.push ⟨i.cfg.W, v⟩) s = .next t ∧
      t.delivered = s.delivered ++ [.response ⟨i.cfg.W, y.setWidth _⟩] ∧ isNaN i.cfg.fmt y = true

/-- R161: no later output can tell where the cursor stands: two instances with the same window give the same outputs
for any samples. -/
def Obligations.OutputsDependOnTheWindowOnly : Prop :=
  ∀ (s₁ s₂ : State) (cfg : FilterConfig) (h₁ h₂ xs : List (Word cfg.W)) (c₁ c₂ : Nat),
    s₁.inst = some ⟨cfg, h₁, c₁⟩ → s₂.inst = some ⟨cfg, h₂, c₂⟩ →
    Instance.wf ⟨cfg, h₁, c₁⟩ = true → Instance.wf ⟨cfg, h₂, c₂⟩ = true →
    Instance.window ⟨cfg, h₁, c₁⟩ = Instance.window ⟨cfg, h₂, c₂⟩ →
    ∃ t₁ t₂, execAll (pushes xs) s₁ = .next t₁ ∧ execAll (pushes xs) s₂ = .next t₂ ∧
      (responsesSince cfg.W s₁ t₁).length = xs.length ∧
      List.Forall₂ (sameResponse cfg.fmt) (responsesSince cfg.W s₁ t₁) (responsesSince cfg.W s₂ t₂)

/-! PUSHV and f(v) -/

/-- R101: PUSHV is its pushes in order up to the first rejected sample, and returns the outputs before it with the
index of the failure.
That the pushes' own responses and the report come in one step, in this order, is the model's (log 13). -/
def Obligations.BulkPushIsItsPushes : Prop :=
  ∀ (s : State) (i : Instance) (vs : List (Word i.cfg.W)), s.inst = some i → i.wf = true →
    let good := (vs.takeWhile i.accepts).length
    ∃ t u, execAll (pushes (vs.take (good + 1))) s = .next t ∧ exec (.pushv ⟨i.cfg.W, vs⟩) s = .next u ∧
      u.inst = t.inst ∧ (responsesSince i.cfg.W s t).length = min (good + 1) vs.length ∧
      u.delivered = t.delivered ++ [.bulk i.cfg.W (((responsesSince i.cfg.W s t).take good).map rspData)
        (if good < vs.length then some (good, .invalidSample) else none)]

/-- R101, R87: PUSHV leaves every slot alone that its pushes do not reach. -/
def Obligations.BulkPushWritesOnlyTheSlotsItReaches : Prop :=
  ∀ (s t : State) (i : Instance) (vs : List (Word i.cfg.W)), s.inst = some i → i.wf = true →
    exec (.pushv ⟨i.cfg.W, vs⟩) s = .next t →
    ∃ hist' cursor', t.inst = some { i with history := hist', cursor := cursor' } ∧
      ∀ j, (∀ k, k < vs.length → (i.cursor + k) % i.cfg.taps ≠ j) → memRead hist' j = memRead i.history j

/-! The whole machine -/

/-- R14: the invariants hold after the reset.
FMT, N, STRICT and the taps of the reset state are the model's (log 3, log 4). -/
def Obligations.ResetStateIsWellFormed : Prop := State.reset.wf = true

/-- R14, R77: every step keeps the invariants.
That no port is driven where no instance exists is the model's (log 6). -/
def Obligations.StepKeepsTheInvariants : Prop :=
  ∀ s t : State, s.wf = true → step s = .next t → t.wf = true

/-- R34, R133: no access fault and no other fault exists.
The fault is the model's (log 12). -/
def Obligations.NoStepFaults : Prop :=
  ∀ (s : State) (f : Fault), s.wf = true → step s ≠ .fault f

/-- R102, R73, R172: with an instance, every step whose samples are words of its format completes, unless the host
constructs from a table that is none of the spec's.
The refusals of other tables and of other words are the model's (log 7, log 20). -/
def Obligations.EveryStepCompletes : Prop :=
  ∀ (s : State) (i : Instance), s.inst = some i → s.wf = true →
    (∀ a rest, s.inbox = a :: rest → a.fits i.cfg.W = true) →
    (∀ cfg rest, s.inbox = .host (.construct cfg) :: rest → (∃ j, cfg.taps = 2 ^ j) →
      cfg.fmt.admitted = true ∧ cfg.coeff.length = cfg.taps ∧ ∀ c ∈ cfg.coeff, isFinite cfg.fmt c = true) →
    ∃ t, step s = .next t

/-- R13, R32, R16: nothing but CONSTRUCT writes the configuration.
A second CONSTRUCT is the model's (log 6). -/
def Obligations.OnlyConstructWritesTheConfiguration : Prop :=
  ∀ (s t : State) (i i' : Instance), s.inst = some i → t.inst = some i' → step s = .next t → i'.cfg ≠ i.cfg →
    s.inFlight = none ∧ ∃ cfg rest, s.inbox = .host (.construct cfg) :: rest ∧ i' = Instance.fresh cfg

/-- R22: the state changes only where a command is executed, an operation is performed or a reset is given; no cycle
without a reset and without a command to answer changes it. -/
def Obligations.StateChangesOnlyByTheOperations : Prop :=
  ∀ s t : State, step s = .next t → t.inst ≠ s.inst →
    s.inFlight.isSome = true ∨ ∃ a rest, s.inbox = a :: rest ∧
      ((∃ W cw, a = .command W cw) ∨ (∃ op, a = .host op) ∨ a = .hardwareReset ∨ ∃ p, a = .cycle p ∧ p.rst = true)

/-- R56, R55, R51, R160: a command taken from the port gives exactly one response, after all earlier ones, and that response
is what the response port shows, with the engine ready again.
That a whole command leaves the ports so is the model's (log 10). -/
def Obligations.OneResponsePerCommand : Prop :=
  ∀ (s : State) (i : Instance) (cw : CmdWord i.cfg.W) (rest : List HostAction), s.inst = some i → s.wf = true →
    s.inFlight = none → s.inbox = .command i.cfg.W cw :: rest →
    ∃ t rw, step s = .next t ∧ t.delivered = s.delivered ++ [.response ⟨i.cfg.W, rw⟩] ∧ t.inbox = rest ∧
      t.pins = { cmdReady := true, rsp := some ⟨i.cfg.W, rw⟩ } ∧
      (cw.toNat < 2 ^ i.cfg.W → rw = 0) ∧ (rspErr rw = true → rspData rw = 0)

/-- What every operation leaves alone: the host's interactions to come, everything delivered before; and, unless it is
CONSTRUCT, the configuration, the command in progress and the existence of an instance.
Inbox, delivered and draws are the model's (log 8, log 2). -/
def Obligations.OperationsLeaveTheRest : Prop :=
  ∀ (op : Instr) (s t : State), exec op s = .next t →
    t.inbox = s.inbox ∧ (∃ ds, ds ≠ [] ∧ t.delivered = s.delivered ++ ds) ∧ s.draws ≤ t.draws ∧
    ((∀ cfg, op ≠ .construct cfg) →
      t.inFlight = s.inFlight ∧ t.inst.map Instance.cfg = s.inst.map Instance.cfg)

/-! The ports -/

/-- R52, R56, R160, R168: while a command is in progress what the host offers has no effect, and in a cycle in which it
offers nothing the values of `cmd_op` and `cmd_data` have none; with no command in progress and `rst = 0` such a cycle
changes nothing and produces no response, and the engine is ready.
What the ports show in that cycle is the model's reading (log 9). -/
def Obligations.OffersCountOnlyInTheTransferCycle : Prop :=
  (∀ (s : State) (p q : PinsIn), p.rst = q.rst → (s.inFlight.isSome = true ∨ (p.cmdValid = false ∧ q.cmdValid = false)) →
    cycle p s = cycle q s) ∧
  (∀ (s : State) (i : Instance) (p : PinsIn), s.inst = some i → s.inFlight = none → p.rst = false → p.cmdValid = false →
    ∃ t, cycle p s = .next t ∧ t.inst = s.inst ∧ t.delivered = s.delivered ∧ t.inFlight = none ∧ t.inbox = s.inbox ∧
      t.draws = s.draws ∧ t.pins = { cmdReady := true, rsp := none })

/-- R75: no command is transferred while `rst = 1`, and `cmd_ready = 0`. -/
def Obligations.NoTransferInReset : Prop :=
  ∀ (s t : State) (p : PinsIn), p.rst = true → cycle p s = .next t → t.inFlight = none ∧ t.pins.cmdReady = false

/-- R52, R56, R160, R168: a command transferred at the ports is answered after its finite latency exactly as the command
given as one transaction; until then nothing else is taken, delivered or changed, whatever the host offers, and
`cmd_ready`, 1 in the transfer cycle, is 0 from the cycle after it on. In the cycle that answers, the response port shows
the one response delivered.
The cycles of a command are the model's (log 5, log 9, log 19), and so is the free value that the transfer draws (log 2). -/
def Obligations.PortsRefineTheCommand : Prop :=
  ∀ (s : State) (i : Instance) (p : PinsIn) (ps : List PinsIn) (rest : List HostAction), s.inst = some i →
    i.wf = true → s.inFlight = none → p.rst = false → p.cmdValid = true → p.W = i.cfg.W → (∀ q ∈ ps, q.rst = false) →
    ps.length = Config.latency s.draws + 1 → s.inbox = .cycle p :: (ps.map .cycle ++ rest) →
    (∀ n, 0 < n → n ≤ ps.length → ∃ w k, Host.Core.run Sys2Proof.core n s = .next w ∧ w.inst = s.inst ∧
      w.delivered = s.delivered ∧ w.pins = { cmdReady := decide (n = 1), rsp := none } ∧
      w.inFlight = some ⟨p.W, p.word, k⟩) ∧
    ∃ t u r, exec (decode p.word) { s with inbox := rest, draws := s.draws + 1 } = .next t ∧
      Host.Core.run Sys2Proof.core (ps.length + 1) s = .next u ∧ u.inst = t.inst ∧ u.delivered = t.delivered ∧
      u.draws = t.draws ∧ u.inbox = rest ∧ u.inFlight = none ∧ u.delivered = s.delivered ++ [.response r] ∧ r.W = i.cfg.W ∧
      t.pins = { cmdReady := true, rsp := some r } ∧ u.pins = { cmdReady := false, rsp := some r }

/-- R20, R144: instances side by side are independent: under any schedule each one does exactly what it does alone.
The schedule is the model's (log 18). -/
def Obligations.InstancesAreIndependent : Prop :=
  ∀ (sched : List Nat) (sys sys' : List State), runSystem sched sys = .next sys' →
    sys'.length = sys.length ∧
    ∀ (k : Nat) (s : State), sys[k]? = some s →
      ∃ t, Host.Core.run Sys2Proof.core (sched.count k) s = .next t ∧ sys'[k]? = some t

/-! Index arithmetic (42_numerics.md section 4) -/

/-- R125: `v & (N-1) = v mod N` holds for every integer `v` exactly when `N` is a power of two; with `N = 6` the increment
gives 0, 1, 0 and 3, 4, 5, 4. -/
def Obligations.MaskIsModuloExactlyForPowersOfTwo : Prop :=
  ∀ N : Nat, 1 ≤ N → ((∀ v : Int, (wrap v (maskOf N) : Int) = v % (N : Int)) ↔ ∃ j, N = 2 ^ j) ∧
    nextIndex 0 5 = 1 ∧ nextIndex 1 5 = 0 ∧ nextIndex 3 5 = 4 ∧ nextIndex 4 5 = 5 ∧ nextIndex 5 5 = 4

/-- R124: the rows of the table of results, with the remainder each is equal to. -/
def Obligations.IndexTable : Prop :=
  ∀ j N c k : Nat, N = 2 ^ j → c < N → k < N →
    nextIndex c (maskOf N) = (c + 1) % N ∧ prevIndex c (maskOf N) = (c + N - 1) % N ∧
    (tapSlot c (maskOf N) k : Int) = ((c : Int) - 1 - k) % N ∧
    (c + 1 < N → nextIndex c (maskOf N) = c + 1) ∧ (c + 1 = N → nextIndex c (maskOf N) = 0) ∧
    (0 < c → prevIndex c (maskOf N) = c - 1) ∧ (c = 0 → prevIndex c (maskOf N) = N - 1) ∧
    (k + 1 ≤ c → tapSlot c (maskOf N) k = c - 1 - k) ∧ (c < k + 1 → tapSlot c (maskOf N) k = c + N - 1 - k)

/-- R93: during a PUSH the taps are paired with the slots one to one, the last tap with the slot at the advanced
cursor. -/
def Obligations.TapsPairWithSlotsOneToOne : Prop :=
  ∀ j c : Nat, c < 2 ^ j →
    (∀ k l, k < 2 ^ j → l < 2 ^ j → tapSlot c (maskOf (2 ^ j)) k = tapSlot c (maskOf (2 ^ j)) l → k = l) ∧
    (∀ x, x < 2 ^ j → ∃ k, k < 2 ^ j ∧ tapSlot c (maskOf (2 ^ j)) k = x) ∧
    tapSlot c (maskOf (2 ^ j)) (2 ^ j - 1) = c

/-- R94: a decrement from slot 0 gives `mask`, any other one less; of the `N` decrements of one PUSH from the advanced
cursor `c`, exactly one leaves slot 0, the first (number 0) when `c = 0` and otherwise number `c`, the one for tap `c`. -/
def Obligations.OneWrapPerPush : Prop :=
  ∀ j c : Nat, c < 2 ^ j →
    prevIndex c (maskOf (2 ^ j)) = (if c = 0 then maskOf (2 ^ j) else c - 1) ∧
    ((List.range (2 ^ j)).filter fun k => (fun x => prevIndex x (maskOf (2 ^ j)))^[k] c == 0) = [c]

/-! Numerics (42_numerics.md) -/

/-- R112, in the reference format: the product of two finite words is the exact product rounded once, to nearest with ties
to the even fraction, or an infinity where it is too large; its sign is the exclusive-or of the signs, also for zeros and
infinities; an infinity times a zero is a NaN.
The limit of overflow is PRESUMED (log 17). -/
def Obligations.ProductIsRoundedOnceToNearestEven : Prop :=
  ∀ (k : Nat) (a b : Word Config.binary64.width),
    let finite := fun w => isFinite (.binary Config.binary64) w = true
    let r := (binaryFmt Config.binary64 k).fmul a b
    let p := valueOf a * valueOf b
    (finite a → finite b →
      (|p| < 2 ^ 1024 - 2 ^ 970 → finite r ∧ ∀ c, finite c →
        |valueOf r - p| ≤ |valueOf c - p| ∧
        (valueOf c ≠ valueOf r → |valueOf c - p| = |valueOf r - p| → r.getLsbD 0 = false)) ∧
      (2 ^ 1024 - 2 ^ 970 ≤ |p| → isInf Config.binary64 r = true)) ∧
    (isNaN (.binary Config.binary64) r = false → r.msb = (a.msb != b.msb)) ∧
    (isInf Config.binary64 a = true → isZero Config.binary64 b = true → isNaN (.binary Config.binary64) r = true) ∧
    (isZero Config.binary64 a = true → isInf Config.binary64 b = true → isNaN (.binary Config.binary64) r = true)

/-- R113, in the reference format: the sum of two finite words is the exact sum rounded once, to nearest with ties to the
even fraction, or an infinity of its sign where it is too large; the sum of two infinities of opposite sign is a NaN.
The limit of overflow is PRESUMED (log 17). -/
def Obligations.SumIsRoundedOnceToNearestEven : Prop :=
  ∀ (k : Nat) (a b : Word Config.binary64.width),
    let finite := fun w => isFinite (.binary Config.binary64) w = true
    let r := (binaryFmt Config.binary64 k).fadd a b
    let p := valueOf a + valueOf b
    (finite a → finite b →
      (p ≠ 0 → r.msb = decide (p < 0)) ∧
      (|p| < 2 ^ 1024 - 2 ^ 970 → finite r ∧ ∀ c, finite c →
        |valueOf r - p| ≤ |valueOf c - p| ∧
        (valueOf c ≠ valueOf r → |valueOf c - p| = |valueOf r - p| → r.getLsbD 0 = false)) ∧
      (2 ^ 1024 - 2 ^ 970 ≤ |p| → isInf Config.binary64 r = true)) ∧
    (isInf Config.binary64 a = true → isInf Config.binary64 b = true → a.msb ≠ b.msb →
      isNaN (.binary Config.binary64) r = true)

/-- R112, R117, R118, R120: products of NaNs, infinities and zeros. R112 and R120 speak of the reference configuration, where
binary64 is the format: that every other binary shape has this arithmetic, the sign of its zero products included, is
PRESUMED (log 17, log 1). -/
def Obligations.ProductsOfSpecialValues : Prop :=
  ∀ (f : BinFormat) (k : Nat) (a b : Word f.width), usable f = true →
    let r := (binaryFmt f k).fmul a b
    ((isNaN (.binary f) a = true ∨ isNaN (.binary f) b = true) → isNaN (.binary f) r = true) ∧
    ((isInf f a = true ∧ isZero f b = true ∨ isZero f a = true ∧ isInf f b = true) → isNaN (.binary f) r = true) ∧
    ((isInf f a = true ∧ isNaN (.binary f) b = false ∧ isZero f b = false ∨
        isInf f b = true ∧ isNaN (.binary f) a = false ∧ isZero f a = false) →
      isInf f r = true ∧ r.msb = (a.msb != b.msb)) ∧
    ((isZero f a = true ∧ isFinite (.binary f) b = true ∨ isZero f b = true ∧ isFinite (.binary f) a = true) →
      isZero f r = true ∧ r.msb = (a.msb != b.msb))

/-- R113, R117, R120: sums of NaNs, infinities and zeros. `minus` is the word of the sign bit alone, the negative zero.
That an infinity absorbs is PRESUMED (log 17). R113 and R120 speak of the reference configuration, where binary64 is the
format: that every other binary shape has this arithmetic, its signed zeros and `a + (-a) = +0` included, is PRESUMED
(log 17, log 1). -/
def Obligations.SumsOfSpecialValues : Prop :=
  ∀ (f : BinFormat) (k : Nat) (a b : Word f.width), usable f = true →
    let minus : Word f.width := BitVec.twoPow _ (f.expBits + f.fracBits)
    let r := (binaryFmt f k).fadd a b
    ((isNaN (.binary f) a = true ∨ isNaN (.binary f) b = true) → isNaN (.binary f) r = true) ∧
    (isInf f a = true → isInf f b = true → a.msb ≠ b.msb → isNaN (.binary f) r = true) ∧
    (isInf f a = true → (isFinite (.binary f) b = true ∨ b = a) → r = a ∧ (binaryFmt f k).fadd b a = a) ∧
    (isZero f a = true → isZero f b = true → r = if a.msb && b.msb then minus else 0) ∧
    (isFinite (.binary f) a = true → isZero f a = false → (binaryFmt f k).fadd a (a ^^^ minus) = 0) ∧
    (isFinite (.binary f) a = true → isZero f a = false → isZero f b = true → r = a ∧ (binaryFmt f k).fadd b a = a)

/-- R118, in every binary format: an infinite sample in the window, the one just pushed included, makes the output a NaN
when the tap it meets is a zero, and otherwise the infinity of their signs, as long as the finite part of the sum before it
does not overflow and every later product is finite.
R118 rests on R112 and R113, which speak of the reference configuration: that every other binary shape has this arithmetic
is PRESUMED (log 17, log 1). -/
def Obligations.InfinityInTheWindowGivesItsInfinity : Prop :=
  ∀ (s : State) (f : BinFormat) (taps : Nat) (coeff hist : List (Word f.width)) (cursor j : Nat) (v x c : Word f.width),
    s.inst = some ⟨⟨.binary f, taps, coeff, false⟩, hist, cursor⟩ →
    Instance.wf ⟨⟨.binary f, taps, coeff, false⟩, hist, cursor⟩ = true →
    let F := binaryFmt f s.draws
    let xs := v :: (Instance.window ⟨⟨.binary f, taps, coeff, false⟩, hist, cursor⟩).take (taps - 1)
    xs[j]? = some x → coeff[j]? = some c → isInf f x = true →
    ∃ t y, exec (.push ⟨f.width, v⟩) s = .next t ∧
      t.delivered = s.delivered ++ [.response ⟨f.width, y.setWidth _⟩] ∧
      (isZero f c = true → isNaN (.binary f) y = true) ∧
      (isZero f c = false →
        (0 < j → isFinite (.binary f) (firSum F (xs.take j) (coeff.take j)) = true) →
        (∀ (k : Nat) (x' c' : Word f.width), j < k → xs[k]? = some x' → coeff[k]? = some c' →
          isFinite (.binary f) (F.fmul x' c') = true) →
        isInf f y = true ∧ y.msb = (x.msb != c.msb))

/-- R120: a negative zero pushed after RESET with positive taps: `+0.0` for two taps or more, `-0.0` for one. R120 and V14
speak of the reference configuration, where binary64 is the format: that the same holds in every other binary shape is
PRESUMED (log 17, log 1). -/
def Obligations.NegativeZeroAfterReset : Prop :=
  ∀ (s : State) (f : BinFormat) (taps : Nat) (coeff : List (Word f.width)) (strict : Bool),
    s.inst = some (Instance.fresh ⟨.binary f, taps, coeff, strict⟩) →
    (Instance.fresh ⟨.binary f, taps, coeff, strict⟩).wf = true →
    (∀ c ∈ coeff, c.msb = false ∧ isZero f c = false) →
    let minus : Word f.width := BitVec.twoPow _ (f.expBits + f.fracBits)
    ∃ t hist cursor, exec (.push ⟨f.width, minus⟩) s = .next t ∧
      t.inst = some ⟨⟨.binary f, taps, coeff, strict⟩, hist, cursor⟩ ∧ hist[0]? = some minus ∧
      t.delivered = s.delivered ++ [.response ⟨f.width, if taps = 1 then minus.setWidth _ else 0⟩]

/-- R111, R115, R117: binary arithmetic has the four named properties, in every binary format and so in the reference one;
and so has every format CONSTRUCT takes, at every draw, with its words finite exactly where they are neither an infinity nor
a NaN, and a NaN operand always giving a NaN.
That a format without a shape is bound to these rules and to nothing else is the model's (log 1). -/
def Obligations.BinaryFormatsAreAdmissible : Prop :=
  (∀ (f : BinFormat) (w : Nat) (nan : BitVec w), 2 ≤ f.expBits → 1 ≤ f.fracBits → w = 1 + f.expBits + f.fracBits →
    nanNat f nan.toNat = true →
    Admissible (ieee f w nan) (fun a => valueIn f a) (fun a => nanNat f a.toNat)) ∧
  (∀ (f : Format) (k : Nat), f.admitted = true → Admissible (fmtAt f k) (valueAs f) (isNaN f)) ∧
  (∀ (f : Format) (a : Word f.width), f.admitted = true →
    isFinite f a = (!isInfinity f a && !isNaN f a) ∧ (isInfinity f a = true → isNaN f a = false)) ∧
  (∀ (f : Format) (k : Nat) (a b : Word f.width), f.admitted = true → (isNaN f a = true ∨ isNaN f b = true) →
    isNaN f ((fmtAt f k).fmul a b) = true ∧ isNaN f ((fmtAt f k).fadd a b) = true)

/-- R95 in any number format: the outputs of the ring are the convolution, in the order of R92. -/
def Obligations.AnyFormatConvolves : Prop :=
  ∀ (α : Type) (F : Fmt α) (j : Nat) (coeff xs : List α), coeff.length = 2 ^ j →
    ringOutputs F (2 ^ j) coeff (List.replicate (2 ^ j) F.zero) 0 xs =
      some ((List.range xs.length).map fun m => firSum F (lastSamples F.zero (2 ^ j) xs m) coeff)

/-- R97 in any admissible number format. -/
def Obligations.AnyFormatImpulseResponse : Prop :=
  ∀ (α : Type) (F : Fmt α) (val : α → ℚ) (nan : α → Bool) (j m : Nat) (coeff : List α) (x : α),
    Admissible F val nan → coeff.length = 2 ^ j → (∀ c ∈ coeff, F.isFinite c = true) → F.isFinite x = true →
    ∃ ys, ringOutputs F (2 ^ j) coeff (List.replicate (2 ^ j) F.zero) 0 (x :: List.replicate m F.zero) = some ys ∧
      ys.length = m + 1 ∧ ∀ k y, ys[k]? = some y →
        (∀ c, coeff[k]? = some c → F.isFinite (F.fmul x c) = true →
          (val (F.fmul x c) ≠ 0 → y = F.fmul x c) ∧
          (val (F.fmul x c) = 0 → F.isFinite y = true ∧ val y = 0)) ∧
        (2 ^ j ≤ k → F.isFinite y = true ∧ val y = 0)

/-- R118 as a fact about the sequential sum, in every binary format: one infinity against a non-zero tap makes the sum that
product's infinity, as long as the part before it is finite and every later product is.
That a binary shape other than binary64 has this arithmetic is PRESUMED (log 17, log 1). -/
def Obligations.InfiniteProductMakesTheSumItsInfinity : Prop :=
  ∀ (f : BinFormat) (k : Nat) (before after : List (Word f.width × Word f.width)) (x c : Word f.width), usable f = true →
    isInf f x = true → isFinite (.binary f) c = true → isZero f c = false →
    (before ≠ [] →
      isFinite (.binary f) (firSum (binaryFmt f k) (before.map Prod.fst) (before.map Prod.snd)) = true) →
    (∀ q ∈ after, isFinite (.binary f) ((binaryFmt f k).fmul q.1 q.2) = true) →
    let y := firSum (binaryFmt f k) ((before ++ (x, c) :: after).map Prod.fst) ((before ++ (x, c) :: after).map Prod.snd)
    isInf f y = true ∧ y.msb = (x.msb != c.msb)

/-! Words of another width -/

/-- A sample or a port of another width than the instance's `W` carries no word of `FMT` (R54, R110): the PUSH is refused,
and so is the transfer.
The refusal is the model's (log 20). -/
def Obligations.WordsOfAnotherWidthAreRefused : Prop :=
  ∀ (s : State) (i : Instance) (V : Nat), s.inst = some i → V ≠ i.cfg.W →
    (∀ v : Word V, exec (.push ⟨V, v⟩) s = .refused .wordWidth ∧ exec (.call ⟨V, v⟩) s = .refused .wordWidth) ∧
    (∀ vs : List (Word V), vs ≠ [] → exec (.pushv ⟨V, vs⟩) s = .refused .wordWidth) ∧
    (∀ p : PinsIn, p.W = V → p.rst = false → p.cmdValid = true → s.inFlight = none → cycle p s = .refused .wordWidth)
end

