-- ==== Sys2Proof/Laws/Binary.lean ====
section
/-! SUPPORT. The arithmetic of the binary formats: the fields of a word, that rounding returns a value the format has
(42_numerics.md rule R111, `exact`), and how NaNs propagate (rule R117). -/

namespace Sys2Proof.Laws

open Sys2Proof.Machine

/-- A format this file's lemmas are about: at least two exponent bits and one fraction bit. -/
structure Usable (f : BinFormat) : Prop where
  exp : 2 ≤ f.expBits
  frac : 1 ≤ f.fracBits

theorem usable_iff (f : BinFormat) : usable f = true ↔ Usable f := by
  simp only [usable, Bool.and_eq_true, decide_eq_true_eq]
  exact ⟨fun h => ⟨h.1, h.2⟩, fun h => ⟨h.exp, h.frac⟩⟩

theorem usable_binary64 : Usable Config.binary64 := ⟨by decide, by decide⟩

theorem magOf_lt (f : BinFormat) (x : Nat) : magOf f x < signWeight f := Nat.mod_lt _ (Nat.two_pow_pos _)

theorem fracOf_lt (f : BinFormat) (x : Nat) : fracOf f x < 2 ^ f.fracBits := Nat.mod_lt _ (Nat.two_pow_pos _)

theorem signWeight_eq (f : BinFormat) : signWeight f = 2 ^ f.expBits * 2 ^ f.fracBits := by
  rw [signWeight, Nat.pow_add]

theorem expOf_le (f : BinFormat) (x : Nat) : expOf f x ≤ expMax f := by
  have h : expOf f x < 2 ^ f.expBits := by
    rw [expOf, Nat.div_lt_iff_lt_mul (Nat.two_pow_pos _), ← signWeight_eq]
    exact magOf_lt f x
  unfold expMax
  omega

/-- A magnitude is its exponent field over its fraction field. -/
theorem magOf_eq (f : BinFormat) (x : Nat) : magOf f x = expOf f x * 2 ^ f.fracBits + fracOf f x := by
  have h : fracOf f x = magOf f x % 2 ^ f.fracBits := by
    rw [fracOf, magOf, signWeight, Nat.mod_mod_of_dvd]
    exact Nat.pow_dvd_pow 2 (by omega)
  rw [h, expOf, Nat.mul_comm]
  exact (Nat.div_add_mod _ _).symm

theorem expMax_pos {f : BinFormat} (hf : Usable f) : 1 ≤ expMax f := by
  have := Nat.pow_le_pow_right (n := 2) (by omega) hf.exp
  unfold expMax
  omega

theorem infMag_lt (f : BinFormat) : infMag f + 2 ^ f.fracBits = signWeight f := by
  have h : 1 ≤ 2 ^ f.expBits := Nat.two_pow_pos _
  rw [signWeight_eq, infMag, expMax, Nat.sub_mul]
  have : 2 ^ f.fracBits ≤ 2 ^ f.expBits * 2 ^ f.fracBits := Nat.le_mul_of_pos_left _ h
  omega

/-- The three classes of words are exclusive and cover all (rule R115). -/
theorem finite_or (f : BinFormat) (x : Nat) :
    (finiteNat f x = true ∧ infNat f x = false ∧ nanNat f x = false) ∨
    (finiteNat f x = false ∧ infNat f x = true ∧ nanNat f x = false) ∨
    (finiteNat f x = false ∧ infNat f x = false ∧ nanNat f x = true) := by
  unfold finiteNat infNat nanNat
  by_cases h1 : expOf f x = expMax f <;> by_cases h2 : fracOf f x = 0 <;> simp [h1, h2]

theorem finiteNat_iff (f : BinFormat) (x : Nat) : finiteNat f x = true ↔ expOf f x < expMax f := by
  have := expOf_le f x
  simp only [finiteNat, bne_iff_ne, ne_eq]
  omega

/-- The fields of a word put together from a sign and a magnitude. -/
theorem magOf_packSign {f : BinFormat} {m : Nat} (b : Bool) (hm : m < signWeight f) : magOf f (packSign f b m) = m := by
  unfold magOf packSign
  cases b <;> simp [Nat.mod_eq_of_lt hm]

theorem signOf_packSign {f : BinFormat} {m : Nat} (b : Bool) (hm : m < signWeight f) : signOf f (packSign f b m) = b := by
  unfold signOf packSign
  unfold signWeight at hm ⊢
  cases b
  · simp [Nat.testBit_lt_two_pow hm]
  · simp [Nat.testBit_two_pow_add_eq, Nat.testBit_lt_two_pow hm]

theorem packSign_lt {f : BinFormat} {m : Nat} (b : Bool) (hm : m < signWeight f) :
    packSign f b m < 2 ^ (1 + f.expBits + f.fracBits) := by
  have h2 : 2 ^ (1 + f.expBits + f.fracBits) = 2 * signWeight f := by
    rw [signWeight, Nat.add_assoc, Nat.pow_add, Nat.pow_one]
  rw [h2]
  unfold packSign
  cases b <;> simp <;> omega

theorem fracOf_packSign {f : BinFormat} {m : Nat} (b : Bool) (hm : m < signWeight f) :
    fracOf f (packSign f b m) = m % 2 ^ f.fracBits := by
  have h : fracOf f (packSign f b m) = magOf f (packSign f b m) % 2 ^ f.fracBits := by
    rw [fracOf, magOf, signWeight, Nat.mod_mod_of_dvd]
    exact Nat.pow_dvd_pow 2 (by omega)
  rw [h, magOf_packSign b hm]

/-- A word is its sign and its magnitude. -/
theorem packSign_self {f : BinFormat} {x : Nat} (hx : x < 2 ^ (1 + f.expBits + f.fracBits)) :
    packSign f (signOf f x) (magOf f x) = x := by
  have h2 : 2 ^ (1 + f.expBits + f.fracBits) = 2 * signWeight f := by
    rw [signWeight, Nat.add_assoc, Nat.pow_add, Nat.pow_one]
  rw [h2] at hx
  have hs : signOf f x = decide (signWeight f ≤ x) := by
    rw [signOf, Nat.testBit_eq_decide_div_mod_eq, ← signWeight]
    have hpos : 0 < signWeight f := Nat.two_pow_pos _
    by_cases h : signWeight f ≤ x
    · have : x / signWeight f = 1 := Nat.div_eq_of_lt_le (by omega) (by omega)
      simp [this, h]
    · have : x / signWeight f = 0 := Nat.div_eq_of_lt (by omega)
      simp [this, h]
  unfold packSign magOf
  rw [hs]
  by_cases h : signWeight f ≤ x
  · simp only [h, decide_true, if_true]
    rw [Nat.mod_eq_sub_mod h, Nat.mod_eq_of_lt (by omega)]
    omega
  · simp only [h, decide_false, Bool.false_eq_true, if_false]
    rw [Nat.mod_eq_of_lt (by omega)]
    omega

/-- Rounding a value the format has returns it (rule R111, `exact`). -/
theorem roundMag_unitsOf {f : BinFormat} {x : Nat} (hx : finiteNat f x = true) (scale : Nat) :
    roundMag f (unitsOf f x * 2 ^ scale) scale = magOf f x := by
  have he := (finiteNat_iff f x).mp hx
  have hfrac := fracOf_lt f x
  have hmag := magOf_eq f x
  have hle : magOf f x ≤ infMag f := by
    have h1 : (expOf f x + 1) * 2 ^ f.fracBits ≤ expMax f * 2 ^ f.fracBits := Nat.mul_le_mul_right _ he
    rw [Nat.add_mul, Nat.one_mul] at h1
    unfold infMag
    omega
  have hexact : ∀ sig q, sig * 2 ^ q / 2 ^ q = sig ∧ sig * 2 ^ q % 2 ^ q = 0 := fun sig q =>
    ⟨Nat.mul_div_cancel _ (Nat.two_pow_pos q), Nat.mul_mod_left _ _⟩
  have hround : ∀ sig q, q = max scale ((sig * 2 ^ q).log2 - f.fracBits) →
      roundMag f (sig * 2 ^ q) scale = min ((q - scale) * 2 ^ f.fracBits + sig) (infMag f) := by
    intro sig q hq
    unfold roundMag
    rw [← hq]
    have hpos : 0 < 2 ^ q := Nat.two_pow_pos q
    simp [(hexact sig q).1, (hexact sig q).2]
  by_cases h0 : expOf f x = 0
  · have hu : unitsOf f x = fracOf f x := by simp [unitsOf, h0]
    have hlog : (fracOf f x * 2 ^ scale).log2 ≤ f.fracBits + scale := by
      by_cases hz : fracOf f x = 0
      · simp [hz]
      · have hlt : fracOf f x * 2 ^ scale < 2 ^ (f.fracBits + scale) := by
          rw [Nat.pow_add]
          exact Nat.mul_lt_mul_of_pos_right hfrac (Nat.two_pow_pos _)
        have := (Nat.log2_lt (by positivity)).mpr hlt
        omega
    rw [hu, hround _ _ (by omega)]
    rw [h0] at hmag
    simp only [Nat.sub_self, Nat.zero_mul, Nat.zero_add] at hmag ⊢
    omega
  · have hu : unitsOf f x * 2 ^ scale = (2 ^ f.fracBits + fracOf f x) * 2 ^ (expOf f x - 1 + scale) := by
      rw [unitsOf, if_neg h0, Nat.pow_add, Nat.mul_assoc]
    have hlog : ((2 ^ f.fracBits + fracOf f x) * 2 ^ (expOf f x - 1 + scale)).log2 =
        f.fracBits + (expOf f x - 1 + scale) := by
      rw [Nat.log2_eq_iff (by positivity)]
      constructor
      · rw [Nat.pow_add]
        exact Nat.mul_le_mul_right _ (by omega)
      · rw [show f.fracBits + (expOf f x - 1 + scale) + 1 = f.fracBits + 1 + (expOf f x - 1 + scale) by omega,
          Nat.pow_add 2 (f.fracBits + 1)]
        apply Nat.mul_lt_mul_of_pos_right _ (Nat.two_pow_pos _)
        rw [Nat.pow_succ]
        omega
    rw [hu, hround _ _ (by rw [hlog]; omega)]
    rw [show expOf f x - 1 + scale - scale = expOf f x - 1 by omega]
    have : expOf f x * 2 ^ f.fracBits = (expOf f x - 1) * 2 ^ f.fracBits + 2 ^ f.fracBits := by
      conv_lhs => rw [show expOf f x = (expOf f x - 1) + 1 by omega]
      rw [Nat.add_mul, Nat.one_mul]
    omega

theorem roundMag_le (f : BinFormat) (k scale : Nat) : roundMag f k scale ≤ infMag f := Nat.min_le_right _ _

theorem infMag_lt_signWeight (f : BinFormat) : infMag f < signWeight f := by
  have := infMag_lt f
  have := Nat.two_pow_pos f.fracBits
  omega

theorem expOf_packSign {f : BinFormat} {m : Nat} (b : Bool) (hm : m < signWeight f) :
    expOf f (packSign f b m) = m / 2 ^ f.fracBits := by
  rw [expOf, magOf_packSign b hm]

/-- `asNaN` gives a NaN. -/
theorem nanNat_asNaN {f : BinFormat} (hf : Usable f) (x : Nat) : nanNat f (asNaN f x) = true := by
  have hlt : ∀ r, r < 2 ^ f.fracBits → infMag f + r < signWeight f := by
    intro r hr
    have := infMag_lt f
    omega
  have key : ∀ b r, r < 2 ^ f.fracBits → r ≠ 0 → nanNat f (packSign f b (infMag f + r)) = true := by
    intro b r hr h0
    unfold nanNat
    rw [expOf_packSign b (hlt r hr), fracOf_packSign b (hlt r hr)]
    unfold infMag
    rw [Nat.mul_comm, Nat.mul_add_div (Nat.two_pow_pos _), Nat.mul_add_mod, Nat.div_eq_of_lt hr, Nat.mod_eq_of_lt hr]
    simp [h0]
  unfold asNaN
  by_cases h : fracOf f x = 0
  · rw [if_pos h]
    apply key
    · exact Nat.pow_lt_pow_right (by omega) (by have := hf.frac; omega)
    · exact (Nat.two_pow_pos _).ne'
  · rw [if_neg h]
    exact key _ _ (fracOf_lt f x) h

theorem asNaN_lt {f : BinFormat} (hf : Usable f) (x : Nat) : asNaN f x < 2 ^ (1 + f.expBits + f.fracBits) := by
  unfold asNaN
  apply packSign_lt
  have h1 := infMag_lt f
  have h2 := fracOf_lt f x
  have h3 : 2 ^ (f.fracBits - 1) < 2 ^ f.fracBits := Nat.pow_lt_pow_right (by omega) (by have := hf.frac; omega)
  split <;> omega

/-- The free NaN is a NaN (rule R117). -/
theorem isNaN_nanWord {f : BinFormat} (hf : Usable f) (k : Nat) : isNaN (.binary f) (nanWord f k) = true := by
  change nanNat f (nanWord f k).toNat = true
  unfold nanWord
  rw [BitVec.toNat_ofNat, Nat.mod_eq_of_lt (asNaN_lt hf _)]
  exact nanNat_asNaN hf _

/-- `asFinite` gives a finite word. -/
theorem finiteNat_asFinite {f : BinFormat} (hf : Usable f) (x : Nat) : finiteNat f (asFinite f x) = true := by
  unfold asFinite
  split
  · assumption
  · next h =>
    have hle := expOf_le f x
    have heq : expOf f x = expMax f := by
      have := (finiteNat_iff f x).not.mp h
      omega
    have hpos := expMax_pos hf
    have hmag : magOf f x = expMax f * 2 ^ f.fracBits + fracOf f x := by rw [magOf_eq, heq]
    have hsplit : expMax f * 2 ^ f.fracBits = (expMax f - 1) * 2 ^ f.fracBits + 2 ^ f.fracBits := by
      conv_lhs => rw [show expMax f = (expMax f - 1) + 1 by omega]
      rw [Nat.add_mul, Nat.one_mul]
    have hge : 2 ^ f.fracBits ≤ magOf f x := by omega
    have hxm : magOf f (x - 2 ^ f.fracBits) = magOf f x - 2 ^ f.fracBits := by
      have hx := Nat.div_add_mod x (signWeight f)
      have hm := magOf_lt f x
      unfold magOf at hge hm ⊢
      rw [show x - 2 ^ f.fracBits = signWeight f * (x / signWeight f) + (x % signWeight f - 2 ^ f.fracBits) by
        rw [← Nat.add_sub_assoc hge, hx], Nat.mul_add_mod,
        Nat.mod_eq_of_lt (Nat.lt_of_le_of_lt (Nat.sub_le _ _) hm)]
    rw [finiteNat_iff, expOf, hxm, Nat.div_lt_iff_lt_mul (Nat.two_pow_pos _)]
    have := fracOf_lt f x
    omega

theorem asFinite_le (f : BinFormat) (x : Nat) : asFinite f x ≤ x := by
  unfold asFinite
  split
  · exact le_refl _
  · exact Nat.sub_le _ _

/-- The taps of the reset state are finite (rule R121). -/
theorem isFinite_resetTap (k : Nat) : isFinite Config.resetFormat (resetTap k) = true := by
  change finiteNat Config.binary64 (resetTap k).toNat = true
  unfold resetTap
  rw [BitVec.toNat_ofNat, Nat.mod_eq_of_lt (lt_of_le_of_lt (asFinite_le _ _) (Config.freeTap k).isLt)]
  exact finiteNat_asFinite usable_binary64 _

/-- No draw decides what is finite (rule R115). -/
@[simp] theorem fmtAt_isFinite (f : Format) (k : Nat) (w : Word f.width) : (fmtAt f k).isFinite w = isFinite f w := by
  cases f <;> rfl

/-- No draw decides what the zero is (rule R114). -/
@[simp] theorem fmtAt_zero (f : Format) (k : Nat) : (fmtAt f k).zero = zeroWord f := by
  cases f <;> rfl

/-- The zero of every format is finite (rule R115); that of a binary format has all bits zero (rule R114). -/
theorem isFinite_zeroWord {f : Format} (hf : f.admitted = true) : isFinite f (zeroWord f) = true := by
  cases f with
  | binary shape =>
    change finiteNat shape (0 : Word shape.width).toNat = true
    rw [finiteNat_iff]
    have := expMax_pos ((usable_iff shape).mp hf)
    simp [expOf, magOf]
    omega
  | other W number => exact (otherFormat W number).admissible.zero_is_zero.1

@[simp] theorem zeroWord_binary (f : BinFormat) : zeroWord (.binary f) = 0 := rfl

/-- A product with a NaN operand is the draw's NaN (rule R117). -/
theorem fmul_nan {f : BinFormat} {k : Nat} {a b : Word f.width}
    (h : isNaN (.binary f) a = true ∨ isNaN (.binary f) b = true) : (binaryFmt f k).fmul a b = nanWord f k := by
  have hn : (nanNat f a.toNat || nanNat f b.toNat) = true := by
    simpa [isNaN] using h
  simp only [binaryFmt, ieee, mulNat, hn, if_true, BitVec.ofNat_toNat, BitVec.setWidth_eq]

/-- A sum with a NaN operand is the draw's NaN (rule R117). -/
theorem fadd_nan {f : BinFormat} {k : Nat} {a b : Word f.width}
    (h : isNaN (.binary f) a = true ∨ isNaN (.binary f) b = true) : (binaryFmt f k).fadd a b = nanWord f k := by
  have hn : (nanNat f a.toNat || nanNat f b.toNat) = true := by
    simpa [isNaN] using h
  simp only [binaryFmt, ieee, addNat, hn, if_true, BitVec.ofNat_toNat, BitVec.setWidth_eq]

/-! Formats known by their number. -/

@[simp] theorem someNaN_isNaN {W : Nat} (F : NumberFormat W) (k : Nat) (r : Word W) :
    F.isNaN (NumberFormat.someNaN F k r) = F.isNaN r := by
  unfold NumberFormat.someNaN
  split <;> simp_all

/-- A result that is no NaN is the format's own. -/
theorem someNaN_of_not_nan {W : Nat} {F : NumberFormat W} {r : Word W} (k : Nat) (h : F.isNaN r = false) :
    NumberFormat.someNaN F k r = r := by
  simp [NumberFormat.someNaN, h]

/-- A finite word is no NaN (rule R115). -/
theorem not_nan_of_finite {W : Nat} {F : NumberFormat W} {r : Word W} (h : F.arith.isFinite r = true) :
    F.isNaN r = false := by
  cases hn : F.isNaN r with
  | false => rfl
  | true => exact absurd h (by simp [F.admissible.nan_not_finite r hn])

@[simp] theorem someNaN_of_finite {W : Nat} {F : NumberFormat W} {r : Word W} (k : Nat)
    (h : F.arith.isFinite r = true) : NumberFormat.someNaN F k r = r :=
  someNaN_of_not_nan k (not_nan_of_finite h)

/-- The draw of a NaN takes nothing from what an admissible format is (rule R111). -/
theorem admissible_otherFmt (W number k : Nat) :
    Admissible (otherFmt W number k) (otherFormat W number).value (otherFormat W number).isNaN := by
  have A := (otherFormat W number).admissible
  refine ⟨A.zero_is_zero, A.nan_not_finite, fun a b r ha hb hr h => ?_, fun a b r ha hb hr h => ?_, fun z c hz hv hc => ?_,
    fun a z ha hv hz h0 => ?_, fun z z' hz hv hz' hv' => ?_, fun a b ha hb => ?_⟩
  · have e := A.exact_mul a b r ha hb hr h
    simpa [otherFmt, e.1] using e
  · have e := A.exact_add a b r ha hb hr h
    simpa [otherFmt, e.1] using e
  · have e := A.zero_mul z c hz hv hc
    simpa [otherFmt, e.1] using e
  · have e := A.zero_add a z ha hv hz h0
    have ha' : (otherFormat W number).arith.isFinite a = true := ha
    simp [otherFmt, e.1, e.2, ha']
  · have e := A.zero_add_zero z z' hz hv hz' hv'
    simpa [otherFmt, e.1] using e
  · simpa [otherFmt] using A.finite_closed_or_overflow a b ha hb

/-- A product with a NaN operand is a NaN, in every format (rule R117). -/
theorem isNaN_fmul {f : Format} (hf : f.admitted = true) {k : Nat} {a b : Word f.width}
    (h : isNaN f a = true ∨ isNaN f b = true) : isNaN f ((fmtAt f k).fmul a b) = true := by
  cases f with
  | binary shape => rw [fmtAt, fmul_nan h]; exact isNaN_nanWord ((usable_iff shape).mp hf) k
  | other W number =>
    exact (someNaN_isNaN _ _ _).trans ((otherFormat W number).nan_mul a b h)

/-- A sum with a NaN operand is a NaN, in every format (rule R117). -/
theorem isNaN_fadd {f : Format} (hf : f.admitted = true) {k : Nat} {a b : Word f.width}
    (h : isNaN f a = true ∨ isNaN f b = true) : isNaN f ((fmtAt f k).fadd a b) = true := by
  cases f with
  | binary shape => rw [fmtAt, fadd_nan h]; exact isNaN_nanWord ((usable_iff shape).mp hf) k
  | other W number =>
    exact (someNaN_isNaN _ _ _).trans ((otherFormat W number).nan_add a b h)

end Sys2Proof.Laws
end

