-- ==== Sys2Proof/Laws/Index.lean ====
section
/-! SUPPORT. Index arithmetic: the bitmask is a modulo for a power of two (42_numerics.md rule R124). -/

namespace Sys2Proof.Laws

open Sys2Proof.Machine

theorem isPowerOfTwo_iff (n : Nat) : isPowerOfTwo n = true ↔ ∃ j, n = 2 ^ j := by
  constructor
  · intro h
    exact ⟨n.log2, (beq_iff_eq.mp h).symm⟩
  · rintro ⟨j, rfl⟩
    simp [isPowerOfTwo, Nat.log2_two_pow]

theorem isPowerOfTwo_pos {n : Nat} (h : isPowerOfTwo n = true) : 0 < n := by
  obtain ⟨j, rfl⟩ := (isPowerOfTwo_iff n).mp h
  exact Nat.two_pow_pos j

/-- `v & (2^j - 1) = v mod 2^j` for every integer `v`. -/
theorem wrap_two_pow (v : Int) (j : Nat) : (wrap v (2 ^ j - 1) : Int) = v % (2 ^ j : Nat) := by
  have hp : (0 : Nat) < 2 ^ j := Nat.two_pow_pos j
  cases v with
  | ofNat a =>
    simp only [wrap, Nat.and_two_pow_sub_one_eq_mod]
    rfl
  | negSucc a =>
    have hlt : a % 2 ^ j < 2 ^ j := Nat.mod_lt _ hp
    have hx : (2 ^ j - 1) ^^^ (a % 2 ^ j) = 2 ^ j - 1 - a % 2 ^ j := by
      apply Nat.eq_of_testBit_eq
      intro i
      have h1 := Nat.testBit_two_pow_sub_succ hlt i
      rw [show 2 ^ j - 1 - a % 2 ^ j = 2 ^ j - (a % 2 ^ j + 1) by omega, h1, Nat.testBit_xor,
        Nat.testBit_two_pow_sub_one]
      by_cases hi : i < j
      · simp [hi]
      · simp [hi, Nat.testBit_mod_two_pow]
    simp only [wrap, Nat.and_two_pow_sub_one_eq_mod, hx]
    have hdiv := Nat.div_add_mod a (2 ^ j)
    rw [Int.negSucc_emod _ (by exact_mod_cast hp)]
    have hcast : ((a : Int) % ((2 ^ j : Nat) : Int)) = ((a % 2 ^ j : Nat) : Int) := by norm_cast
    rw [hcast]
    omega

theorem wrap_lt {taps : Nat} (h : isPowerOfTwo taps = true) (v : Int) : wrap v (maskOf taps) < taps := by
  obtain ⟨j, rfl⟩ := (isPowerOfTwo_iff taps).mp h
  have hw := wrap_two_pow v j
  have hp : (0 : Int) < ((2 ^ j : Nat) : Int) := by exact_mod_cast Nat.two_pow_pos j
  have := Int.emod_lt_of_pos v hp
  unfold maskOf
  omega

theorem wrap_eq_mod {taps : Nat} (h : isPowerOfTwo taps = true) (v : Int) :
    (wrap v (maskOf taps) : Int) = v % (taps : Int) := by
  obtain ⟨j, rfl⟩ := (isPowerOfTwo_iff taps).mp h
  exact wrap_two_pow v j

theorem nextIndex_eq {taps c : Nat} (h : isPowerOfTwo taps = true) :
    nextIndex c (maskOf taps) = (c + 1) % taps := by
  have := wrap_eq_mod h ((c : Int) + 1)
  unfold nextIndex
  have h2 : ((c : Int) + 1) % (taps : Int) = (((c + 1) % taps : Nat) : Int) := by norm_cast
  omega

theorem nextIndex_lt {taps : Nat} (h : isPowerOfTwo taps = true) (c : Nat) :
    nextIndex c (maskOf taps) < taps := wrap_lt h _

/-- The walk's next slot: one step back from tap `k`'s slot is tap `k+1`'s. -/
theorem prevIndex_tapSlot {taps : Nat} (h : isPowerOfTwo taps = true) (c k : Nat) :
    prevIndex (tapSlot c (maskOf taps) k) (maskOf taps) = tapSlot c (maskOf taps) (k + 1) := by
  have h1 := wrap_eq_mod h ((c : Int) - 1 - (k : Int))
  have h2 := wrap_eq_mod h ((tapSlot c (maskOf taps) k : Int) - 1)
  have h3 := wrap_eq_mod h ((c : Int) - 1 - ((k + 1 : Nat) : Int))
  unfold prevIndex
  have : ((wrap ((tapSlot c (maskOf taps) k : Int) - 1) (maskOf taps) : Nat) : Int)
      = (wrap ((c : Int) - 1 - ((k + 1 : Nat) : Int)) (maskOf taps) : Nat) := by
    rw [h2, h3]
    unfold tapSlot
    rw [h1, Int.emod_sub_emod]
    congr 1
    push_cast
    ring
  exact_mod_cast this

/-- One step back from the advanced cursor is tap 0's slot. -/
theorem prevIndex_eq_tapSlot_zero (c mask : Nat) : prevIndex c mask = tapSlot c mask 0 := by
  simp [prevIndex, tapSlot]

/-- The slot just behind the advanced cursor is the one the cursor named before. -/
theorem tapSlot_next_zero {taps c : Nat} (h : isPowerOfTwo taps = true) (hc : c < taps) :
    tapSlot (nextIndex c (maskOf taps)) (maskOf taps) 0 = c := by
  have h1 := wrap_eq_mod h ((nextIndex c (maskOf taps) : Int) - 1 - ((0 : Nat) : Int))
  have h2 : (nextIndex c (maskOf taps) : Int) = ((c : Int) + 1) % (taps : Int) := by
    rw [nextIndex_eq h]; norm_cast
  unfold tapSlot
  rw [h2, Int.sub_sub, Int.emod_sub_emod] at h1
  have h3 : ((c : Int) + 1 - (1 + ((0 : Nat) : Int))) % (taps : Int) = (c : Int) := by
    rw [show (c : Int) + 1 - (1 + ((0 : Nat) : Int)) = (c : Int) by push_cast; ring]
    exact Int.emod_eq_of_lt (by omega) (by omega)
  rw [h3] at h1
  rw [h2, Int.sub_sub]
  exact_mod_cast h1

/-- Tap `k+1` after the advance has tap `k`'s slot from before it. -/
theorem tapSlot_next_succ {taps : Nat} (h : isPowerOfTwo taps = true) (c k : Nat) :
    tapSlot (nextIndex c (maskOf taps)) (maskOf taps) (k + 1) = tapSlot c (maskOf taps) k := by
  have h1 := wrap_eq_mod h ((nextIndex c (maskOf taps) : Int) - 1 - ((k + 1 : Nat) : Int))
  have h0 := wrap_eq_mod h ((c : Int) - 1 - (k : Int))
  have h2 : (nextIndex c (maskOf taps) : Int) = ((c : Int) + 1) % (taps : Int) := by
    rw [nextIndex_eq h]; norm_cast
  have : ((tapSlot (nextIndex c (maskOf taps)) (maskOf taps) (k + 1) : Nat) : Int)
      = (tapSlot c (maskOf taps) k : Nat) := by
    unfold tapSlot
    rw [h1, h0, h2, Int.sub_sub, Int.emod_sub_emod]
    congr 1
    push_cast
    ring
  exact_mod_cast this

/-- Before the advance no tap but the last has the cursor's own slot. -/
theorem tapSlot_ne_cursor {taps c k : Nat} (h : isPowerOfTwo taps = true) (hk : k + 1 < taps) :
    tapSlot c (maskOf taps) k ≠ c := by
  have h0 := wrap_eq_mod h ((c : Int) - 1 - (k : Int))
  intro he
  have he' : ((c : Int) - 1 - (k : Int)) % (taps : Int) = (c : Int) := by
    rw [← h0]; exact_mod_cast he
  have hd := Int.emod_add_mul_ediv ((c : Int) - 1 - (k : Int)) (taps : Int)
  rw [he'] at hd
  have hq : (taps : Int) * (((c : Int) - 1 - (k : Int)) / (taps : Int)) = -1 - (k : Int) := by omega
  have hq0 : ((c : Int) - 1 - (k : Int)) / (taps : Int) < 0 := by
    by_contra hneg
    have : 0 ≤ (taps : Int) * (((c : Int) - 1 - (k : Int)) / (taps : Int)) :=
      Int.mul_nonneg (by omega) (by omega)
    omega
  have : (taps : Int) * (((c : Int) - 1 - (k : Int)) / (taps : Int)) ≤ (taps : Int) * (-1) :=
    Int.mul_le_mul_of_nonneg_left (by omega) (by omega)
  omega

end Sys2Proof.Laws
end

