-- ==== Sys2Proof/Laws/Ring.lean ====
section
/-! SUPPORT. The ring of any number format: what one PUSH does to it (41_push.md rules R90, R92, R93) and to its window
(10_state.md rule R15). -/

namespace Sys2Proof.Laws

open Sys2Proof.Machine

variable {α : Type}

theorem memRead_lt (z : α) {mem : List α} {i : Nat} (h : i < mem.length) : memRead mem i = some (mem.getD i z) := by
  simp [memRead, List.getD_eq_getElem?_getD, h]

theorem memWrite_lt {mem : List α} {i : Nat} (h : i < mem.length) (v : α) : memWrite mem i v = some (mem.set i v) := by
  simp [memWrite, h]

/-- A write keeps the number of words (20_memory.md rule R39). -/
theorem memWrite_length {mem mem' : List α} {i : Nat} {v : α} (h : memWrite mem i v = some mem') :
    mem'.length = mem.length := by
  unfold memWrite at h
  split at h
  · cases h; simp
  · cases h

/-- The read of the slot just written. -/
theorem memRead_memWrite_same {mem mem' : List α} {i : Nat} {v : α} (h : memWrite mem i v = some mem') :
    memRead mem' i = some v := by
  unfold memWrite at h
  split at h
  · cases h; simp [memRead, *]
  · cases h

/-- A write leaves every other slot alone (41_push.md rule R87). -/
theorem memRead_memWrite_other {mem mem' : List α} {i j : Nat} {v : α} (h : memWrite mem i v = some mem')
    (hij : i ≠ j) : memRead mem' j = memRead mem j := by
  unfold memWrite at h
  split at h
  · cases h; simp [memRead, List.getElem?_set_ne hij]
  · cases h

/-- The walk from tap `k+1` on is the running sum over the remaining slots and taps. -/
theorem macWalk_eq (F : Fmt α) (z : α) {taps : Nat} (hp : isPowerOfTwo taps = true) {hist coeff : List α}
    (hh : hist.length = taps) (hcf : coeff.length = taps) (c : Nat) :
    ∀ (left k : Nat) (acc : α), k + 1 + left = taps →
      macWalk F hist coeff (maskOf taps) left (tapSlot c (maskOf taps) k) (k + 1) acc =
        some (dotFrom F acc
          ((List.range' (k + 1) left).map fun j => hist.getD (tapSlot c (maskOf taps) j) z) (coeff.drop (k + 1))) := by
  intro left
  induction left with
  | zero =>
    intro k acc hk
    simp [macWalk, dotFrom]
  | succ left ih =>
    intro k acc hk
    have hslot : tapSlot c (maskOf taps) (k + 1) < hist.length := by
      rw [hh]; exact wrap_lt hp _
    have hk1 : k + 1 < coeff.length := by omega
    rw [macWalk, prevIndex_tapSlot hp, memRead_lt z hslot, memRead_lt z hk1]
    simp only
    rw [ih (k + 1) _ (by omega), List.range'_succ, List.map_cons, List.drop_eq_getElem_cons hk1, dotFrom]
    simp [List.getD_eq_getElem?_getD, hk1]

/-- One accepted PUSH on a well-formed ring: the slot at the cursor written, the cursor advanced, the output the
sequential sum over the new window. -/
theorem pushRing_done (F : Fmt α) (z : α) {strict : Bool} {taps : Nat} (hp : isPowerOfTwo taps = true)
    {hist coeff : List α} (hh : hist.length = taps) (hcf : coeff.length = taps) {c : Nat} (hc : c < taps) {s : α}
    (hr : rejects F strict s = false) :
    pushRing F strict taps coeff hist c s =
      .done (hist.set c s) (nextIndex c (maskOf taps))
        (firSum F (ringWindow z taps (hist.set c s) (nextIndex c (maskOf taps))) coeff) := by
  have h0 : 0 < coeff.length := by omega
  have hslot0 := tapSlot_next_zero hp hc
  have hwalk := macWalk_eq F z hp (hist := hist.set c s) (coeff := coeff) (by simpa using hh) hcf
    (nextIndex c (maskOf taps)) (taps - 1) 0 (F.fmul s (coeff.getD 0 z)) (by omega)
  unfold pushRing
  rw [hr, memWrite_lt (by omega), memRead_lt z h0]
  simp only [Bool.false_eq_true, if_false]
  rw [prevIndex_eq_tapSlot_zero, hwalk]
  have hrange : List.range taps = 0 :: List.range' 1 (taps - 1) := by
    rw [List.range_eq_range']
    conv_lhs => rw [show taps = (taps - 1) + 1 by omega]
    rw [List.range'_succ]
  have hnew : (hist.set c s).getD c z = s := by
    simp [List.getD_eq_getElem?_getD, hh, hc]
  simp only [ringWindow, hrange, List.map_cons, hslot0, hnew]
  conv_rhs => rw [← List.drop_zero (l := coeff), List.drop_eq_getElem_cons h0]
  simp [firSum, List.getD_eq_getElem?_getD, h0]

/-- The window after a PUSH: the sample in front, the oldest gone. -/
theorem ringWindow_push (z : α) {taps : Nat} (hp : isPowerOfTwo taps = true) {hist : List α} (hh : hist.length = taps)
    {c : Nat} (hc : c < taps) (s : α) :
    ringWindow z taps (hist.set c s) (nextIndex c (maskOf taps)) = s :: (ringWindow z taps hist c).take (taps - 1) := by
  have hslot0 := tapSlot_next_zero hp hc
  have hnew : (hist.set c s).getD c z = s := by
    simp [List.getD_eq_getElem?_getD, hh, hc]
  have hrange : List.range taps = 0 :: (List.range (taps - 1)).map (· + 1) := by
    conv_lhs => rw [show taps = (taps - 1) + 1 by omega]
    rw [List.range_succ_eq_map]
  have htake : (ringWindow z taps hist c).take (taps - 1) =
      (List.range (taps - 1)).map fun j => hist.getD (tapSlot c (maskOf taps) j) z := by
    simp [ringWindow, ← List.map_take, List.take_range]
  rw [htake, ringWindow, hrange, List.map_cons, List.map_map, hslot0, hnew]
  congr 1
  apply List.map_congr_left
  intro k hk
  have hk' : k + 1 < taps := by
    have := List.mem_range.mp hk
    omega
  simp only [Function.comp, tapSlot_next_succ hp]
  have hne := tapSlot_ne_cursor (c := c) hp hk'
  simp [List.getD_eq_getElem?_getD, List.getElem?_set_ne (Ne.symm hne)]

theorem ringWindow_length (z : α) (taps : Nat) (hist : List α) (c : Nat) : (ringWindow z taps hist c).length = taps := by
  simp [ringWindow]

/-- A cleared ring's window is all zeros, wherever the cursor stands. -/
theorem ringWindow_replicate (z : α) {taps : Nat} (c : Nat) :
    ringWindow z taps (List.replicate taps z) c = List.replicate taps z := by
  apply List.ext_getElem
  · simp [ringWindow]
  · intro i h1 h2
    simp [ringWindow, List.getD_eq_getElem?_getD, List.getElem?_replicate]
    split <;> rfl

end Sys2Proof.Laws
end

