-- ==== Sys2Proof/Laws/State.lean ====
section
/-! SUPPORT. What each update of State leaves and changes, field by field. -/

namespace Sys2Proof.Laws

open Sys2Proof.Machine

@[simp] theorem deliver_inst (d : Delivery) (s : State) : (deliver d s).inst = s.inst := rfl
@[simp] theorem deliver_pins (d : Delivery) (s : State) : (deliver d s).pins = s.pins := rfl
@[simp] theorem deliver_inFlight (d : Delivery) (s : State) : (deliver d s).inFlight = s.inFlight := rfl
@[simp] theorem deliver_inbox (d : Delivery) (s : State) : (deliver d s).inbox = s.inbox := rfl
@[simp] theorem deliver_delivered (d : Delivery) (s : State) : (deliver d s).delivered = s.delivered ++ [d] := rfl
@[simp] theorem deliver_draws (d : Delivery) (s : State) : (deliver d s).draws = s.draws := rfl

@[simp] theorem respond_inst (r : Response) (s : State) : (respond r s).inst = s.inst := rfl
@[simp] theorem respond_pins (r : Response) (s : State) : (respond r s).pins = ⟨true, some r⟩ := rfl
@[simp] theorem respond_inFlight (r : Response) (s : State) : (respond r s).inFlight = s.inFlight := rfl
@[simp] theorem respond_inbox (r : Response) (s : State) : (respond r s).inbox = s.inbox := rfl
@[simp] theorem respond_delivered (r : Response) (s : State) :
    (respond r s).delivered = s.delivered ++ [.response r] := rfl
@[simp] theorem respond_draws (r : Response) (s : State) : (respond r s).draws = s.draws := rfl

@[simp] theorem raiseInvalidSample_inst (W : Nat) (s : State) : (raiseInvalidSample W s).inst = s.inst := rfl
@[simp] theorem raiseInvalidSample_inFlight (W : Nat) (s : State) : (raiseInvalidSample W s).inFlight = s.inFlight := rfl
@[simp] theorem raiseInvalidSample_inbox (W : Nat) (s : State) : (raiseInvalidSample W s).inbox = s.inbox := rfl
@[simp] theorem raiseInvalidSample_delivered (W : Nat) (s : State) :
    (raiseInvalidSample W s).delivered = s.delivered ++ [.response ⟨W, rspWord true 0⟩] := rfl
@[simp] theorem raiseInvalidSample_draws (W : Nat) (s : State) : (raiseInvalidSample W s).draws = s.draws := rfl

@[simp] theorem raiseInvalidConfiguration_inst (s : State) : (raiseInvalidConfiguration s).inst = none := rfl
@[simp] theorem raiseInvalidConfiguration_inFlight (s : State) : (raiseInvalidConfiguration s).inFlight = none := rfl
@[simp] theorem raiseInvalidConfiguration_inbox (s : State) : (raiseInvalidConfiguration s).inbox = s.inbox := rfl
@[simp] theorem raiseInvalidConfiguration_delivered (s : State) :
    (raiseInvalidConfiguration s).delivered = s.delivered ++ [.notConstructed .invalidConfiguration] := rfl
@[simp] theorem raiseInvalidConfiguration_draws (s : State) : (raiseInvalidConfiguration s).draws = s.draws := rfl

@[simp] theorem install_inst (cfg : FilterConfig) (s : State) : (install cfg s).inst = some (Instance.fresh cfg) := rfl
@[simp] theorem install_inFlight (cfg : FilterConfig) (s : State) : (install cfg s).inFlight = none := rfl
@[simp] theorem install_inbox (cfg : FilterConfig) (s : State) : (install cfg s).inbox = s.inbox := rfl
@[simp] theorem install_delivered (cfg : FilterConfig) (s : State) :
    (install cfg s).delivered = s.delivered ++ [.constructed] := rfl
@[simp] theorem install_draws (cfg : FilterConfig) (s : State) : (install cfg s).draws = s.draws := rfl

@[simp] theorem heldInReset_inst (i : Instance) (s : State) : (heldInReset i s).inst = some i.cleared := rfl
@[simp] theorem heldInReset_inFlight (i : Instance) (s : State) : (heldInReset i s).inFlight = none := rfl
@[simp] theorem heldInReset_inbox (i : Instance) (s : State) : (heldInReset i s).inbox = s.inbox := rfl
@[simp] theorem heldInReset_delivered (i : Instance) (s : State) : (heldInReset i s).delivered = s.delivered := rfl
@[simp] theorem heldInReset_draws (i : Instance) (s : State) : (heldInReset i s).draws = s.draws := rfl

theorem idle_none {s : State} (h : s.inst = none) : idle s = s := by simp [idle, h]
theorem idle_some {s : State} {i : Instance} (h : s.inst = some i) :
    idle s = { s with pins := { cmdReady := true, rsp := none } } := by simp [idle, h]
@[simp] theorem idle_inst (s : State) : (idle s).inst = s.inst := by unfold idle; split <;> simp_all
@[simp] theorem idle_inFlight (s : State) : (idle s).inFlight = s.inFlight := by unfold idle; split <;> rfl
@[simp] theorem idle_inbox (s : State) : (idle s).inbox = s.inbox := by unfold idle; split <;> rfl
@[simp] theorem idle_delivered (s : State) : (idle s).delivered = s.delivered := by unfold idle; split <;> rfl
@[simp] theorem idle_draws (s : State) : (idle s).draws = s.draws := by unfold idle; split <;> rfl

@[simp] theorem offer_inst (W : Nat) (cw : CmdWord W) (s : State) : (s.offer W cw).inst = s.inst := rfl
@[simp] theorem offer_inFlight (W : Nat) (cw : CmdWord W) (s : State) : (s.offer W cw).inFlight = none := rfl
@[simp] theorem offer_inbox (W : Nat) (cw : CmdWord W) (s : State) : (s.offer W cw).inbox = .command W cw :: s.inbox := rfl
@[simp] theorem offer_delivered (W : Nat) (cw : CmdWord W) (s : State) : (s.offer W cw).delivered = s.delivered := rfl

@[simp] theorem fresh_cfg (cfg : FilterConfig) : (Instance.fresh cfg).cfg = cfg := rfl
@[simp] theorem fresh_cursor (cfg : FilterConfig) : (Instance.fresh cfg).cursor = 0 := rfl
@[simp] theorem fresh_history (cfg : FilterConfig) :
    (Instance.fresh cfg).history = List.replicate cfg.taps (zeroWord cfg.fmt) := rfl
@[simp] theorem cleared_eq (i : Instance) : i.cleared = Instance.fresh i.cfg := rfl

@[simp] theorem pushed_cfg (i : Instance) (v : Word i.cfg.W) : (i.pushed v).cfg = i.cfg := rfl
@[simp] theorem pushed_history (i : Instance) (v : Word i.cfg.W) : (i.pushed v).history = i.history.set i.cursor v := rfl
@[simp] theorem pushed_cursor (i : Instance) (v : Word i.cfg.W) :
    (i.pushed v).cursor = nextIndex i.cursor (maskOf i.cfg.taps) := rfl

end Sys2Proof.Laws
end

