-- ==== Sys2Proof/Laws/Words.lean ====
section
/-! SUPPORT. Command and response words: their fields (30_encoding.md rules R53, R55). -/

namespace Sys2Proof.Laws

open Sys2Proof.Machine

variable {W : Nat}

/-- The low bits of a word put together from a bit and data. -/
theorem extractLsb'_cons (b : Bool) (data : Word W) : (BitVec.cons b data).extractLsb' 0 W = data := by
  apply BitVec.eq_of_getLsbD_eq
  intro i hi
  simp [hi]

@[simp] theorem opField_cmdWord (op : Bool) (data : Word W) : opField (cmdWord op data) = op := by
  rw [opField, cmdWord, BitVec.getLsbD_cons, if_pos rfl]

@[simp] theorem dataField_cmdWord (op : Bool) (data : Word W) : dataField (cmdWord op data) = data :=
  extractLsb'_cons op data

theorem decode_cmdWord (op : Bool) (data : Word W) :
    decode (cmdWord op data) = if op then .push ⟨W, data⟩ else .reset := by
  simp [decode]

@[simp] theorem rspErr_rspWord (err : Bool) (data : Word W) : rspErr (rspWord err data) = err := by
  rw [rspErr, rspWord, BitVec.getLsbD_cons, if_pos rfl]

@[simp] theorem rspData_rspWord (err : Bool) (data : Word W) : rspData (rspWord err data) = data :=
  extractLsb'_cons err data

/-- A response without an error is its data, one bit wider. -/
theorem rspWord_false (data : Word W) : rspWord false data = data.setWidth (W + 1) := by
  apply BitVec.eq_of_getLsbD_eq
  intro i hi
  rw [rspWord, BitVec.getLsbD_cons, BitVec.getLsbD_setWidth]
  by_cases h : i = W
  · simp [h]
  · simp [h, hi]

end Sys2Proof.Laws
end

