-- ==== Sys2Proof/Laws/Machine.lean ====
section
/-! SUPPORT. What the shared operations of the machine can do: one lemma for each, which proofs cite instead of
unfolding them. -/

namespace Sys2Proof.Laws

open Sys2Proof.Machine

/-- The parts of a well-formed instance (10_state.md rule R14). -/
theorem wf_iff (i : Instance) : i.wf = true ↔
    isPowerOfTwo i.cfg.taps = true ∧ i.history.length = i.cfg.taps ∧ i.cfg.coeff.length = i.cfg.taps
      ∧ i.cursor < i.cfg.taps ∧ i.cfg.fmt.admitted = true ∧ (∀ c ∈ i.cfg.coeff, isFinite i.cfg.fmt c = true)
      ∧ (i.cfg.strict = true → ∀ h ∈ i.history, isFinite i.cfg.fmt h = true) := by
  simp only [Instance.wf, Memory.wf, FilterConfig.tapsFinite, Bool.and_eq_true, beq_iff_eq, decide_eq_true_eq,
    List.all_eq_true, Bool.or_eq_true, Bool.not_eq_true']
  cases i.cfg.strict <;> simp <;> tauto

/-- The parts of a configuration of the spec. -/
theorem ofSpec_iff (cfg : FilterConfig) : cfg.ofSpec = true ↔
    cfg.fmt.admitted = true ∧ cfg.coeff.length = cfg.taps ∧ ∀ c ∈ cfg.coeff, isFinite cfg.fmt c = true := by
  simp only [FilterConfig.ofSpec, FilterConfig.tableFits, FilterConfig.tapsFinite, Bool.and_eq_true, beq_iff_eq,
    List.all_eq_true, and_assoc]

/-- The construction state of a legal configuration is well formed (10_state.md rule R16). -/
theorem wf_fresh {cfg : FilterConfig} (hp : isPowerOfTwo cfg.taps = true) (hs : cfg.ofSpec = true) :
    (Instance.fresh cfg).wf = true := by
  obtain ⟨ha, hl, hf⟩ := (ofSpec_iff cfg).mp hs
  rw [wf_iff]
  refine ⟨hp, by simp, hl, isPowerOfTwo_pos hp, ha, hf, ?_⟩
  intro _ h hh
  rw [fresh_history] at hh
  rw [List.eq_of_mem_replicate hh]
  exact isFinite_zeroWord ha

/-- A well-formed instance has a configuration of the spec. -/
theorem ofSpec_of_wf {i : Instance} (h : i.wf = true) : i.cfg.ofSpec = true := by
  obtain ⟨-, -, hl, -, ha, hf, -⟩ := (wf_iff i).mp h
  exact (ofSpec_iff _).mpr ⟨ha, hl, hf⟩

/-- Clearing keeps an instance well formed. -/
theorem wf_cleared {i : Instance} (h : i.wf = true) : i.cleared.wf = true :=
  wf_fresh ((wf_iff i).mp h).1 (ofSpec_of_wf h)

/-- An accepted PUSH keeps an instance well formed. -/
theorem wf_pushed {i : Instance} {v : Word i.cfg.W} (h : i.wf = true) (ha : i.accepts v = true) :
    (i.pushed v).wf = true := by
  obtain ⟨hp, hh, hl, hc, hm, hf, hs⟩ := (wf_iff i).mp h
  rw [wf_iff]
  refine ⟨hp, by simpa using hh, hl, nextIndex_lt hp _, hm, hf, ?_⟩
  intro hst w hw
  rcases List.mem_or_eq_of_mem_set hw with hw | hw
  · exact hs hst w hw
  · have hst' : i.cfg.strict = true := hst
    rw [hw]
    simpa [Instance.accepts, hst'] using ha

/-- An accepted PUSH on a well-formed instance (41_push.md rule R90). -/
theorem pushOne_accepted {s : State} {i : Instance} {v : Word i.cfg.W} (hi : s.inst = some i) (h : i.wf = true)
    (ha : i.accepts v = true) :
    pushOne i.cfg.W v s = .next
      (respond ⟨i.cfg.W, rspWord false (i.output s.draws v)⟩
        { s with inst := some (i.pushed v), draws := s.draws + 1 },
        rspWord false (i.output s.draws v)) := by
  obtain ⟨hp, hh, hl, hc, -, -, -⟩ := (wf_iff i).mp h
  have hr : rejects (fmtAt i.cfg.fmt s.draws) i.cfg.strict v = false := by
    rw [← Bool.not_eq_true', ← ha]
    simp [rejects, Instance.accepts]
  unfold pushOne
  rw [hi]
  simp only [if_true, BitVec.setWidth_eq, pushRing_done (fmtAt i.cfg.fmt s.draws) (zeroWord i.cfg.fmt) hp hh hl hc hr]
  rfl

/-- A PUSH that step 0 rejects (rule R86). -/
theorem pushOne_rejected {s : State} {i : Instance} {v : Word i.cfg.W} (hi : s.inst = some i) (ha : i.accepts v = false) :
    pushOne i.cfg.W v s = .next (raiseInvalidSample i.cfg.W s, rspWord true 0) := by
  have hr : rejects (fmtAt i.cfg.fmt s.draws) i.cfg.strict v = true := by
    simpa [rejects, Instance.accepts] using ha
  unfold pushOne
  rw [hi]
  simp [pushRing, hr]

/-- A PUSH of a word that is none of the instance's format (30_encoding.md rule R54). -/
theorem pushOne_foreign {s : State} {i : Instance} {W : Nat} (v : Word W) (hi : s.inst = some i) (hW : W ≠ i.cfg.W) :
    pushOne W v s = .refused .wordWidth := by
  unfold pushOne
  rw [hi]
  simp [hW]

/-- Everything one PUSH can answer on a well-formed instance. -/
theorem pushOne_cases {s : State} {i : Instance} {v : Word i.cfg.W} {r : State × RspWord i.cfg.W} (hi : s.inst = some i)
    (h : i.wf = true) (hn : pushOne i.cfg.W v s = .next r) :
    (i.accepts v = true ∧ r.1 = respond ⟨i.cfg.W, rspWord false (i.output s.draws v)⟩
        { s with inst := some (i.pushed v), draws := s.draws + 1 } ∧ r.2 = rspWord false (i.output s.draws v)) ∨
    (i.accepts v = false ∧ r.1 = raiseInvalidSample i.cfg.W s ∧ r.2 = rspWord true 0) := by
  cases ha : i.accepts v with
  | true =>
    rw [pushOne_accepted hi h ha] at hn
    cases hn
    exact .inl ⟨rfl, rfl, rfl⟩
  | false =>
    rw [pushOne_rejected hi ha] at hn
    cases hn
    exact .inr ⟨rfl, rfl, rfl⟩

/-- Where no instance exists, PUSH is refused (40_construct_reset.md rule R77). -/
theorem pushOne_noInstance {s : State} {W : Nat} (v : Word W) (hi : s.inst = none) :
    pushOne W v s = .refused .noInstance := by
  unfold pushOne
  rw [hi]

/-- A PUSH meaning is one PUSH without its response word. -/
theorem pushState_next {s t : State} {W : Nat} {v : Word W} (h : pushState W v s = .next t) :
    ∃ rw, pushOne W v s = .next (t, rw) := by
  unfold pushState at h
  split at h
  · next r hr => cases h; exact ⟨r.2, hr⟩
  · cases h
  · cases h

/-- Everything CONSTRUCT can answer (rule R70, 42_numerics.md rules R111, R121). -/
theorem execConstruct_next {cfg : FilterConfig} {s t : State} (h : execConstruct cfg s = .next t) :
    (isPowerOfTwo cfg.taps = false ∧ t = raiseInvalidConfiguration s) ∨
    (isPowerOfTwo cfg.taps = true ∧ cfg.ofSpec = true ∧ t = install cfg s) := by
  unfold execConstruct at h
  split at h
  · next hc =>
    cases h
    left
    refine ⟨?_, rfl⟩
    rcases Bool.or_eq_true_iff.mp hc with h0 | h1
    · rw [of_decide_eq_true h0]; decide
    · simpa using h1
  · next hc =>
    right
    have hp : isPowerOfTwo cfg.taps = true := by
      simp only [Bool.or_eq_true, not_or, Bool.not_eq_true', Bool.not_eq_false] at hc
      exact hc.2
    unfold FilterConfig.ofSpec
    split at h
    · cases h
    · split at h
      · cases h
      · split at h
        · cases h
        · cases h
          simp_all

/-- Everything RESET can answer (rule R73). -/
theorem execReset_next {s t : State} (h : execReset s = .next t) :
    ∃ i, s.inst = some i ∧ t = respond ⟨i.cfg.W, rspWord false 0⟩ { s with inst := some i.cleared } := by
  unfold execReset at h
  split at h
  · cases h
  · next i hi => cases h; exact ⟨i, hi, rfl⟩

end Sys2Proof.Laws
end

