-- ==== Sys2Proof/Laws/Memory.lean ====
section
/-! SUPPORT. The form of the two spaces HIST and COEF (10_state.md rule R14, invariant 1) is kept by every operation on
them, and the reset state has it. -/

namespace Sys2Proof.Laws

open Sys2Proof.Machine

theorem memory_wf_iff (i : Instance) :
    Memory.wf i = true ↔ i.history.length = i.cfg.taps ∧ i.cfg.coeff.length = i.cfg.taps := by
  simp [Memory.wf]

/-- A write of one slot. -/
theorem memory_wf_memWrite {i : Instance} {c : Nat} {v : Word i.cfg.W} {hist : List (Word i.cfg.W)}
    (h : Memory.wf i = true)
    (hw : memWrite i.history c v = some hist) (cursor : Nat) :
    Memory.wf { i with history := hist, cursor := cursor } = true := by
  rw [memory_wf_iff] at h ⊢
  exact ⟨(memWrite_length hw).trans h.1, h.2⟩

/-- Clearing all slots. -/
theorem memory_wf_cleared {i : Instance} (h : Memory.wf i = true) : Memory.wf i.cleared = true := by
  rw [memory_wf_iff] at h ⊢
  exact ⟨by simp, h.2⟩

/-- Construction. -/
theorem memory_wf_fresh {cfg : FilterConfig} (h : cfg.tableFits = true) : Memory.wf (Instance.fresh cfg) = true := by
  rw [memory_wf_iff]
  exact ⟨by simp, by simpa [FilterConfig.tableFits] using h⟩

/-- The reset state. -/
theorem memory_wf_reset : Memory.wf (Instance.fresh resetConfig) = true := memory_wf_fresh (by decide)

/-- The configuration of the reset state has finite taps only. -/
theorem resetConfig_tapsFinite : resetConfig.tapsFinite = true := by
  rw [FilterConfig.tapsFinite, List.all_eq_true]
  intro c hc
  obtain ⟨k, -, rfl⟩ := List.mem_map.mp hc
  exact isFinite_resetTap k

end Sys2Proof.Laws
end

