-- ==== Sys2Proof/Laws/PerInstr.lean ====
section
/-! SUPPORT. What holds of every operation as syntax, one lemma per constructor. -/

namespace Sys2Proof.Laws

namespace CommandWords

/-- The encoder gives canonical words only: decoding and encoding again gives the word back (30_encoding.md rule R62). -/
def Statement (i : Instr) : Prop := ∀ W, ∀ w ∈ encode W i, encode W (decode w) = [w]

theorem pushes {W : Nat} (v : Word W) : encode W (decode (cmdWord true v)) = [cmdWord true v] := by
  simp [decode_cmdWord, encode]

theorem construct (cfg : FilterConfig) : Statement (.construct cfg) := fun _ _ h => by simp [encode] at h

theorem reset : Statement .reset := fun W w h => by
  obtain rfl : w = cmdWord false 0 := by simpa [encode] using h
  simp [decode_cmdWord, encode]

theorem push (v : Sample) : Statement (.push v) := fun W w h => by
  obtain rfl : w = cmdWord true (v.word.setWidth W) := by simpa [encode] using h
  exact pushes _

theorem pushv (vs : Samples) : Statement (.pushv vs) := fun W w h => by
  obtain ⟨v, -, rfl⟩ : ∃ v, v ∈ vs.words ∧ cmdWord true (v.setWidth W) = w := by simpa [encode] using h
  exact pushes _

theorem call (v : Sample) : Statement (.call v) := push v

end CommandWords

end Sys2Proof.Laws
end

