-- ==== Sys2Proof/Laws/Step.lean ====
section
/-! SUPPORT. What the meanings, a clock cycle and a step answer where a well-formed instance exists. -/

namespace Sys2Proof.Laws

open Sys2Proof.Machine

/-- A next state whose instance is well formed and keeps this configuration, with no command in progress but one of this
width. -/
def Goes (cfg : FilterConfig) (o : Host.Outcome State Fault Refusal) : Prop :=
  ∃ t j, o = .next t ∧ t.inst = some j ∧ j.wf = true ∧ j.cfg = cfg ∧ ∀ c ∈ t.inFlight, c.W = cfg.W

/-- What a well-formed state says where an instance exists. -/
theorem state_wf_iff {s : State} {i : Instance} (hi : s.inst = some i) :
    s.wf = true ↔ i.wf = true ∧ ∀ c ∈ s.inFlight, c.W = i.cfg.W := by
  unfold State.wf
  rw [hi]
  cases s.inFlight <;> simp

/-- What a well-formed state says where none exists. -/
theorem state_wf_none {s : State} (hi : s.inst = none) :
    s.wf = true ↔ s.inFlight = none ∧ s.pins = { cmdReady := false, rsp := none } := by
  unfold State.wf
  rw [hi]
  simp

/-- A state that goes on is well formed. -/
theorem Goes.wf {cfg : FilterConfig} {o : Host.Outcome State Fault Refusal} (h : Goes cfg o) :
    ∃ t, o = .next t ∧ t.wf = true := by
  obtain ⟨t, j, e, hj, hw, hc, hf⟩ := h
  exact ⟨t, e, (state_wf_iff hj).mpr ⟨hw, by rw [hc]; exact hf⟩⟩

/-- One PUSH always answers (41_push.md rule R102). -/
theorem pushOne_goes {s : State} {i : Instance} (v : Word i.cfg.W) (hi : s.inst = some i) (h : i.wf = true) :
    ∃ r j, pushOne i.cfg.W v s = .next r ∧ r.1.inst = some j ∧ j.wf = true ∧ j.cfg = i.cfg ∧
      r.1.inFlight = s.inFlight := by
  cases ha : i.accepts v with
  | true => exact ⟨_, i.pushed v, pushOne_accepted hi h ha, rfl, wf_pushed h ha, rfl, rfl⟩
  | false => exact ⟨_, i, pushOne_rejected hi ha, hi, h, rfl, rfl⟩

theorem pushState_goes {s : State} {i : Instance} {W : Nat} (v : Word W) (hi : s.inst = some i) (h : i.wf = true)
    (hW : W = i.cfg.W) (hf : ∀ c ∈ s.inFlight, c.W = i.cfg.W) : Goes i.cfg (pushState W v s) := by
  subst hW
  obtain ⟨r, j, e, hj, hw, hc, hr⟩ := pushOne_goes v hi h
  exact ⟨r.1, j, by simp [pushState, e], hj, hw, hc, by rw [hr]; exact hf⟩

/-- The loop of PUSHV always answers (rule R101). -/
theorem pushLoop_goes {W : Nat} (vs : List (Word W)) : ∀ (ys : List (Word W)) {s : State} {i : Instance},
    s.inst = some i → i.wf = true → W = i.cfg.W → (∀ c ∈ s.inFlight, c.W = i.cfg.W) →
    Goes i.cfg (pushLoop W vs ys s) := by
  induction vs with
  | nil => intro ys s i hi h _ hf; exact ⟨_, i, rfl, hi, h, rfl, hf⟩
  | cons v vs ih =>
    intro ys s i hi h hW hf
    subst hW
    obtain ⟨⟨s', rw'⟩, j, e, hj, hw, hc, hr⟩ := pushOne_goes v hi h
    rw [pushLoop, e]
    simp only
    split
    · exact ⟨_, j, rfl, hj, hw, hc, fun c hm => hf c (hr ▸ hm)⟩
    · have hgo := ih (ys ++ [rspData rw']) hj hw (by rw [hc]) (fun c hm => by rw [hc]; exact hf c (hr ▸ hm))
      rwa [hc] at hgo

/-- Every operation but CONSTRUCT whose samples fit completes. -/
theorem exec_goes (op : Instr) {s : State} {i : Instance} (hi : s.inst = some i) (h : i.wf = true)
    (hop : ∀ cfg, op ≠ .construct cfg) (hfit : op.fits i.cfg.W = true) (hf : ∀ c ∈ s.inFlight, c.W = i.cfg.W) :
    Goes i.cfg (exec op s) := by
  cases op with
  | construct cfg => exact absurd rfl (hop cfg)
  | reset =>
    exact ⟨respond ⟨i.cfg.W, rspWord false 0⟩ { s with inst := some i.cleared }, i.cleared,
      by simp [exec, execReset, hi], rfl, wf_cleared h, rfl, hf⟩
  | push v => exact pushState_goes v.word hi h (by simpa [Instr.fits] using hfit) hf
  | pushv vs => exact pushLoop_goes vs.words [] hi h (by simpa [Instr.fits] using hfit) hf
  | call v => exact pushState_goes v.word hi h (by simpa [Instr.fits] using hfit) hf

/-- A CONSTRUCT that answers leaves a well-formed state. -/
theorem execConstruct_wf {cfg : FilterConfig} {s t : State} (h : execConstruct cfg s = .next t) : t.wf = true := by
  rcases execConstruct_next h with ⟨-, rfl⟩ | ⟨hp, hs, rfl⟩
  · rfl
  · exact (state_wf_iff rfl).mpr ⟨wf_fresh hp hs, by simp⟩

/-- No command of the port is a CONSTRUCT (30_encoding.md rule R57). -/
theorem decode_ne_construct {W : Nat} (cw : CmdWord W) (cfg : FilterConfig) : decode cw ≠ .construct cfg := by
  unfold decode
  split <;> simp

/-- A command word fits the port it came from. -/
theorem decode_fits {W : Nat} (cw : CmdWord W) : (decode cw).fits W = true := by
  unfold decode
  split <;> simp [Instr.fits]

theorem finish_goes (c : InFlight) {s : State} {i : Instance} (hi : s.inst = some i) (h : i.wf = true)
    (hc : c.W = i.cfg.W) : Goes i.cfg (finish c s) :=
  exec_goes (decode c.cw) (s := { s with inFlight := none }) hi h (decode_ne_construct _) (hc ▸ decode_fits c.cw) (by simp)

theorem hardwareReset_goes {s : State} {i : Instance} (hi : s.inst = some i) (h : i.wf = true) :
    Goes i.cfg (hardwareReset s) :=
  ⟨{ heldInReset i s with pins := { cmdReady := true, rsp := none } }, i.cleared, by simp [hardwareReset, hi], rfl,
    wf_cleared h, rfl, by simp [heldInReset]⟩

/-- Every clock cycle on a port of the instance's width completes. -/
theorem cycle_goes (p : PinsIn) {s : State} {i : Instance} (hi : s.inst = some i) (h : i.wf = true)
    (hp : p.W = i.cfg.W) (hf : ∀ c ∈ s.inFlight, c.W = i.cfg.W) : Goes i.cfg (cycle p s) := by
  unfold cycle
  simp only [hi]
  split
  · exact ⟨_, i.cleared, rfl, rfl, wf_cleared h, rfl, by simp [heldInReset]⟩
  · split
    · next c hc =>
      have hcW : c.W = i.cfg.W := hf c (by simp [hc])
      split
      · obtain ⟨t, j, e, n, w, k, g⟩ := finish_goes c hi h hcW
        rw [e]
        exact ⟨_, j, rfl, n, w, k, g⟩
      · exact ⟨_, i, rfl, rfl, h, rfl, by simp [hcW]⟩
    · cases p.cmdValid with
      | false => exact ⟨_, i, rfl, by simpa using hi, h, rfl, by simpa using hf⟩
      | true =>
        rw [Bool.not_true, if_neg Bool.false_ne_true]
        exact ⟨_, i, rfl, rfl, h, rfl, by simp [hp]⟩

/-- Every step whose interaction fits the instance completes and keeps the configuration, but for a CONSTRUCT of the host. -/
theorem step_goes {s : State} {i : Instance} (hi : s.inst = some i) (h : s.wf = true)
    (hfit : ∀ a ∈ s.inbox.head?, a.fits i.cfg.W = true) :
    Goes i.cfg (step s) ∨ ∃ cfg rest, s.inFlight = none ∧ s.inbox = .host (.construct cfg) :: rest ∧
      step s = exec (.construct cfg) { s with inbox := rest } := by
  obtain ⟨hw, hf⟩ := (state_wf_iff hi).mp h
  unfold step advance
  split
  · next c hc =>
    have hcW : c.W = i.cfg.W := hf c (by simp [hc])
    left
    unfold whileBusy
    split
    · next p rest hb => exact cycle_goes p hi hw (by simpa [hb, HostAction.fits] using hfit) hf
    · exact hardwareReset_goes hi hw
    · exact finish_goes c hi hw hcW
  · next hn =>
    split
    · exact .inl ⟨_, i, rfl, by simpa using hi, hw, rfl, by simpa using hf⟩
    · next a rest hb =>
      have ha : a.fits i.cfg.W = true := hfit a (by simp [hb])
      cases a with
      | command V cw =>
        have hV : V = i.cfg.W := by simpa [HostAction.fits] using ha
        exact .inl (exec_goes (decode cw) (s := { s with inbox := rest }) hi hw (decode_ne_construct _)
          (hV ▸ decode_fits cw) hf)
      | host op =>
        by_cases hop : ∃ cfg, op = .construct cfg
        · obtain ⟨cfg, rfl⟩ := hop
          exact .inr ⟨cfg, rest, hn, hb, rfl⟩
        · exact .inl (exec_goes op (s := { s with inbox := rest }) hi hw (fun cfg hc => hop ⟨cfg, hc⟩) ha hf)
      | hardwareReset => exact .inl (hardwareReset_goes (s := { s with inbox := rest }) hi hw)
      | cycle p =>
        exact .inl (cycle_goes (s := { s with inbox := rest }) p hi hw (by simpa [HostAction.fits] using ha) hf)

end Sys2Proof.Laws
end

