-- ==== Sys2Proof/Tests/Slice0.lean ====
section
/-! SUPPORT. Tests, their expected values taken from 95_test_vectors.md, and for every statement with hypotheses a
concrete input that meets them. -/

set_option Elab.async false

namespace Sys2Proof.Tests

open Sys2Proof.Machine Sys2Proof.Laws

/-! Small states. -/

/-- The reference format. -/
abbrev b64 : Format := .binary Config.binary64

/-- `N = 4`, taps 1, 2, 4, 8 (vectors V2, V3). -/
abbrev cfg4 : FilterConfig :=
  ⟨b64, 4, [0x3FF0000000000000#64, 0x4000000000000000#64, 0x4010000000000000#64, 0x4020000000000000#64], false⟩

/-- The same with `STRICT = 1` (V13). -/
abbrev strict4 : FilterConfig := { cfg4 with strict := true }

/-- `N = 1`, tap 3 (V7). -/
abbrev cfg1 : FilterConfig := ⟨b64, 1, [0x4008000000000000#64], false⟩

/-- `N = 2` in IEEE 754 binary32, taps 1 and 2. -/
abbrev cfg32 : FilterConfig := ⟨.binary ⟨8, 23⟩, 2, [0x3F800000#32, 0x40000000#32], false⟩

/-- `N = 2` in a format that has a width and a number only. -/
abbrev cfgOther : FilterConfig := ⟨.other 16 7, 2, [zeroWord (.other 16 7), zeroWord (.other 16 7)], false⟩

/-- PUSH of a word of the reference format. -/
abbrev push64 (v : Word 64) : Instr := .push ⟨64, v⟩

/-- A machine whose instance holds this history and cursor. -/
def holding (cfg : FilterConfig) (hist : List (Word cfg.W)) (cursor : Nat) : State :=
  { State.reset with inst := some ⟨cfg, hist, cursor⟩ }

/-- A machine with a fresh instance. -/
def fresh (cfg : FilterConfig) : State := { State.reset with inst := some (Instance.fresh cfg) }

/-- A machine without an instance. -/
def nothing : State := raiseInvalidConfiguration State.reset

/-- The next state, if there is one. -/
def after {σ : Type} : Host.Outcome σ Fault Refusal → Option σ
  | .next s => some s
  | _ => none

/-- History (as numbers) and cursor of the next state, and what it delivered. -/
def seen (o : Host.Outcome State Fault Refusal) : Option (List Nat × Nat × List Delivery) :=
  (after o).bind fun t => t.inst.map fun i => (i.history.map BitVec.toNat, i.cursor, t.delivered)

theorem next_of_after {σ : Type} {o : Host.Outcome σ Fault Refusal} (h : (after o).isSome = true) : ∃ t, o = .next t := by
  cases o with
  | next t => exact ⟨t, rfl⟩
  | fault f => cases h
  | refused r => cases h

/-! Well-formedness: one ill-formed term for each check. -/

theorem test_wellformed_good : (Instr.construct cfg4).wellFormed = true := by decide
theorem test_wellformed_binary32 : (Instr.construct cfg32).wellFormed = true := by decide
theorem test_wellformed_no_format : (Instr.construct ⟨.binary ⟨1, 0⟩, 1, [0#2], false⟩).wellFormed = false := by decide
theorem test_wellformed_short_table : (Instr.construct ⟨b64, 4, [0#64, 0#64], false⟩).wellFormed = false := by decide
theorem test_wellformed_infinite_tap :
    (Instr.construct ⟨b64, 1, [0x7FF0000000000000#64], false⟩).wellFormed = false := by decide
theorem test_fits : (push64 0#64).fits 64 = true ∧ (push64 0#64).fits 32 = false := by decide
theorem test_refused_no_format :
    execConstruct ⟨.binary ⟨1, 0⟩, 1, [0#2], false⟩ State.reset = .refused .noFormat := by rfl
theorem test_refused_short_table :
    execConstruct ⟨b64, 4, [0#64, 0#64], false⟩ State.reset = .refused .tableLength := by rfl
theorem test_refused_infinite_tap :
    execConstruct ⟨b64, 1, [0x7FF0000000000000#64], false⟩ State.reset = .refused .nonFiniteTap := by rfl
theorem test_refused_other_width : execPush ⟨32, 0#32⟩ (fresh cfg4) = .refused .wordWidth := by rfl

/-! Decoding: the words of V16, bit 64 first; and a port of 32 bits (rule R53: bit 32 is the operation). -/

theorem test_decode_reset : decodeTableWord 72 0x00000000000000000 = some .reset := by decide
theorem test_decode_reset_data_ignored : decodeTableWord 72 0x0FFFFFFFFFFFFFFFF = some .reset := by decide
theorem test_decode_push : decodeTableWord 72 0x13FF0000000000000 = some (push64 0x3FF0000000000000#64) := by decide
theorem test_decode_push_nan : decodeTableWord 72 0x17FF8000000000000 = some (push64 0x7FF8000000000000#64) := by decide
theorem test_decode_too_long : decodeTableWord 72 0x20000000000000000 = none := by decide
theorem test_encode_push : encode 64 (push64 0xC018000000000000#64) = [0x1C018000000000000#65] := by decide
theorem test_encode_reset : encode 64 .reset = [0#65] := by decide
theorem test_decode_32 : decode (W := 32) 0x13F800000#33 = .push ⟨32, 0x3F800000#32⟩ ∧
    decode (W := 32) 0x0FFFFFFFF#33 = .reset := by decide

/-! CONSTRUCT: V1. -/

theorem test_construct_asymmetric_table :
    seen (execConstruct cfg4 (holding cfg1 [0x4008000000000000#64] 0)) = some ([0, 0, 0, 0], 0, [.constructed]) := by decide
theorem test_construct_three_taps :
    (after (execConstruct ⟨b64, 3, [], false⟩ (fresh cfg4))).map (fun t => (t.inst, t.delivered, t.pins)) =
      some (none, [.notConstructed .invalidConfiguration], ⟨false, none⟩) := by decide
theorem test_construct_tap_counts :
    (List.range 101).filter isPowerOfTwo = [1, 2, 4, 8, 16, 32, 64] ∧ isPowerOfTwo 1024 = true := by decide +kernel

/-! RESET: P2 row 6, and the example of rule R73. -/

theorem test_reset_clears :
    seen (execReset (holding cfg4
      [0x4014000000000000#64, 0x4018000000000000#64, 0x4008000000000000#64, 0x4010000000000000#64] 2)) =
      some ([0, 0, 0, 0], 0, [.response ⟨64, 0#65⟩]) := by decide

/-! PUSH: V3 row 4 (the example of rule R90), V13 row 1; and 3 after 1 in binary32 (3*1 + 1*2 = 5, rule R95). -/

theorem test_push_wraps :
    seen (execPush ⟨64, 0x4014000000000000#64⟩ (holding cfg4
      [0x3FF0000000000000#64, 0x4000000000000000#64, 0x4008000000000000#64, 0x4010000000000000#64] 0)) =
      some ([0x4014000000000000, 0x4000000000000000, 0x4008000000000000, 0x4010000000000000], 1,
        [.response ⟨64, 0x04044800000000000#65⟩]) := by decide +kernel
theorem test_push_strict_nan :
    seen (execPush ⟨64, 0x7FF8000000000000#64⟩ (holding strict4 [0x3FF0000000000000#64, 0#64, 0#64, 0#64] 1)) =
      some ([0x3FF0000000000000, 0, 0, 0], 1, [.response ⟨64, 0x10000000000000000#65⟩]) := by decide +kernel
theorem test_push_binary32 :
    seen (execPush ⟨32, 0x40400000#32⟩ (holding cfg32 [0x3F800000#32, 0#32] 1)) =
      some ([0x3F800000, 0x40400000], 0, [.response ⟨32, 0x040A00000#33⟩]) := by decide +kernel

/-! f(v): V7 rows 0 and 1. -/

theorem test_call_single_tap :
    seen (execCall ⟨64, 0x4000000000000000#64⟩ (fresh cfg1)) =
      some ([0x4000000000000000], 0, [.response ⟨64, 0x04018000000000000#65⟩]) := by decide +kernel
theorem test_call_keeps_negative_zero :
    seen (execCall ⟨64, 0x8000000000000000#64⟩ (fresh cfg1)) =
      some ([0x8000000000000000], 0, [.response ⟨64, 0x08000000000000000#65⟩]) := by decide +kernel

/-! PUSHV: V15. -/

theorem test_pushv_stops_at_the_bad_sample :
    seen (execPushv ⟨64, [0x3FF0000000000000#64, 0x7FF8000000000000#64, 0x4000000000000000#64]⟩ (fresh strict4)) =
      some ([0x3FF0000000000000, 0, 0, 0], 1,
        [.response ⟨64, 0x03FF0000000000000#65⟩, .response ⟨64, 0x10000000000000000#65⟩,
          .bulk 64 [0x3FF0000000000000#64] (some (1, .invalidSample))]) := by decide +kernel
theorem test_pushv_empty :
    seen (execPushv ⟨64, []⟩ (holding cfg4 [0x3FF0000000000000#64, 0#64, 0#64, 0#64] 1)) =
      some ([0x3FF0000000000000, 0, 0, 0], 1, [.bulk 64 [] none]) := by decide

/-! Index arithmetic: V8 and the pairing of `N = 32`, `cursor_new = 5`. -/

theorem test_index_rows :
    [nextIndex 30 31, nextIndex 31 31, prevIndex 0 31, prevIndex 1 31, wrap (5 - 1 - 7) 31, nextIndex 0 0, prevIndex 0 0,
      nextIndex 1 5] = [31, 0, 31, 0, 29, 0, 0, 0] := by decide
theorem test_tap_slots : [0, 1, 4, 5, 31].map (tapSlot 5 31) = [4, 3, 0, 31, 5] := by decide

/-! Numerics: V10, V14. -/

theorem test_add_ties_to_even :
    (fmtAt b64 0).fadd 0x4340000000000000#64 0x3FF0000000000000#64 = 0x4340000000000000#64 := by decide +kernel
theorem test_add_opposite_zeros : (fmtAt b64 0).fadd 0x8000000000000000#64 0#64 = 0#64 := by decide +kernel
theorem test_mul_overflows :
    (fmtAt b64 0).fmul 0x7FE0000000000000#64 0xC000000000000000#64 = 0xFFF0000000000000#64 := by decide +kernel

/-! The step and the ports. -/

theorem test_step_runs_the_word :
    (after (step (State.withFetchWord (fresh cfg1) 72 0x14014000000000000))).map (fun t => (t.delivered, t.pins)) =
      some ([.response ⟨64, 0x0402E000000000000#65⟩], ⟨true, some ⟨64, 0x0402E000000000000#65⟩⟩) := by decide +kernel
theorem test_ready_drops_while_busy :
    (after (cycle ⟨false, true, true, 64, 0#64⟩
      { fresh cfg4 with inFlight := some ⟨64, 0x14000000000000000#65, 2⟩ })).map (fun t => (t.pins, t.inFlight)) =
      some (⟨false, none⟩, some ⟨64, 0x14000000000000000#65, 1⟩) := by decide
theorem test_bad_configuration_leaves_no_engine : execReset nothing = .refused .noInstance := by rfl
theorem test_idle_cycle :
    (after (cycle ⟨false, false, true, 64, 7#64⟩ (fresh cfg4))).map (fun t => (t.pins, t.delivered, t.inFlight)) =
      some (⟨true, none⟩, [], none) := by decide
theorem test_other_format_goes :
    (after (execPush ⟨16, 5#16⟩ (fresh cfgOther))).map (fun t => (t.inst.map Instance.cursor, t.delivered.length)) =
      some (some 1, 1) := by rfl
theorem test_nothing_drives_no_port : step nothing = .next nothing := by rfl

/-! Witnesses: concrete inputs that meet the hypotheses of the statements. -/

/-- A check of every member, from the check as a function. -/
theorem every {α : Type} {xs : List α} {p : α → Bool} (h : xs.all p = true) : ∀ x ∈ xs, p x = true :=
  List.all_eq_true.mp h

theorem not_pow_three : ¬ ∃ j, 3 = 2 ^ j := fun h => absurd ((isPowerOfTwo_iff 3).mpr h) (by decide)
theorem not_pow_zero : ¬ ∃ j, 0 = 2 ^ j := fun h => absurd ((isPowerOfTwo_iff 0).mpr h) (by decide)

/-- Two samples in the ring of four. -/
abbrev mid : Instance := ⟨cfg4, [0x3FF0000000000000#64, 0x4000000000000000#64, 0#64, 0#64], 2⟩
/-- A strict instance about to wrap. -/
abbrev last : Instance :=
  ⟨strict4, [0x3FF0000000000000#64, 0x4000000000000000#64, 0x4008000000000000#64, 0#64], 3⟩
/-- A machine with an instance. -/
abbrev at' (i : Instance) : State := { State.reset with inst := some i }

theorem witness_DecodeReads :
    (0xFFFFFFFFFFFFFFFF#65).toNat < 2 ^ 64 ∧ 2 ^ 64 ≤ (0x10000000000000000#65).toNat ∧
      2 ^ 64 ≤ (0x1FFFFFFFFFFFFFFFF#65).toNat := by decide
theorem witness_CommandsRoundTrip :
    (Instr.reset = .reset ∨ ∃ v : Word 64, Instr.reset = .push ⟨64, v⟩) ∧
      (push64 7#64 = .reset ∨ ∃ v : Word 64, push64 7#64 = .push ⟨64, v⟩) ∧
      (0x10000000000000000#65).getLsbD 64 = true ∧ (1#65).getLsbD 64 = false :=
  ⟨.inl rfl, .inr ⟨_, rfl⟩, by decide, by decide⟩
theorem witness_StepRunsTheCommand :
    ∃ s : State, s.inFlight = none ∧ s.inbox = [HostAction.command 64 0#65, .hardwareReset] :=
  ⟨{ at' mid with inbox := [.command 64 0#65, .hardwareReset] }, rfl, rfl⟩
theorem witness_StepRunsTheHostsOperation :
    ∃ s : State, s.inFlight = none ∧ s.inbox = [HostAction.host (.construct cfg4)] :=
  ⟨{ at' mid with inbox := [.host (.construct cfg4)] }, rfl, rfl⟩
theorem witness_StepRunsTheWordOffered :
    decodeTableWord 72 0x1FFFFFFFFFFFFFFFF = some (push64 0xFFFFFFFFFFFFFFFF#64) ∧
      decodeTableWord 65 0x0FFFFFFFFFFFFFFFF = some .reset := by decide
theorem witness_WaitingTransaction :
    ∃ s : State, s.inFlight = some ⟨64, 0#65, 3⟩ ∧ s.inbox = [HostAction.command 64 1#65] ∧
      (∀ p, HostAction.command 64 1#65 ≠ .cycle p) ∧ HostAction.command 64 1#65 ≠ .hardwareReset :=
  ⟨{ at' mid with inFlight := some ⟨64, 0#65, 3⟩, inbox := [.command 64 1#65] }, rfl, rfl, by simp, by simp⟩
theorem witness_NothingHappens :
    State.reset.inFlight = none ∧ State.reset.inbox = [] ∧ (∃ i, State.reset.inst = some i) ∧
      nothing.inFlight = none ∧ nothing.inbox = [] ∧ nothing.inst = none := ⟨rfl, rfl, ⟨_, rfl⟩, rfl, rfl, rfl⟩
theorem witness_ConstructByTapCount :
    (∃ j, cfg4.taps = 2 ^ j) ∧ cfg4.fmt.admitted = true ∧ cfg4.coeff.length = cfg4.taps ∧
      (∀ c ∈ cfg4.coeff, isFinite cfg4.fmt c = true) ∧
      (∃ j, cfg1.taps = 2 ^ j) ∧ ¬ (∃ j, 3 = 2 ^ j) ∧ ¬ ∃ j, 0 = 2 ^ j :=
  ⟨⟨2, rfl⟩, by decide, rfl, every (by decide), ⟨0, rfl⟩, not_pow_three, not_pow_zero⟩
theorem witness_ConstructRefuses :
    Format.admitted (.binary ⟨1, 0⟩) = false ∧ ∃ a b c : FilterConfig,
      a.taps = 2 ^ 1 ∧ a.fmt.admitted = true ∧ a.coeff.length ≠ a.taps ∧
      b.taps = 2 ^ 1 ∧ b.fmt.admitted = true ∧ b.coeff.length = b.taps ∧ (∃ x ∈ b.coeff, isFinite b.fmt x = false) ∧
      c.taps = 2 ^ 1 ∧ c.fmt.admitted = true ∧ c.coeff.length = c.taps ∧ ¬ ∃ x ∈ c.coeff, isFinite c.fmt x = false :=
  ⟨by decide, ⟨b64, 2, [0#64], false⟩, ⟨b64, 2, [0#64, 0x7FF8000000000000#64], false⟩, cfg32, rfl, by decide, by decide,
    rfl, by decide, rfl, ⟨0x7FF8000000000000#64, by simp, by decide⟩, rfl, by decide, rfl, fun ⟨x, hx, hf⟩ =>
      Bool.noConfusion (hf.symm.trans (every (p := isFinite cfg32.fmt) (by decide) x hx))⟩
theorem witness_NoInstanceNoCommand :
    ¬ (∃ j, 0 = 2 ^ j) ∧ (∃ t, exec (.construct ⟨b64, 0, [], false⟩) State.reset = .next t) ∧
      (⟨64, [0#64]⟩ : Samples).words ≠ [] :=
  ⟨not_pow_zero, ⟨_, rfl⟩, by simp⟩
theorem witness_WordsOfAnotherWidth :
    (at' mid).inst = some mid ∧ 32 ≠ mid.cfg.W ∧ [0#32] ≠ [] ∧ (⟨false, true, true, 32, 0#32⟩ : PinsIn).W = 32 ∧
      (at' mid).inFlight = none := ⟨rfl, by decide, by simp, rfl, rfl⟩
/-- For ResetClearsAndAnswersZero, PushComputesTheSequentialSum, PushShiftsTheWindow and OverwrittenSlotIsNotRead: an
instance in mid-stream and a strict one that takes a finite sample. -/
theorem witness_instance : (at' mid).inst = some mid ∧ mid.wf = true ∧ (at' last).inst = some last ∧ last.wf = true ∧
    (last.cfg.strict = true → isFinite b64 0x4010000000000000#64 = true) := ⟨rfl, by decide, rfl, by decide, by decide⟩
theorem witness_ResetIsReconstruction :
    ∃ s₁ s₂ c, execAll ([0x14010000000000000#65, 0#65, 0x14000000000000000#65].map (decode (W := 64))) (at' mid) = .next s₁ ∧
      exec .reset s₁ = .next s₂ ∧ exec (.construct mid.cfg) (at' mid) = .next c := by
  obtain ⟨s₁, h₁⟩ := next_of_after (o := execAll ([0x14010000000000000#65, 0#65, 0x14000000000000000#65].map (decode (W := 64))) (at' mid))
    (by decide +kernel)
  obtain ⟨s₂, h₂⟩ := next_of_after (o := execAll ([0x14010000000000000#65, 0#65, 0x14000000000000000#65, 0#65].map (decode (W := 64)))
    (at' mid)) (by decide +kernel)
  have h : exec .reset s₁ = .next s₂ := by
    have := h₂
    simp only [List.map_cons, List.map_nil, execAll] at h₁ this
    revert this h₁
    rcases exec (decode (W := 64) 0x14010000000000000#65) (at' mid) with a | a | a <;> simp only [reduceCtorEq, false_implies]
    rcases exec (decode (W := 64) 0#65) a with b | b | b <;> simp only [reduceCtorEq, false_implies]
    rcases exec (decode (W := 64) 0x14000000000000000#65) b with e | e | e <;> simp only [reduceCtorEq, false_implies]
    intro h h'
    cases h
    change (match exec .reset _ with | .next s' => Host.Outcome.next s' | .fault f => .fault f | .refused r => .refused r) = _ at h'
    revert h'
    rcases exec .reset s₁ with g | g | g <;> simp
  exact ⟨s₁, s₂, _, h₁, h, rfl⟩
theorem witness_HardwareReset :
    ∃ s s' : State, s.inst = some mid ∧ s.inFlight = some ⟨64, 0x14000000000000000#65, 2⟩ ∧ s.inbox = [HostAction.hardwareReset] ∧
      s'.inst = some last ∧ s'.inbox = [HostAction.cycle ⟨true, false, false, 64, 0#64⟩] :=
  ⟨{ at' mid with inFlight := some ⟨64, 0x14000000000000000#65, 2⟩, inbox := [.hardwareReset] },
    { at' last with inbox := [.cycle ⟨true, false, false, 64, 0#64⟩] }, rfl, rfl, rfl, rfl, rfl⟩
theorem witness_StrictPush :
    last.cfg.strict = true ∧ isFinite b64 0x7FF0000000000000#64 = false ∧ mid.wf = true ∧ mid.cfg.strict = false := by decide
theorem witness_PushWrites :
    (∃ t, exec (push64 0x4010000000000000#64) (at' last) = .next t) ∧ isFinite b64 0x4010000000000000#64 = true ∧
      (∃ t, exec (push64 0x7FF0000000000000#64) (at' last) = .next t) ∧ last.cfg.strict = true ∧
      isFinite b64 0x7FF0000000000000#64 = false ∧ 2 ≠ last.cursor ∧ last.wf = true :=
  ⟨next_of_after (by decide +kernel), by decide, next_of_after (by decide +kernel), by decide⟩
theorem witness_CursorAdvances :
    mid.cursor + 1 < mid.cfg.taps ∧ last.cursor + 1 = last.cfg.taps ∧ (Instance.fresh cfg1).wf = true ∧ cfg1.taps = 1 := by
  decide
theorem witness_PushIsDeterministic :
    ∃ s₁ s₂ : State, s₁ ≠ s₂ ∧ s₁.inst = some mid ∧ s₂.inst = some mid ∧ mid.wf = true :=
  ⟨at' mid, { at' mid with draws := 5 }, by simp [State.reset], rfl, rfl, by decide⟩
theorem witness_ContentLaw :
    (fresh strict4).inst = some (Instance.fresh strict4) ∧ (Instance.fresh strict4).wf = true ∧
      ([0#64, 0x7FF8000000000000#64, 1#64].filter fun x => !strict4.strict || isFinite b64 x).length = 2 ∧ 2 ≤ 0 + strict4.taps := by
  decide
theorem witness_Outputs :
    (fresh strict4).inst = some (Instance.fresh strict4) ∧ (Instance.fresh strict4).wf = true ∧
      (∀ x ∈ [1#64, 2#64, 3#64, 4#64, 5#64], strict4.strict = true → isFinite b64 x = true) :=
  ⟨rfl, by decide, fun x hx _ => every (p := isFinite b64) (by decide) x hx⟩
theorem witness_Impulse :
    (Instance.fresh cfg4).wf = true ∧ isFinite b64 0x4008000000000000#64 = true ∧
      isZero Config.binary64 ((fmtAt b64 0).fmul 0x4008000000000000#64 (cfg4.coeff.getD 3 0)) = false ∧
      isZero Config.binary64 ((fmtAt b64 0).fmul 0x8000000000000000#64 (cfg4.coeff.getD 0 0)) = true ∧ cfg4.taps ≤ 4 := by decide +kernel
theorem witness_UnitImpulse :
    (Instance.fresh cfg4).wf = true ∧ cfg4.coeff[3]? = some 0x4020000000000000#64 ∧ isZero Config.binary64 0x4020000000000000#64 = false := by
  decide
theorem witness_ConstantInput : mid.wf = true ∧ isFinite b64 0x4008000000000000#64 = true ∧ 3 < 5 ∧ mid.cfg.taps ≤ 3 + 1 := by
  decide
theorem witness_SingleTap :
    (Instance.fresh cfg1).wf = true ∧ cfg1.taps = 1 ∧ cfg1.coeff = [0x4008000000000000#64] := by decide
theorem witness_OldSamplesAgeOut :
    mid.history ≠ [0#64, 0#64, 0#64, 0#64] ∧ mid.wf = true ∧ Instance.wf ⟨cfg4, [0#64, 0#64, 0#64, 0#64], 0⟩ = true ∧
      (∀ x ∈ [1#64, 2#64, 3#64] ++ [4#64], cfg4.strict = true → isFinite b64 x = true) ∧
      cfg4.taps ≤ [1#64, 2#64, 3#64].length + 1 :=
  ⟨by decide, by decide, by decide, fun x hx _ => every (p := isFinite b64) (by decide) x hx, by decide⟩
theorem witness_NaNInTheWindow :
    mid.wf = true ∧ mid.cfg.strict = false ∧ isNaN b64 0x7FF8000000000000#64 = true ∧
      ({ mid with history := mid.history.set 1 0x7FF8000000000000#64 } : Instance).wf = true ∧
      ∃ x ∈ ({ mid with history := mid.history.set 1 0x7FF8000000000000#64 } : Instance).window.take (mid.cfg.taps - 1),
        isNaN b64 x = true :=
  ⟨by decide, rfl, by decide, by decide, 0x7FF8000000000000#64, by decide, by decide⟩
/-- The infinity just pushed, and one met by the last tap, each with finite products after it; and a zero tap. -/
theorem witness_InfinityInTheWindow :
    mid.wf = true ∧
      (0x7FF0000000000000#64 :: mid.window.take (4 - 1))[0]? = some 0x7FF0000000000000#64 ∧
      isInf Config.binary64 0x7FF0000000000000#64 = true ∧ cfg4.coeff[0]? = some 0x3FF0000000000000#64 ∧
      isZero Config.binary64 0x3FF0000000000000#64 = false ∧
      (List.range 4).all (fun k => k == 0 || isFinite b64 ((binaryFmt Config.binary64 0).fmul
        ((0x7FF0000000000000#64 :: mid.window.take (4 - 1)).getD k 0) (cfg4.coeff.getD k 0))) = true ∧
      Instance.wf ⟨cfg4, [0x7FF0000000000000#64, 0#64, 0#64, 0x4000000000000000#64], 3⟩ = true ∧
      (0x4000000000000000#64 ::
        (Instance.window ⟨cfg4, [0x7FF0000000000000#64, 0#64, 0#64, 0x4000000000000000#64], 3⟩).take (4 - 1))[3]? =
          some 0x7FF0000000000000#64 ∧
      isFinite b64 (firSum (binaryFmt Config.binary64 0) ((0x4000000000000000#64 ::
        (Instance.window ⟨cfg4, [0x7FF0000000000000#64, 0#64, 0#64, 0x4000000000000000#64], 3⟩).take (4 - 1)).take 3)
          (cfg4.coeff.take 3)) = true ∧
      Instance.wf ⟨⟨b64, 1, [0#64], false⟩, [0#64], 0⟩ = true ∧ isZero Config.binary64 0#64 = true := by decide +kernel
theorem witness_OutputsDependOnTheWindow :
    mid.cursor ≠ 1 ∧ mid.wf = true ∧ Instance.wf ⟨cfg4, [0x4000000000000000#64, 0#64, 0#64, 0x3FF0000000000000#64], 1⟩ = true ∧
      mid.window = Instance.window ⟨cfg4, [0x4000000000000000#64, 0#64, 0#64, 0x3FF0000000000000#64], 1⟩ := by decide
/-- For BulkPushIsItsPushes (with a rejected sample and without) and BulkPushWritesOnlyTheSlotsItReaches. -/
theorem witness_BulkPush :
    ([0#64, 0x7FF0000000000000#64].takeWhile last.accepts).length < 2 ∧ ([0#64].takeWhile last.accepts).length = 1 ∧
      (∃ t, exec (.pushv ⟨64, [0#64]⟩) (at' last) = .next t) ∧ ∀ k, k < 1 → (last.cursor + k) % last.cfg.taps ≠ 1 :=
  ⟨by decide, by decide, next_of_after (by decide +kernel), by decide⟩
/-- For StepKeepsTheInvariants and NoStepFaults. -/
theorem witness_StepKeepsTheInvariants : (at' mid).wf = true ∧ ∃ t, step (at' mid) = .next t := ⟨by decide, _, rfl⟩
theorem witness_EveryStepCompletes :
    ∃ s : State, s.inst = some mid ∧ s.wf = true ∧ s.inbox = [HostAction.host (.construct cfg1)] ∧
      (HostAction.host (.construct cfg1)).fits mid.cfg.W = true ∧ (HostAction.command 64 0#65).fits mid.cfg.W = true ∧
      cfg1.taps = 2 ^ 0 ∧ cfg1.fmt.admitted = true ∧ cfg1.coeff.length = cfg1.taps ∧
      ∀ c ∈ cfg1.coeff, isFinite cfg1.fmt c = true :=
  ⟨{ at' mid with inbox := [.host (.construct cfg1)] }, rfl, by decide, rfl, by decide, by decide, rfl, by decide, rfl,
    every (by decide)⟩
theorem witness_OnlyConstruct :
    ∃ s t : State, s.inst = some mid ∧ t.inst = some (Instance.fresh cfg1) ∧ step s = .next t ∧ cfg1 ≠ mid.cfg :=
  ⟨{ at' mid with inbox := [.host (.construct cfg1)] }, _, rfl, rfl, rfl, by decide⟩
theorem witness_StateChanges :
    ∃ s t : State, step s = .next t ∧ t.inst ≠ s.inst :=
  ⟨{ at' mid with inbox := [.command 64 0#65] }, _, rfl, by decide⟩
theorem witness_OneResponse :
    ∃ s : State, s.inst = some last ∧ s.wf = true ∧ s.inFlight = none ∧ s.inbox = [HostAction.command 64 0x17FF0000000000000#65] ∧
      ∃ t, step s = .next t ∧ t.delivered = [.response ⟨64, 0x10000000000000000#65⟩] :=
  ⟨{ at' last with inbox := [.command 64 0x17FF0000000000000#65] }, rfl, by decide, rfl, rfl, _, rfl, by decide⟩
theorem witness_OperationsLeaveTheRest :
    (∃ t, exec .reset (at' mid) = .next t) ∧ (∀ cfg, Instr.reset ≠ .construct cfg) ∧
      (∃ t, exec (.pushv ⟨64, [0#64, 1#64]⟩) (at' mid) = .next t) ∧ (∃ t, exec (.call ⟨64, 0#64⟩) (at' mid) = .next t) :=
  ⟨⟨_, rfl⟩, by simp, next_of_after (by decide +kernel), next_of_after (by decide +kernel)⟩
theorem witness_OffersCount :
    ∃ (s : State) (p q : PinsIn), p ≠ q ∧ p.rst = q.rst ∧ s.inFlight.isSome = true ∧ (p.cmdValid = false ∧ q.cmdValid = false) :=
  ⟨{ at' mid with inFlight := some ⟨64, 0#65, 0⟩ }, ⟨false, false, true, 32, 1#32⟩, ⟨false, false, false, 64, 0#64⟩, by decide, rfl, rfl,
    rfl, rfl⟩
/-- For the second clause of OffersCountOnlyInTheTransferCycle. -/
theorem witness_IdleCycle :
    (at' mid).inst = some mid ∧ (at' mid).inFlight = none ∧ (⟨false, false, true, 64, 7#64⟩ : PinsIn).rst = false ∧
      (⟨false, false, true, 64, 7#64⟩ : PinsIn).cmdValid = false := ⟨rfl, rfl, rfl, rfl⟩
/-- For the clauses of BinaryFormatsAreAdmissible on every format. -/
theorem witness_EveryFormat :
    Format.admitted b64 = true ∧ Format.admitted (.other 16 7) = true ∧ isNaN b64 0x7FF0000000000001#64 = true ∧
      isInfinity b64 0x7FF0000000000000#64 = true ∧ isInfinity b64 0#64 = false := by decide
theorem witness_NoTransferInReset :
    ∃ t, cycle ⟨true, true, true, 64, 0#64⟩ (at' mid) = .next t := ⟨_, rfl⟩
theorem witness_PortsRefine :
    ∃ (s : State) (p : PinsIn) (ps : List PinsIn), s.inst = some mid ∧ mid.wf = true ∧ s.inFlight = none ∧ p.rst = false ∧
      p.cmdValid = true ∧ p.W = mid.cfg.W ∧ (∀ q ∈ ps, q.rst = false) ∧ ps.length = Config.latency s.draws + 1 ∧
      s.inbox = .cycle p :: (ps.map .cycle ++ []) := by
  refine ⟨{ at' mid with inbox := .cycle ⟨false, true, true, 64, 0#64⟩ ::
      ((List.replicate (Config.latency 0 + 1) ⟨false, true, false, 32, 5#32⟩).map .cycle ++ []) },
    ⟨false, true, true, 64, 0#64⟩, List.replicate (Config.latency 0 + 1) ⟨false, true, false, 32, 5#32⟩, rfl, by decide, rfl, rfl, rfl, rfl,
    fun q hq => by rw [List.eq_of_mem_replicate hq], by simp [State.reset], rfl⟩
theorem witness_InstancesAreIndependent :
    ∃ sys', runSystem [0, 1, 0] [{ at' mid with inbox := [.command 64 0#65] }, at' last] = .next sys' := ⟨_, rfl⟩
/-- For IndexTable, TapsPairWithSlotsOneToOne, OneWrapPerPush and MaskIsModuloExactlyForPowersOfTwo. -/
theorem witness_IndexTable :
    (0 < 4 ∧ 3 < 4 ∧ 4 = 2 ^ 2) ∧ (3 + 1 = 4) ∧ (0 + 1 < 4) ∧ (1 + 1 ≤ 3) ∧ (0 < 0 + 1) ∧ (1 ≤ 1 ∧ 1 = 2 ^ 0) := by decide
/-- For ProductsOfSpecialValues and SumsOfSpecialValues, clause by clause. -/
theorem witness_SpecialValues :
    usable Config.binary64 = true ∧ isNaN b64 0x7FF0000000000001#64 = true ∧ isInf Config.binary64 0xFFF0000000000000#64 = true ∧ isZero Config.binary64 0x8000000000000000#64 = true ∧
      isZero Config.binary64 0#64 = true ∧ isNaN b64 1#64 = false ∧ isZero Config.binary64 1#64 = false ∧ isFinite b64 1#64 = true ∧
      (0x7FF0000000000000#64).msb ≠ (0xFFF0000000000000#64).msb ∧ isFinite b64 0x7FEFFFFFFFFFFFFF#64 = true := by decide
theorem witness_InfiniteProduct :
    usable Config.binary64 = true ∧
    isInf Config.binary64 0x7FF0000000000000#64 = true ∧ isFinite b64 0xC000000000000000#64 = true ∧ isZero Config.binary64 0xC000000000000000#64 = false ∧
      isFinite b64 (firSum (fmtAt b64 0) [0x3FF0000000000000#64] [0x4000000000000000#64]) = true ∧
      isFinite b64 ((fmtAt b64 0).fmul 0x3FF0000000000000#64 0x4010000000000000#64) = true := by decide +kernel
theorem witness_NegativeZero :
    (Instance.fresh cfg4).wf = true ∧ (∀ c ∈ cfg4.coeff, c.msb = false ∧ isZero Config.binary64 c = false) ∧
      (Instance.fresh cfg1).wf = true ∧ (∀ c ∈ cfg1.coeff, c.msb = false ∧ isZero Config.binary64 c = false) ∧ cfg1.taps = 1 := by
  refine ⟨by decide, ?_, by decide, ?_, rfl⟩ <;>
    exact fun c hc => by
      have h := every (p := fun c : Word 64 => !c.msb && !isZero Config.binary64 c) (by decide) c hc
      simpa using h
theorem witness_BinaryFormats :
    2 ≤ Config.binary64.expBits ∧ 1 ≤ Config.binary64.fracBits ∧ 64 = 1 + Config.binary64.expBits + Config.binary64.fracBits ∧
      nanNat Config.binary64 (0x7FF8000000000000#64).toNat = true := by decide

/-- Exact rational arithmetic, one more admissible configuration. -/
def exactFmt : Fmt ℚ := ⟨fun a b => a * b, fun a b => a + b, fun _ => true, 0⟩

/-- For AnyFormatConvolves and AnyFormatImpulseResponse. -/
theorem witness_AnyFormat :
    Admissible exactFmt id (fun _ => false) ∧ [(1 : ℚ), 3].length = 2 ^ 1 ∧ (∀ c ∈ [(1 : ℚ), 3], exactFmt.isFinite c = true) ∧
      exactFmt.isFinite 5 = true ∧ exactFmt.fmul 5 3 ≠ 0 := by
  refine ⟨?_, rfl, fun _ _ => rfl, rfl, by norm_num [exactFmt]⟩
  constructor <;> simp +contextual [exactFmt]

theorem valueOf_one : valueOf 0x3FF0000000000000#64 = 1 := by
  have h : signedUnits Config.binary64 (0x3FF0000000000000#64 : Word 64).toNat = 2 ^ 1074 := by
    set_option exponentiation.threshold 2000 in decide +kernel
  have e : unitExp Config.binary64 = 1074 := by decide +kernel
  rw [valueOf, valueIn, h, e, Int.cast_pow, Int.cast_ofNat, div_self (by positivity)]
theorem valueOf_two : valueOf 0x4000000000000000#64 = 2 := by
  have h : signedUnits Config.binary64 (0x4000000000000000#64 : Word 64).toNat = 2 * 2 ^ 1074 := by
    set_option exponentiation.threshold 2000 in decide +kernel
  have e : unitExp Config.binary64 = 1074 := by decide +kernel
  rw [valueOf, valueIn, h, e, Int.cast_mul, Int.cast_pow, Int.cast_ofNat, mul_div_cancel_right₀ _ (by positivity)]
theorem valueOf_huge : valueOf 0x7FE0000000000000#64 = 2 ^ 1023 := by
  have h : signedUnits Config.binary64 (0x7FE0000000000000#64 : Word 64).toNat = 2 ^ 1023 * 2 ^ 1074 := by
    set_option exponentiation.threshold 3000 in decide +kernel
  have e : unitExp Config.binary64 = 1074 := by decide +kernel
  rw [valueOf, valueIn, h, e, Int.cast_mul, Int.cast_pow, Int.cast_pow, Int.cast_ofNat,
    mul_div_cancel_right₀ _ (by positivity)]

theorem four_lt_limit : (4 : ℚ) < 2 ^ 1024 - 2 ^ 970 := by
  have h : (2 : ℚ) ^ 1024 = 2 ^ 970 * 2 ^ 54 := by rw [← pow_add]
  have h1 : (1 : ℚ) ≤ 2 ^ 970 := one_le_pow₀ (by norm_num)
  rw [h]
  generalize (2 : ℚ) ^ 970 = x at h1
  norm_num
  linarith
theorem limit_le : (2 : ℚ) ^ 1024 - 2 ^ 970 ≤ 2 ^ 1023 * 2 := by
  rw [pow_succ (2 : ℚ) 1023]
  exact sub_le_self _ (by positivity)

theorem witness_ProductIsRounded :
    |valueOf 0x3FF0000000000000#64 * valueOf 0x4000000000000000#64| < 2 ^ 1024 - 2 ^ 970 ∧
      2 ^ 1024 - 2 ^ 970 ≤ |valueOf 0x7FE0000000000000#64 * valueOf 0x4000000000000000#64| ∧
      isInf Config.binary64 0x7FF0000000000000#64 = true ∧ isZero Config.binary64 0x8000000000000000#64 = true := by
  refine ⟨?_, ?_, by decide, by decide⟩
  · rw [valueOf_one, valueOf_two, abs_of_pos (by norm_num)]
    exact lt_trans (by norm_num) four_lt_limit
  · rw [valueOf_huge, valueOf_two, abs_of_pos (by positivity)]
    exact limit_le
theorem witness_SumIsRounded :
    valueOf 0x3FF0000000000000#64 + valueOf 0x4000000000000000#64 ≠ 0 ∧
      |valueOf 0x3FF0000000000000#64 + valueOf 0x4000000000000000#64| < 2 ^ 1024 - 2 ^ 970 ∧
      2 ^ 1024 - 2 ^ 970 ≤ |valueOf 0x7FE0000000000000#64 + valueOf 0x7FE0000000000000#64| := by
  refine ⟨?_, ?_, ?_⟩
  · rw [valueOf_one, valueOf_two]; norm_num
  · rw [valueOf_one, valueOf_two, abs_of_pos (by norm_num)]
    exact lt_trans (by norm_num) four_lt_limit
  · rw [valueOf_huge, abs_of_pos (by positivity), ← mul_two]
    exact limit_le

end Sys2Proof.Tests
end

section
/-! What a step can do to the instance, the configuration and the command in progress (10_state.md rules R13, R14, R22),
with the statements that follow from it. -/

namespace Sys2Proof.Proofs

open Sys2Proof.Machine Sys2Proof.Laws

/-! One inversion for each shared operation: what it has done where it answers a next state. -/

/-- Everything one PUSH that answers can have done, on any instance. -/
theorem pushOne_next {s : State} {W : Nat} {w : Word W} {r : State × RspWord W} (h : pushOne W w s = .next r) :
    ∃ i, s.inst = some i ∧ W = i.cfg.W ∧
      (r.1 = raiseInvalidSample i.cfg.W s ∨ ∃ hist cursor acc, r.1 = respond ⟨i.cfg.W, rspWord false acc⟩
        { s with inst := some { i with history := hist, cursor := cursor }, draws := s.draws + 1 }) := by
  unfold pushOne at h
  split at h
  · cases h
  · next i hi =>
    refine ⟨i, hi, ?_⟩
    split at h
    · next hW =>
      refine ⟨hW, ?_⟩
      split at h
      · cases h; exact .inl rfl
      · cases h
      · next hist cursor acc _ => cases h; exact .inr ⟨hist, cursor, acc, rfl⟩
    · cases h

theorem hardwareReset_next {s t : State} (h : hardwareReset s = .next t) :
    ∃ i, s.inst = some i ∧ t = { heldInReset i s with pins := { cmdReady := true, rsp := none } } := by
  unfold hardwareReset at h
  split at h
  · cases h
  · next i hi => cases h; exact ⟨i, hi, rfl⟩

theorem notReady_next {o : Host.Outcome State Fault Refusal} {t : State} (h : notReady o = .next t) :
    ∃ u, o = .next u ∧ t = { u with pins := { u.pins with cmdReady := false } } := by
  cases o with
  | next u => cases h; exact ⟨u, rfl, rfl⟩
  | fault f => cases h
  | refused r => cases h

/-- What a clock cycle with input ports `p` can do to a machine `s` with the instance `i` (30_encoding.md rules R51, R52;
70_reset_and_hazards.md rules R160, R168, R170). -/
inductive CycleDoes (p : PinsIn) (i : Instance) (s : State) : State → Prop
  | held (hr : p.rst = true) : CycleDoes p i s (heldInReset i s)
  | answers (c : InFlight) (u : State) (hr : p.rst = false) (hc : s.inFlight = some c) (hw : c.wait = 0)
      (hu : finish c s = .next u) : CycleDoes p i s { u with pins := { u.pins with cmdReady := false } }
  | waits (c : InFlight) (wait : Nat) (hr : p.rst = false) (hc : s.inFlight = some c) (hw : c.wait = wait + 1) :
      CycleDoes p i s { s with
        inFlight := some { c with wait := wait }, pins := { cmdReady := false, rsp := none } }
  | idles (hr : p.rst = false) (hc : s.inFlight = none) : CycleDoes p i s (idle s)
  | takes (hr : p.rst = false) (hc : s.inFlight = none) (hW : p.W = i.cfg.W) :
      CycleDoes p i s { s with
        inFlight := some { W := p.W, cw := p.word, wait := Config.latency s.draws }
        pins := { cmdReady := true, rsp := none }
        draws := s.draws + 1 }

theorem cycle_next {p : PinsIn} {s t : State} (h : cycle p s = .next t) : ∃ i, s.inst = some i ∧ CycleDoes p i s t := by
  unfold cycle at h
  split at h
  · cases h
  · next i hi =>
    refine ⟨i, hi, ?_⟩
    split at h
    · next hr => cases h; exact .held hr
    · next hr =>
      have hr : p.rst = false := by simpa using hr
      split at h
      · next c hc =>
        split at h
        · next hw => obtain ⟨u, hu, rfl⟩ := notReady_next h; exact .answers c u hr hc hw hu
        · next wait hw => cases h; exact .waits c wait hr hc hw
      · next hc =>
        split at h
        · cases h; exact .idles hr hc
        · split at h
          · next hW => cases h; exact .takes hr hc hW
          · cases h

/-! The step, by what is in progress and what is pending. -/

theorem step_busy {s : State} {c : InFlight} (hc : s.inFlight = some c) : step s = whileBusy c s := by
  simp [step, advance, hc]

theorem step_idle {s : State} (hc : s.inFlight = none) (hb : s.inbox = []) : step s = .next (idle s) := by
  simp [step, advance, hc, hb]

theorem step_perform {s : State} {a : HostAction} {rest : List HostAction} (hc : s.inFlight = none)
    (hb : s.inbox = a :: rest) : step s = perform a { s with inbox := rest } := by
  simp [step, advance, hc, hb]

/-! The instance a step without CONSTRUCT leaves. -/

/-- `t` has an instance exactly where `s` has one, of the same configuration, well formed where that one is; without one
the ports are as they were. -/
def SameBuild (s t : State) : Prop :=
  (s.inst = none ∧ t.inst = none ∧ t.pins = s.pins) ∨
    ∃ i j, s.inst = some i ∧ t.inst = some j ∧ j.cfg = i.cfg ∧ (i.wf = true → j.wf = true)

theorem SameBuild.of_eq {s t : State} (hi : t.inst = s.inst) (hp : t.pins = s.pins) : SameBuild s t := by
  cases h : s.inst with
  | none => exact .inl ⟨h, hi.trans h, hp⟩
  | some i => exact .inr ⟨i, i, h, hi.trans h, rfl, id⟩

theorem SameBuild.trans {s t u : State} (h₁ : SameBuild s t) (h₂ : SameBuild t u) : SameBuild s u := by
  rcases h₁ with ⟨hs, ht, hp⟩ | ⟨i, j, hs, ht, hc, hw⟩
  · rcases h₂ with ⟨-, hu, hp'⟩ | ⟨j, k, ht', -⟩
    · exact .inl ⟨hs, hu, hp'.trans hp⟩
    · cases ht.symm.trans ht'
  · rcases h₂ with ⟨ht', -⟩ | ⟨j', k, ht', hu, hc', hw'⟩
    · cases ht.symm.trans ht'
    · cases ht.symm.trans ht'
      exact .inr ⟨i, k, hs, hu, hc'.trans hc, hw' ∘ hw⟩

/-- Where an instance exists the ports are free to change. -/
theorem SameBuild.of_inst_eq {s t u : State} {i : Instance} (hi : s.inst = some i) (h : SameBuild s t)
    (hu : u.inst = t.inst) : SameBuild s u := by
  rcases h with ⟨hs, -⟩ | ⟨i, j, hs, ht, hc⟩
  · cases hi.symm.trans hs
  · exact .inr ⟨i, j, hs, hu.trans ht, hc⟩

theorem SameBuild.of_cleared {s t : State} {i : Instance} (hi : s.inst = some i) (ht : t.inst = some i.cleared) :
    SameBuild s t := .inr ⟨i, i.cleared, hi, ht, rfl, wf_cleared⟩

theorem pushOne_sameBuild {s : State} {W : Nat} {w : Word W} {r : State × RspWord W} (h : pushOne W w s = .next r) :
    SameBuild s r.1 ∧ r.1.inFlight = s.inFlight := by
  obtain ⟨i, hi, rfl, hr⟩ := pushOne_next h
  have hbuilt : ∃ j, r.1.inst = some j ∧ j.cfg = i.cfg ∧ r.1.inFlight = s.inFlight := by
    rcases hr with hr | ⟨hist, cursor, acc, hr⟩ <;> rw [hr]
    · exact ⟨i, hi, rfl, rfl⟩
    · exact ⟨_, rfl, rfl, rfl⟩
  obtain ⟨j, hj, hc, hf⟩ := hbuilt
  refine ⟨.inr ⟨i, j, hi, hj, hc, fun hw => ?_⟩, hf⟩
  obtain ⟨r', j', hr', hj', hw', -⟩ := pushOne_goes w hi hw
  cases h.symm.trans hr'
  cases hj.symm.trans hj'
  exact hw'

theorem pushState_sameBuild {s t : State} {W : Nat} {w : Word W} (h : pushState W w s = .next t) :
    SameBuild s t ∧ t.inFlight = s.inFlight := by
  obtain ⟨rw, h⟩ := pushState_next h
  exact pushOne_sameBuild h

theorem pushLoop_sameBuild {W : Nat} (ws : List (Word W)) : ∀ (ys : List (Word W)) {s t : State},
    pushLoop W ws ys s = .next t → SameBuild s t ∧ t.inFlight = s.inFlight := by
  induction ws with
  | nil => intro ys s t h; cases h; exact ⟨.of_eq rfl rfl, rfl⟩
  | cons w ws ih =>
    intro ys s t h
    unfold pushLoop at h
    split at h
    · next s' rw' hp =>
      obtain ⟨hb, hf⟩ := pushOne_sameBuild hp
      split at h
      · cases h; exact ⟨hb.trans (.of_eq rfl rfl), hf⟩
      · obtain ⟨hb', hf'⟩ := ih _ h
        exact ⟨hb.trans hb', hf'.trans hf⟩
    · cases h
    · cases h

/-- Every operation but CONSTRUCT keeps what was built, and the command in progress (10_state.md rule R13). -/
theorem exec_sameBuild {op : Instr} {s t : State} (hop : ∀ cfg, op ≠ .construct cfg) (h : exec op s = .next t) :
    SameBuild s t ∧ t.inFlight = s.inFlight := by
  cases op with
  | construct cfg => exact absurd rfl (hop cfg)
  | reset =>
    obtain ⟨i, hi, rfl⟩ := execReset_next h
    exact ⟨.of_cleared hi rfl, rfl⟩
  | push v => exact pushState_sameBuild h
  | pushv vs => exact pushLoop_sameBuild vs.words [] h
  | call v => exact pushState_sameBuild h

/-! The same with the command in progress: a step without CONSTRUCT. -/

/-- `t` goes on from `s` with what was built, and a command in progress in `t` came from a port of the width of one in
progress in `s`, or of the width of the instance. -/
def Continues (s t : State) : Prop :=
  SameBuild s t ∧ ∀ c ∈ t.inFlight, (∃ d ∈ s.inFlight, c.W = d.W) ∨ ∃ i, s.inst = some i ∧ c.W = i.cfg.W

theorem Continues.of_inFlight_none {s t : State} (h : SameBuild s t) (hf : t.inFlight = none) : Continues s t :=
  ⟨h, by simp [hf]⟩

theorem Continues.of_inFlight_eq {s t : State} (h : SameBuild s t) (hf : t.inFlight = s.inFlight) : Continues s t :=
  ⟨h, fun c hc => .inl ⟨c, hf ▸ hc, rfl⟩⟩

/-- The invariants of 10_state.md rule R14 stay where what was built stays. -/
theorem Continues.wf {s t : State} (h : Continues s t) (hs : s.wf = true) : t.wf = true := by
  obtain ⟨⟨hi, ht, hp⟩ | ⟨i, j, hi, hj, hc, hw⟩, hf⟩ := h
  · obtain ⟨hn, hpins⟩ := (state_wf_none hi).mp hs
    refine (state_wf_none ht).mpr ⟨Option.eq_none_iff_forall_not_mem.mpr fun c hm => ?_, hp.trans hpins⟩
    simpa [hn, hi] using hf c hm
  · obtain ⟨hwi, hWi⟩ := (state_wf_iff hi).mp hs
    refine (state_wf_iff hj).mpr ⟨hw hwi, fun c hm => ?_⟩
    rw [hc]
    rcases hf c hm with ⟨d, hd, hcd⟩ | ⟨i', hi', hci⟩
    · exact hcd.trans (hWi d hd)
    · cases hi.symm.trans hi'
      exact hci

theorem exec_continues {op : Instr} {s t : State} (hop : ∀ cfg, op ≠ .construct cfg) (h : exec op s = .next t) :
    Continues s t := by
  obtain ⟨hb, hf⟩ := exec_sameBuild hop h
  exact .of_inFlight_eq hb hf

theorem finish_continues {c : InFlight} {s t : State} (h : finish c s = .next t) : Continues s t := by
  obtain ⟨hb, hf⟩ := exec_sameBuild (decode_ne_construct c.cw) h
  exact .of_inFlight_none hb hf

theorem hardwareReset_continues {s t : State} (h : hardwareReset s = .next t) : Continues s t := by
  obtain ⟨i, hi, rfl⟩ := hardwareReset_next h
  exact .of_inFlight_none (.of_cleared hi rfl) rfl

theorem cycle_continues {p : PinsIn} {s t : State} (h : cycle p s = .next t) : Continues s t := by
  obtain ⟨i, hi, hd⟩ := cycle_next h
  have hkept : ∀ {u : State}, u.inst = s.inst → SameBuild s u := SameBuild.of_inst_eq hi (.of_eq rfl rfl)
  cases hd with
  | held _ => exact .of_inFlight_none (.of_cleared hi rfl) rfl
  | answers c u _ _ _ hu =>
    obtain ⟨hb, hf⟩ := finish_continues hu
    exact ⟨hb.of_inst_eq hi rfl, hf⟩
  | waits c wait _ hc _ =>
    refine ⟨hkept rfl, fun d hd => .inl ⟨c, hc, ?_⟩⟩
    cases hd
    rfl
  | idles _ _ => exact .of_inFlight_eq (hkept (idle_inst s)) (idle_inFlight s)
  | takes _ _ hW =>
    refine ⟨hkept rfl, fun d hd => .inr ⟨i, hi, ?_⟩⟩
    cases hd
    exact hW

/-- A step that is no CONSTRUCT of the host goes on with what was built. -/
theorem step_next {s t : State} (h : step s = .next t) : Continues s t ∨
    (s.inFlight = none ∧ ∃ cfg rest, s.inbox = .host (.construct cfg) :: rest ∧
      execConstruct cfg { s with inbox := rest } = .next t) := by
  cases hf : s.inFlight with
  | some c =>
    left
    rw [step_busy hf] at h
    unfold whileBusy at h
    split at h
    · next p rest _ => exact cycle_continues (s := { s with inbox := rest }) h
    · next rest _ => exact hardwareReset_continues (s := { s with inbox := rest }) h
    · exact finish_continues h
  | none =>
    cases hb : s.inbox with
    | nil =>
      rw [step_idle hf hb] at h
      cases h
      refine .inl (.of_inFlight_eq ?_ (idle_inFlight s))
      cases hi : s.inst with
      | none => exact .of_eq (idle_inst s) (by rw [idle_none hi])
      | some i => exact SameBuild.of_inst_eq hi (.of_eq rfl rfl) (idle_inst s)
    | cons a rest =>
      rw [step_perform hf hb] at h
      cases a with
      | command W cw => exact .inl (exec_continues (s := { s with inbox := rest }) (decode_ne_construct cw) h)
      | host op =>
        by_cases hop : ∃ cfg, op = .construct cfg
        · obtain ⟨cfg, rfl⟩ := hop
          exact .inr ⟨rfl, cfg, rest, rfl, h⟩
        · exact .inl (exec_continues (s := { s with inbox := rest }) (fun cfg hc => hop ⟨cfg, hc⟩) h)
      | hardwareReset => exact .inl (hardwareReset_continues (s := { s with inbox := rest }) h)
      | cycle p => exact .inl (cycle_continues (s := { s with inbox := rest }) h)

/-- Settles O35: a step goes on with what was built, or is a CONSTRUCT, which answers well formed. -/
theorem stepKeepsTheInvariants : Obligations.StepKeepsTheInvariants := by
  intro s t hs h
  rcases step_next h with hc | ⟨-, cfg, rest, -, hcon⟩
  · exact hc.wf hs
  · exact execConstruct_wf hcon

/-- Settles O38: the configuration is one of the things a step without CONSTRUCT keeps. -/
theorem onlyConstructWritesTheConfiguration : Obligations.OnlyConstructWritesTheConfiguration := by
  intro s t i i' hi hi' h hne
  rcases step_next h with ⟨⟨hn, -⟩ | ⟨k, k', hk, hk', hcfg, -⟩, -⟩ | ⟨hf, cfg, rest, hb, hcon⟩
  · cases hi.symm.trans hn
  · cases hi.symm.trans hk
    cases hi'.symm.trans hk'
    exact absurd hcfg hne
  · refine ⟨hf, cfg, rest, hb, ?_⟩
    rcases execConstruct_next hcon with ⟨-, rfl⟩ | ⟨-, -, rfl⟩
    · cases hi'
    · exact (Option.some.inj hi').symm

/-- A clock cycle without a reset and without a command in progress leaves the instance (60_exceptions.md rule R139). -/
theorem cycle_inst_of_noCommand {p : PinsIn} {s t : State} (hf : s.inFlight = none) (hr : p.rst = false)
    (h : cycle p s = .next t) : t.inst = s.inst := by
  obtain ⟨i, hi, hd⟩ := cycle_next h
  cases hd with
  | held hr' => cases hr.symm.trans hr'
  | answers c u _ hc _ _ => cases hf.symm.trans hc
  | waits c wait _ hc _ => cases hf.symm.trans hc
  | idles _ _ => exact idle_inst s
  | takes _ _ _ => rfl

/-- Settles O39: what is left beside the interactions it names is the idle engine and a cycle without a reset. -/
theorem stateChangesOnlyByTheOperations : Obligations.StateChangesOnlyByTheOperations := by
  intro s t h hne
  cases hf : s.inFlight with
  | some c => exact .inl rfl
  | none =>
    right
    cases hb : s.inbox with
    | nil =>
      rw [step_idle hf hb] at h
      cases h
      exact absurd (idle_inst s) hne
    | cons a rest =>
      refine ⟨a, rest, rfl, ?_⟩
      rw [step_perform hf hb] at h
      cases a with
      | command W cw => exact .inl ⟨W, cw, rfl⟩
      | host op => exact .inr (.inl ⟨op, rfl⟩)
      | hardwareReset => exact .inr (.inr (.inl rfl))
      | cycle p =>
        refine .inr (.inr (.inr ⟨p, rfl, ?_⟩))
        cases hr : p.rst with
        | true => rfl
        | false => exact absurd (cycle_inst_of_noCommand (s := { s with inbox := rest }) hf hr h) hne

/-- Settles O9: such a step is the idle engine, which changes the ports at most. -/
theorem nothingHappensBetweenCommands : Obligations.NothingHappensBetweenCommands := by
  intro s hf hb
  refine ⟨idle s, step_idle hf hb, idle_inst s, idle_delivered s, by rw [idle_inbox, hb], by rw [idle_inFlight, hf],
    fun i hi => ?_, idle_none⟩
  rw [idle_some hi]

theorem resetConfig_ofSpec : resetConfig.ofSpec = true := by
  have ha : resetConfig.fmt.admitted = true := by decide
  have hl : resetConfig.tableFits = true := by decide
  rw [FilterConfig.ofSpec, ha, hl, resetConfig_tapsFinite]
  rfl

/-- Settles O34: the reset state holds the construction state of a configuration of the spec. -/
theorem resetStateIsWellFormed : Obligations.ResetStateIsWellFormed :=
  (state_wf_iff rfl).mpr ⟨wf_fresh (by decide) resetConfig_ofSpec, by simp [State.reset]⟩

end Sys2Proof.Proofs
end

section
/-! What the slots of an instance hold after any pushes (10_state.md rule R15). -/

namespace Sys2Proof.Proofs

open Sys2Proof.Machine Sys2Proof.Laws

/-! PUSH as an operation on a machine with a well-formed instance. -/

theorem accepts_iff {i : Instance} {v : Word i.cfg.W} :
    i.accepts v = true ↔ (i.cfg.strict = true → isFinite i.cfg.fmt v = true) := by
  unfold Instance.accepts
  cases i.cfg.strict <;> simp

theorem execPush_accepted {s : State} {i : Instance} {v : Word i.cfg.W} (hi : s.inst = some i) (hw : i.wf = true)
    (ha : i.accepts v = true) :
    exec (.push ⟨i.cfg.W, v⟩) s = .next (respond ⟨i.cfg.W, rspWord false (i.output s.draws v)⟩
      { s with inst := some (i.pushed v), draws := s.draws + 1 }) := by
  simp [exec, execPush, pushState, pushOne_accepted hi hw ha]

theorem execPush_rejected {s : State} {i : Instance} {v : Word i.cfg.W} (hi : s.inst = some i)
    (ha : i.accepts v = false) : exec (.push ⟨i.cfg.W, v⟩) s = .next (raiseInvalidSample i.cfg.W s) := by
  simp [exec, execPush, pushState, pushOne_rejected hi ha]

theorem window_length (i : Instance) : i.window.length = i.cfg.taps := ringWindow_length _ _ _ _

/-- 10_state.md rule R15, second form. -/
theorem window_pushed {i : Instance} (hw : i.wf = true) (v : Word i.cfg.W) :
    (i.pushed v).window = v :: i.window.take (i.cfg.taps - 1) := by
  obtain ⟨hp, hh, -, hc, -⟩ := (wf_iff i).mp hw
  exact ringWindow_push (zeroWord i.cfg.fmt) hp hh hc v

/-- Settles O20: an accepted PUSH leaves `i.pushed v`. -/
theorem pushShiftsTheWindow : Obligations.PushShiftsTheWindow := by
  intro s i v hi hw hv
  exact ⟨_, _, _, execPush_accepted hi hw (accepts_iff.mpr hv), rfl, window_pushed hw v, window_length i⟩

/-! The content law of a ring of any words. -/

section Ring

variable {α : Type} {z : α} {taps : Nat} {ys hist : List α} {c : Nat}

/-- A ring of `taps` slots into which the words `ys` were written one after the other, from all slots `z`: the first form
of the content law (10_state.md rule R15). -/
structure RingHolds (z : α) (taps : Nat) (ys hist : List α) (c : Nat) : Prop where
  length_eq : hist.length = taps
  cursor_eq : c = ys.length % taps
  recent : ∀ m, m < ys.length → ys.length ≤ m + taps → hist[m % taps]? = ys[m]?
  untouched : ∀ j, j < taps → ys.length ≤ j → hist[j]? = some z

theorem RingHolds.fresh (z : α) (taps : Nat) : RingHolds z taps [] (List.replicate taps z) 0 where
  length_eq := by simp
  cursor_eq := by simp
  recent := by simp
  untouched j hj _ := by simp [hj]

/-- Numbers less than `taps` apart have different slots. -/
theorem mod_ne_mod_of_lt {m p taps : Nat} (h₁ : m < p) (h₂ : p < m + taps) : m % taps ≠ p % taps := by
  intro h
  have hdvd : taps ∣ p - m := (Nat.modEq_iff_dvd' h₁.le).mp h
  have := Nat.le_of_dvd (by omega) hdvd
  omega

theorem RingHolds.push (hp : isPowerOfTwo taps = true) (h : RingHolds z taps ys hist c) (y : α) :
    RingHolds z taps (ys ++ [y]) (hist.set c y) (nextIndex c (maskOf taps)) := by
  have hpos := isPowerOfTwo_pos hp
  obtain ⟨hlen, rfl, hrec, hun⟩ := h
  have hc : ys.length % taps < hist.length := by rw [hlen]; exact Nat.mod_lt _ hpos
  constructor
  case length_eq => simpa using hlen
  case cursor_eq => simp [nextIndex_eq hp, Nat.mod_add_mod]
  case recent =>
    intro m hm hm'
    simp only [List.length_append, List.length_singleton] at hm hm'
    rcases Nat.lt_succ_iff_lt_or_eq.mp hm with hlt | rfl
    · rw [List.getElem?_set_ne (mod_ne_mod_of_lt hlt (by omega)).symm, List.getElem?_append_left hlt,
        hrec m hlt (by omega)]
    · simp [hc]
  case untouched =>
    intro j hj hj'
    simp only [List.length_append, List.length_singleton] at hj'
    have hne : ys.length % taps ≠ j := by rw [Nat.mod_eq_of_lt (by omega)]; omega
    rw [List.getElem?_set_ne hne, hun j hj (by omega)]

/-- The slot of tap `j` after `p` words, as a remainder. -/
theorem tapSlot_mod (hp : isPowerOfTwo taps = true) (p j : Nat) :
    (tapSlot (p % taps) (maskOf taps) j : Int) = ((p : Int) - 1 - j) % taps := by
  rw [tapSlot, wrap_eq_mod hp, Int.natCast_mod, Int.sub_sub, Int.emod_sub_emod, ← Int.sub_sub]

theorem tapSlot_mod_of_lt (hp : isPowerOfTwo taps = true) {p j : Nat} (h : j < p) :
    tapSlot (p % taps) (maskOf taps) j = (p - 1 - j) % taps := by
  have hslot := tapSlot_mod hp p j
  rw [show (p : Int) - 1 - j = ((p - 1 - j : Nat) : Int) by omega] at hslot
  exact_mod_cast hslot

theorem tapSlot_mod_of_le (hp : isPowerOfTwo taps = true) {p j : Nat} (h : p ≤ j) (hj : j < taps) :
    tapSlot (p % taps) (maskOf taps) j = p + taps - 1 - j := by
  have hslot := tapSlot_mod hp p j
  rw [← Int.add_emod_right, Int.emod_eq_of_lt (by omega) (by omega)] at hslot
  omega

/-- The second form of the content law follows from the first. -/
theorem RingHolds.getElem?_tapSlot (hp : isPowerOfTwo taps = true) (h : RingHolds z taps ys hist c) {j : Nat} (hj : j < taps) :
    hist[tapSlot c (maskOf taps) j]? = if j < ys.length then ys[ys.length - 1 - j]? else some z := by
  obtain ⟨-, rfl, hrec, hun⟩ := h
  split
  · next hlt => rw [tapSlot_mod_of_lt hp hlt, hrec _ (by omega) (by omega)]
  · next hle =>
    rw [tapSlot_mod_of_le hp (by omega) hj]
    exact hun _ (by omega) (by omega)

end Ring

/-! The content law on the machine. -/

/-- Pushes on an instance whose ring holds `zs` leave a ring that holds `zs` and the samples accepted. -/
theorem execAll_pushes_holds {cfg : FilterConfig} (xs : List (Word cfg.W)) :
    ∀ (zs : List (Word cfg.W)) {s : State} {hist : List (Word cfg.W)} {c : Nat},
      s.inst = some ⟨cfg, hist, c⟩ → (⟨cfg, hist, c⟩ : Instance).wf = true →
      RingHolds (zeroWord cfg.fmt) cfg.taps zs hist c →
      ∃ t hist' c', execAll (pushes xs) s = .next t ∧ t.inst = some ⟨cfg, hist', c'⟩ ∧
        RingHolds (zeroWord cfg.fmt) cfg.taps (zs ++ xs.filter fun x => !cfg.strict || isFinite cfg.fmt x) hist' c' := by
  induction xs with
  | nil => intro zs s hist c hi _ hr; exact ⟨s, hist, c, rfl, hi, by simpa using hr⟩
  | cons x xs ih =>
    intro zs s hist c hi hw hr
    have haccepts : (!cfg.strict || isFinite cfg.fmt x) = Instance.accepts ⟨cfg, hist, c⟩ x := by
      simp [Instance.accepts]
    cases ha : Instance.accepts ⟨cfg, hist, c⟩ x with
    | true =>
      obtain ⟨t, hist', c', ht, hit, hr'⟩ := ih (zs ++ [x])
        (s := respond ⟨cfg.W, rspWord false (Instance.output ⟨cfg, hist, c⟩ s.draws x)⟩
          { s with inst := some (Instance.pushed ⟨cfg, hist, c⟩ x), draws := s.draws + 1 })
        rfl (wf_pushed hw ha) (hr.push ((wf_iff _).mp hw).1 x)
      refine ⟨t, hist', c', ?_, hit, by simpa [haccepts, ha] using hr'⟩
      rw [pushes, List.map_cons, execAll, execPush_accepted hi hw ha]
      exact ht
    | false =>
      obtain ⟨t, hist', c', ht, hit, hr'⟩ := ih zs (s := raiseInvalidSample cfg.W s) hi hw hr
      refine ⟨t, hist', c', ?_, hit, by simpa [haccepts, ha] using hr'⟩
      rw [pushes, List.map_cons, execAll, execPush_rejected hi ha]
      exact ht

/-- Settles O23: the construction state holds no samples, and pushes add those accepted. -/
theorem contentLaw : Obligations.ContentLaw := by
  intro s cfg xs hi hw ys p
  obtain ⟨t, hist, cursor, ht, hit, hr⟩ := execAll_pushes_holds xs [] hi hw (.fresh _ _)
  exact ⟨t, hist, cursor, ht, hit, hr.cursor_eq, hr.recent, hr.untouched, fun j hj => hr.getElem?_tapSlot ((wf_iff _).mp hw).1 hj⟩

end Sys2Proof.Proofs
end

section
/-! Instances side by side (10_state.md rule R20; 60_exceptions.md rule R144). -/

namespace Sys2Proof.Proofs

open Sys2Proof.Machine

theorem run_succ {s t : State} (h : step s = .next t) (n : Nat) :
    Host.Core.run Sys2Proof.core (n + 1) s = Host.Core.run Sys2Proof.core n t := by
  have hcore : Sys2Proof.core.step s = .next t := h
  simp only [Host.Core.run, hcore]

/-- A step of the joint run is one step of the instance it names and leaves every other one. -/
theorem stepInstance_next {k : Nat} {sys sys' : List State} (h : stepInstance k sys = .next sys') :
    ∃ s t, sys[k]? = some s ∧ step s = .next t ∧ sys' = sys.set k t := by
  unfold stepInstance at h
  split at h
  · cases h
  · next s hs =>
    split at h
    · next t ht => cases h; exact ⟨s, t, hs, ht, rfl⟩
    · cases h
    · cases h

theorem runSystem_cons_next {k : Nat} {ks : List Nat} {sys sys' : List State} (h : runSystem (k :: ks) sys = .next sys') :
    ∃ mid, stepInstance k sys = .next mid ∧ runSystem ks mid = .next sys' := by
  unfold runSystem at h
  split at h
  · next mid hm => exact ⟨mid, hm, h⟩
  · cases h
  · cases h

/-- Settles O45, by induction on the schedule: its first entry is the first step of the instance it names. -/
theorem instancesAreIndependent : Obligations.InstancesAreIndependent := by
  intro sched
  induction sched with
  | nil =>
    intro sys sys' h
    cases h
    exact ⟨rfl, fun k s hs => ⟨s, rfl, hs⟩⟩
  | cons k₀ ks ih =>
    intro sys sys' h
    obtain ⟨mid, hm, hrun⟩ := runSystem_cons_next h
    obtain ⟨s₀, t₀, hs₀, hstep, rfl⟩ := stepInstance_next hm
    obtain ⟨hlen, hown⟩ := ih _ _ hrun
    refine ⟨by simpa using hlen, fun k s hs => ?_⟩
    by_cases hk : k₀ = k
    · subst hk
      cases hs₀.symm.trans hs
      have hlt : k₀ < sys.length := (List.getElem?_eq_some_iff.mp hs₀).1
      rw [List.count_cons_self, run_succ hstep]
      exact hown k₀ t₀ (List.getElem?_set_self hlt)
    · rw [List.count_cons_of_ne hk]
      exact hown k s (by rw [List.getElem?_set_ne hk, hs])

end Sys2Proof.Proofs
end

section
/-! What the step takes from the port, what a PUSH overwrites, and that nothing reaches a slot that does not exist
(20_memory.md rules R34, R37, R41, R42). -/

namespace Sys2Proof.Proofs

open Sys2Proof.Machine Sys2Proof.Laws

/-! The command the step takes. -/

/-- Settles O5: performing a command is executing its decoding. -/
theorem stepRunsTheCommandOnThePort : Obligations.StepRunsTheCommandOnThePort :=
  fun _ _ _ _ hf hb => step_perform hf hb

/-- A word offered is taken by the very next step, which leaves the rest of the inbox. -/
theorem step_offer (W : Nat) (cw : CmdWord W) (s : State) :
    step (s.offer W cw) = exec (decode cw) { s with inFlight := none } :=
  stepRunsTheCommandOnThePort _ W cw s.inbox (offer_inFlight W cw s) (offer_inbox W cw s)

/-- What the table decoder reads, the decoder of the port reads (30_encoding.md rules R53, R59). -/
theorem decode_of_decodeTableWord {nbits w : Nat} {op : Instr} (h : decodeTableWord nbits w = some op) :
    decode (W := 64) (BitVec.ofNat 65 (w % 2 ^ nbits)) = op := by
  unfold decodeTableWord at h
  split at h
  · cases h
  · split at h
    · exact Option.some.inj h
    · cases h

/-- Settles O7: the word offered decodes to what the table decoder read. -/
theorem stepRunsTheWordOffered : Obligations.StepRunsTheWordOffered := by
  intro s nbits w op h
  rw [State.withFetchWord, step_offer, decode_of_decodeTableWord h]

/-! The slot a PUSH overwrites. -/

/-- A write hides whatever stood in its slot. -/
theorem memWrite_set_same {α : Type} (mem : List α) (i : Nat) (w v : α) : memWrite (mem.set i w) i v = memWrite mem i v := by
  simp [memWrite]

/-- The ring reads its history only after the write (41_push.md rules R87, R89). -/
theorem pushRing_set_cursor {α : Type} (F : Fmt α) (strict : Bool) (taps : Nat) (coeff hist : List α) (c : Nat) (w v : α) :
    pushRing F strict taps coeff (hist.set c w) c v = pushRing F strict taps coeff hist c v := by
  simp only [pushRing, memWrite_set_same]

/-- Step 0 rejects what the instance does not accept; no draw decides it (41_push.md rule R86). -/
theorem rejects_eq_not_accepts (i : Instance) (k : Nat) (v : Word i.cfg.W) :
    rejects (fmtAt i.cfg.fmt k) i.cfg.strict v = !i.accepts v := by
  simp [rejects, Instance.accepts]

/-- Settles O21: the ring answers the same, and what an accepted PUSH answers replaces the whole history. -/
theorem overwrittenSlotIsNotRead : Obligations.OverwrittenSlotIsNotRead := by
  intro s i v w hi hw hv
  obtain ⟨hp, hh, hl, hc, -⟩ := (wf_iff i).mp hw
  have hr : rejects (fmtAt i.cfg.fmt s.draws) i.cfg.strict v = false := by
    rw [rejects_eq_not_accepts, accepts_iff.mpr hv, Bool.not_true]
  have hring := pushRing_done (fmtAt i.cfg.fmt s.draws) (zeroWord i.cfg.fmt) hp hh hl hc hr
  simp only [exec, execPush, pushState, pushOne, hi, if_true, BitVec.setWidth_eq, pushRing_set_cursor, hring]

/-! No fault from a well-formed state. A push is the only operation that can fault, and it always finds its slots. -/

/-- Abandoning or answering the command in progress keeps a state well formed. -/
theorem wf_inFlight_none {s : State} (hs : s.wf = true) : State.wf { s with inFlight := none } = true :=
  (Continues.of_inFlight_none (s := s) (t := { s with inFlight := none }) (.of_eq rfl rfl) rfl).wf hs

theorem pushOne_ne_fault {s : State} (hs : s.wf = true) (W : Nat) (w : Word W) (f : Fault) : pushOne W w s ≠ .fault f := by
  cases hi : s.inst with
  | none => simp [pushOne_noInstance w hi]
  | some i =>
    by_cases hW : W = i.cfg.W
    · subst hW
      obtain ⟨r, -, hr, -⟩ := pushOne_goes w hi ((state_wf_iff hi).mp hs).1
      simp [hr]
    · simp [pushOne_foreign w hi hW]

theorem pushState_ne_fault {s : State} (hs : s.wf = true) (W : Nat) (w : Word W) (f : Fault) :
    pushState W w s ≠ .fault f := by
  unfold pushState
  split
  · simp
  · next g hg => exact absurd hg (pushOne_ne_fault hs W w g)
  · simp

theorem pushLoop_ne_fault {W : Nat} (ws : List (Word W)) : ∀ (ys : List (Word W)) {s : State}, s.wf = true →
    ∀ f, pushLoop W ws ys s ≠ .fault f := by
  induction ws with
  | nil => intro ys s _ f; simp [pushLoop]
  | cons w ws ih =>
    intro ys s hs f
    unfold pushLoop
    split
    · next s' rw' hp =>
      obtain ⟨hb, hf⟩ := pushOne_sameBuild hp
      split
      · simp
      · exact ih _ ((Continues.of_inFlight_eq hb hf).wf hs) f
    · next g hg => exact absurd hg (pushOne_ne_fault hs W w g)
    · simp

theorem execConstruct_ne_fault (cfg : FilterConfig) (s : State) (f : Fault) : execConstruct cfg s ≠ .fault f := by
  unfold execConstruct
  split_ifs <;> simp

theorem execReset_ne_fault (s : State) (f : Fault) : execReset s ≠ .fault f := by
  unfold execReset
  split <;> simp

theorem exec_ne_fault (op : Instr) {s : State} (hs : s.wf = true) (f : Fault) : exec op s ≠ .fault f := by
  cases op with
  | construct cfg => exact execConstruct_ne_fault cfg s f
  | reset => exact execReset_ne_fault s f
  | push v => exact pushState_ne_fault hs v.W v.word f
  | pushv vs => exact pushLoop_ne_fault vs.words [] hs f
  | call v => exact pushState_ne_fault hs v.W v.word f

theorem finish_ne_fault (c : InFlight) {s : State} (hs : s.wf = true) (f : Fault) : finish c s ≠ .fault f :=
  exec_ne_fault (decode c.cw) (wf_inFlight_none hs) f

theorem hardwareReset_ne_fault (s : State) (f : Fault) : hardwareReset s ≠ .fault f := by
  unfold hardwareReset
  split <;> simp

/-- A clock cycle can fault only in the cycle that answers a command. -/
theorem cycle_fault {p : PinsIn} {s : State} {f : Fault} (h : cycle p s = .fault f) : ∃ c, finish c s = .fault f := by
  unfold cycle at h
  split at h
  · cases h
  · split at h
    · cases h
    · split at h
      · next c _ =>
        split at h
        · cases ho : finish c s with
          | next u => rw [ho] at h; cases h
          | fault g => rw [ho] at h; cases h; exact ⟨c, ho⟩
          | refused r => rw [ho] at h; cases h
        · cases h
      · split at h
        · cases h
        · split at h <;> cases h

theorem cycle_ne_fault (p : PinsIn) {s : State} (hs : s.wf = true) (f : Fault) : cycle p s ≠ .fault f := by
  intro h
  obtain ⟨c, hc⟩ := cycle_fault h
  exact finish_ne_fault c hs f hc

theorem perform_ne_fault (a : HostAction) {s : State} (hs : s.wf = true) (f : Fault) : perform a s ≠ .fault f := by
  cases a with
  | command W cw => exact exec_ne_fault (decode cw) hs f
  | host op => exact exec_ne_fault op hs f
  | hardwareReset => exact hardwareReset_ne_fault s f
  | cycle p => exact cycle_ne_fault p hs f

/-- Settles O36: whatever the step takes next, it ends in a push at the most. -/
theorem noStepFaults : Obligations.NoStepFaults := by
  intro s f hs
  cases hf : s.inFlight with
  | some c =>
    rw [step_busy hf]
    unfold whileBusy
    split
    · next p rest _ => exact cycle_ne_fault p (s := { s with inbox := rest }) hs f
    · exact hardwareReset_ne_fault _ f
    · exact finish_ne_fault c hs f
  | none =>
    cases hb : s.inbox with
    | nil => simp [step_idle hf hb]
    | cons a rest =>
      rw [step_perform hf hb]
      exact perform_ne_fault a (s := { s with inbox := rest }) hs f

end Sys2Proof.Proofs
end

section
/-! Command words: their fields, and how decoding and encoding undo each other (30_encoding.md rules R53, R57, R58, R61,
R62). -/

namespace Sys2Proof.Proofs

open Sys2Proof.Machine Sys2Proof.Laws

/-! The fields of a command word. -/

theorem opField_eq_msb {W : Nat} (cw : CmdWord W) : opField cw = cw.msb := by
  rw [opField, BitVec.msb_eq_getLsbD_last, Nat.add_sub_cancel]

/-- The operation bit is the upper half of the range (30_encoding.md rule R53). -/
theorem opField_iff_le {W : Nat} (cw : CmdWord W) : opField cw = true ↔ 2 ^ W ≤ cw.toNat := by
  rw [opField_eq_msb, BitVec.msb_eq_decide, decide_eq_true_eq, Nat.add_sub_cancel]

theorem opField_eq_false_iff_lt {W : Nat} (cw : CmdWord W) : opField cw = false ↔ cw.toNat < 2 ^ W := by
  rw [← Bool.not_eq_true, opField_iff_le, not_le]

theorem dataField_eq_setWidth {W : Nat} (cw : CmdWord W) : dataField cw = cw.setWidth W := by
  rw [dataField, BitVec.setWidth_eq_extractLsb' (Nat.le_succ W)]

/-- A command word is its two fields (30_encoding.md rule R53). -/
theorem cmdWord_fields {W : Nat} (cw : CmdWord W) : cmdWord (opField cw) (dataField cw) = cw := by
  rw [cmdWord, opField_eq_msb, dataField_eq_setWidth, BitVec.cons_msb_setWidth]

theorem toNat_cmdWord_true {W : Nat} (v : Word W) : (cmdWord true v).toNat = 2 ^ W + v.toNat := by
  rw [cmdWord, BitVec.toNat_cons', Bool.toNat_true, Nat.one_shiftLeft]

/-- The canonical word of RESET is all zeros (30_encoding.md rule R62). -/
theorem cmdWord_false_zero (W : Nat) : cmdWord false (0 : Word W) = 0 := by
  apply BitVec.eq_of_toNat_eq
  simp [cmdWord]

/-- The PUSH word of `v` as a number (30_encoding.md rule R62). -/
theorem cmdWord_true_eq_ofNat {W : Nat} (v : Word W) : cmdWord true v = BitVec.ofNat (W + 1) (2 ^ W + v.toNat) := by
  rw [← toNat_cmdWord_true, BitVec.ofNat_toNat, BitVec.setWidth_eq]

/-- The data of a PUSH word is what its number is above `2^W`. -/
theorem dataField_eq_ofNat {W : Nat} {cw : CmdWord W} (h : opField cw = true) :
    dataField cw = BitVec.ofNat W (cw.toNat - 2 ^ W) := by
  have hcw : cw.toNat = 2 ^ W + (dataField cw).toNat := by rw [← toNat_cmdWord_true, ← h, cmdWord_fields]
  rw [hcw, Nat.add_sub_cancel_left, BitVec.ofNat_toNat, BitVec.setWidth_eq]

/-! Decoding, encoding and the round trip. -/

theorem decode_reset {W : Nat} {cw : CmdWord W} (h : opField cw = false) : decode cw = .reset := by simp [decode, h]

theorem decode_push {W : Nat} {cw : CmdWord W} (h : opField cw = true) : decode cw = .push ⟨W, dataField cw⟩ := by
  simp [decode, h]

theorem decode_eq_reset_iff {W : Nat} (cw : CmdWord W) : decode cw = .reset ↔ opField cw = false := by
  cases h : opField cw with
  | true => simp [decode_push h]
  | false => simp [decode_reset h]

theorem encode_reset (W : Nat) : encode W .reset = [0] := by rw [encode, cmdWord_false_zero]

theorem encode_push {W : Nat} (v : Word W) : encode W (.push ⟨W, v⟩) = [cmdWord true v] := by
  rw [encode, BitVec.setWidth_eq]

theorem decode_encode_reset (W : Nat) : (encode W .reset).map decode = [.reset] := by
  simp [encode, decode_cmdWord]

theorem decode_encode_push {W : Nat} (v : Word W) : (encode W (.push ⟨W, v⟩)).map decode = [.push ⟨W, v⟩] := by
  simp [encode_push, decode_cmdWord]

/-- Encoding gives a word back exactly where it is a PUSH word or the canonical RESET word (30_encoding.md rule R62). -/
theorem encode_decode_iff {W : Nat} (cw : CmdWord W) : encode W (decode cw) = [cw] ↔ (opField cw = true ∨ cw = 0) := by
  cases h : opField cw with
  | true =>
    have hcw : cmdWord true (dataField cw) = cw := by rw [← h, cmdWord_fields]
    simp [decode_push h, encode_push, hcw]
  | false => simpa [decode_reset h, encode_reset] using eq_comm

/-- Settles O3: a command word is its operation bit and its data, and the encoder puts just these together. -/
theorem commandsRoundTrip : Obligations.CommandsRoundTrip := by
  intro W
  refine ⟨fun cw => ?_, encode_reset W, fun v => ?_, fun c hc => ?_, encode_decode_iff⟩
  · rw [decode, dataField_eq_setWidth, opField]
  · rw [encode_push, cmdWord_true_eq_ofNat]
  · rcases hc with rfl | ⟨v, rfl⟩
    · exact decode_encode_reset W
    · exact decode_encode_push v

/-- Settles O1: the operation bit is what splits the words at `2^W`, and the mask row keeps just that bit. -/
theorem decodeReadsOperationBitAndData : Obligations.DecodeReadsOperationBitAndData := by
  intro W cw
  refine ⟨fun h => decode_reset ((opField_eq_false_iff_lt cw).mpr h), fun h => ?_, ?_⟩
  · have hop := (opField_iff_le cw).mpr h
    rw [decode_push hop, dataField_eq_ofNat hop]
  · rw [decode_eq_reset_iff, BitVec.and_twoPow, opField]
    cases cw.getLsbD W <;> simp

/-- Settles O2, by the constructors: each word the encoder makes decodes by its operation bit. -/
theorem decodeOfEncodeGivesTheCommands : Obligations.DecodeOfEncodeGivesTheCommands := by
  intro W
  refine ⟨fun _ => rfl, decode_encode_reset W, decode_encode_push, decode_encode_push, fun vs => ?_⟩
  rw [encode, List.map_map, pushes]
  exact List.map_congr_left fun v _ => by simp [decode_cmdWord]

/-- Settles O6: performing an operation by name is executing it. -/
theorem stepRunsTheHostsOperation : Obligations.StepRunsTheHostsOperation :=
  fun _ _ _ hf hb => step_perform hf hb

end Sys2Proof.Proofs
end

section
/-! What an operation answers and what it leaves alone (30_encoding.md rules R51, R54, R55, R56; 10_state.md rule R13). -/

namespace Sys2Proof.Proofs

open Sys2Proof.Machine Sys2Proof.Laws

/-! What every operation leaves alone. -/

/-- `t` has the host's interactions of `s` still to come, something delivered after all that `s` has delivered, and no free
value taken back. -/
structure Delivers (s t : State) : Prop where
  inbox : t.inbox = s.inbox
  delivered : ∃ ds, ds ≠ [] ∧ t.delivered = s.delivered ++ ds
  draws : s.draws ≤ t.draws

/-- One more delivery. -/
theorem Delivers.one {s t : State} {d : Delivery} (hb : t.inbox = s.inbox) (hd : t.delivered = s.delivered ++ [d])
    (hk : s.draws ≤ t.draws) : Delivers s t :=
  ⟨hb, ⟨[d], by simp, hd⟩, hk⟩

theorem Delivers.trans {s t u : State} (h₁ : Delivers s t) (h₂ : Delivers t u) : Delivers s u := by
  obtain ⟨hb₁, ⟨ds₁, hne, hd₁⟩, hk₁⟩ := h₁
  obtain ⟨hb₂, ⟨ds₂, -, hd₂⟩, hk₂⟩ := h₂
  exact ⟨hb₂.trans hb₁, ⟨ds₁ ++ ds₂, by simp [hne], by rw [hd₂, hd₁, List.append_assoc]⟩, hk₁.trans hk₂⟩

theorem deliver_delivers (d : Delivery) (s : State) : Delivers s (deliver d s) := .one rfl rfl le_rfl

theorem pushOne_delivers {s : State} {W : Nat} {w : Word W} {r : State × RspWord W} (h : pushOne W w s = .next r) :
    Delivers s r.1 := by
  obtain ⟨i, -, -, hr | ⟨hist, cursor, acc, hr⟩⟩ := pushOne_next h <;> rw [hr]
  · exact .one rfl rfl le_rfl
  · exact .one rfl rfl (Nat.le_succ s.draws)

theorem pushState_delivers {s t : State} {W : Nat} {w : Word W} (h : pushState W w s = .next t) : Delivers s t := by
  obtain ⟨rw, h⟩ := pushState_next h
  exact pushOne_delivers h

theorem pushLoop_delivers {W : Nat} (ws : List (Word W)) : ∀ (ys : List (Word W)) {s t : State},
    pushLoop W ws ys s = .next t → Delivers s t := by
  induction ws with
  | nil => intro ys s t h; cases h; exact deliver_delivers _ s
  | cons w ws ih =>
    intro ys s t h
    unfold pushLoop at h
    split at h
    · next s' rw' hp =>
      split at h
      · cases h; exact (pushOne_delivers hp).trans (deliver_delivers _ s')
      · exact (pushOne_delivers hp).trans (ih _ h)
    · cases h
    · cases h

theorem execConstruct_delivers {cfg : FilterConfig} {s t : State} (h : execConstruct cfg s = .next t) : Delivers s t := by
  rcases execConstruct_next h with ⟨-, rfl⟩ | ⟨-, -, rfl⟩
  · exact .one rfl rfl le_rfl
  · exact .one rfl rfl le_rfl

theorem exec_delivers {op : Instr} {s t : State} (h : exec op s = .next t) : Delivers s t := by
  cases op with
  | construct cfg => exact execConstruct_delivers h
  | reset => obtain ⟨i, -, rfl⟩ := execReset_next h; exact .one rfl rfl le_rfl
  | push v => exact pushState_delivers h
  | pushv vs => exact pushLoop_delivers vs.words [] h
  | call v => exact pushState_delivers h

theorem SameBuild.map_cfg {s t : State} (h : SameBuild s t) : t.inst.map Instance.cfg = s.inst.map Instance.cfg := by
  rcases h with ⟨hs, ht, -⟩ | ⟨i, j, hs, ht, hc, -⟩
  · rw [hs, ht]
  · rw [hs, ht, Option.map_some, Option.map_some, hc]

/-- Settles O41: every operation delivers, and all but CONSTRUCT keep what was built. -/
theorem operationsLeaveTheRest : Obligations.OperationsLeaveTheRest := by
  intro op s t h
  obtain ⟨hb, hd, hk⟩ := exec_delivers h
  refine ⟨hb, hd, hk, fun hop => ?_⟩
  obtain ⟨hs, hf⟩ := exec_sameBuild hop h
  exact ⟨hf, hs.map_cfg⟩

/-! The one response of a command. -/

/-- `t` is `s` after one command was answered with `r`: delivered last, shown on the response port, the engine ready again
(30_encoding.md rules R55, R56; 70_reset_and_hazards.md rule R160). -/
structure Answered (s t : State) (r : Response) : Prop where
  delivered : t.delivered = s.delivered ++ [.response r]
  pins : t.pins = { cmdReady := true, rsp := some r }
  inbox : t.inbox = s.inbox
  inFlight : t.inFlight = s.inFlight

theorem rspWord_false_zero (W : Nat) : rspWord false (0 : Word W) = 0 := cmdWord_false_zero W

theorem exec_reset_some {s : State} {i : Instance} (hi : s.inst = some i) :
    exec .reset s = .next (respond ⟨i.cfg.W, rspWord false 0⟩ { s with inst := some i.cleared }) := by
  simp only [exec, execReset, hi]

/-- A command of the port on a well-formed instance is answered with one response, which is zero for RESET and has no data
beside an error. -/
theorem exec_decode_answered {s : State} {i : Instance} {W : Nat} (cw : CmdWord W) (hi : s.inst = some i)
    (hw : i.wf = true) (hW : W = i.cfg.W) :
    ∃ t rw, exec (decode cw) s = .next t ∧ Answered s t ⟨W, rw⟩ ∧ (opField cw = false → rw = 0) ∧
      (rspErr rw = true → rspData rw = 0) := by
  subst hW
  cases hop : opField cw with
  | false =>
    rw [decode_reset hop]
    exact ⟨_, rspWord false 0, exec_reset_some hi, ⟨rfl, rfl, rfl, rfl⟩, fun _ => rspWord_false_zero _, by simp⟩
  | true =>
    rw [decode_push hop]
    cases ha : i.accepts (dataField cw) with
    | true => exact ⟨_, _, execPush_accepted hi hw ha, ⟨rfl, rfl, rfl, rfl⟩, by simp, by simp⟩
    | false => exact ⟨_, _, execPush_rejected hi ha, ⟨rfl, rfl, rfl, rfl⟩, by simp, by simp⟩

/-- Settles O40: the step is the command's operation, which is answered with one response. -/
theorem oneResponsePerCommand : Obligations.OneResponsePerCommand := by
  intro s i cw rest hi hs hf hb
  obtain ⟨t, rw', ht, ha, hreset, herr⟩ :=
    exec_decode_answered (s := { s with inbox := rest }) cw hi ((state_wf_iff hi).mp hs).1 rfl
  refine ⟨t, rw', ?_, ha.delivered, ha.inbox, ha.pins, fun h => hreset ((opField_eq_false_iff_lt cw).mpr h), herr⟩
  rw [stepRunsTheCommandOnThePort s _ cw rest hf hb, ht]

end Sys2Proof.Proofs
end

section
/-! The ports, cycle by cycle: what a clock cycle does in each of its cases, and that a command taken at the ports does
what it does as one transaction (30_encoding.md rules R51, R52, R54, R56; 70_reset_and_hazards.md rules R160, R168). -/

namespace Sys2Proof.Proofs

open Sys2Proof.Machine Sys2Proof.Laws

/-! A clock cycle, case by case. -/

theorem cycle_noInstance (p : PinsIn) {s : State} (hi : s.inst = none) : cycle p s = .refused .noInstance := by
  simp [cycle, hi]

theorem cycle_held {p : PinsIn} {s : State} {i : Instance} (hi : s.inst = some i) (hr : p.rst = true) :
    cycle p s = .next (heldInReset i s) := by
  simp [cycle, hi, hr]

theorem cycle_waits {p : PinsIn} {s : State} {i : Instance} {c : InFlight} {wait : Nat} (hi : s.inst = some i)
    (hr : p.rst = false) (hc : s.inFlight = some c) (hw : c.wait = wait + 1) : cycle p s =
      .next { s with inFlight := some { c with wait := wait }, pins := { cmdReady := false, rsp := none } } := by
  simp [cycle, hi, hr, hc, hw]

theorem cycle_answers {p : PinsIn} {s : State} {i : Instance} {c : InFlight} (hi : s.inst = some i)
    (hr : p.rst = false) (hc : s.inFlight = some c) (hw : c.wait = 0) : cycle p s = notReady (finish c s) := by
  simp [cycle, hi, hr, hc, hw]

theorem cycle_idles {p : PinsIn} {s : State} {i : Instance} (hi : s.inst = some i) (hr : p.rst = false)
    (hc : s.inFlight = none) (hv : p.cmdValid = false) : cycle p s = .next (idle s) := by
  simp [cycle, hi, hr, hc, hv]

theorem cycle_takes {p : PinsIn} {s : State} {i : Instance} (hi : s.inst = some i) (hr : p.rst = false)
    (hc : s.inFlight = none) (hv : p.cmdValid = true) (hW : p.W = i.cfg.W) : cycle p s =
      .next { s with
        inFlight := some { W := p.W, cw := p.word, wait := Config.latency s.draws }
        pins := { cmdReady := true, rsp := none }
        draws := s.draws + 1 } := by
  simp [cycle, hi, hr, hc, hv, hW]

theorem cycle_foreign {p : PinsIn} {s : State} {i : Instance} (hi : s.inst = some i) (hr : p.rst = false)
    (hc : s.inFlight = none) (hv : p.cmdValid = true) (hW : p.W ≠ i.cfg.W) : cycle p s = .refused .wordWidth := by
  simp [cycle, hi, hr, hc, hv, hW]

/-- While a command is in progress a clock cycle reads `rst` and nothing else of the input ports (30_encoding.md rule
R52). -/
theorem cycle_busy_congr {p q : PinsIn} {s : State} {i : Instance} {c : InFlight} (hi : s.inst = some i)
    (hp : p.rst = false) (hq : q.rst = false) (hc : s.inFlight = some c) : cycle p s = cycle q s := by
  cases hw : c.wait with
  | zero => rw [cycle_answers hi hp hc hw, cycle_answers hi hq hc hw]
  | succ wait => rw [cycle_waits hi hp hc hw, cycle_waits hi hq hc hw]

/-- Settles O42: of the cases of a clock cycle only the transfer reads the offer. -/
theorem offersCountOnlyInTheTransferCycle : Obligations.OffersCountOnlyInTheTransferCycle := by
  refine ⟨fun s p q hrst hno => ?_, fun s i p hi hf hr hv => ?_⟩
  · cases hi : s.inst with
    | none => rw [cycle_noInstance p hi, cycle_noInstance q hi]
    | some i =>
      cases hr : p.rst with
      | true => rw [cycle_held hi hr, cycle_held hi (hrst ▸ hr)]
      | false =>
        have hr' : q.rst = false := hrst ▸ hr
        cases hf : s.inFlight with
        | some c => exact cycle_busy_congr hi hr hr' hf
        | none =>
          obtain ⟨hp, hq⟩ := hno.resolve_left (by simp [hf])
          rw [cycle_idles hi hr hf hp, cycle_idles hi hr' hf hq]
  · refine ⟨idle s, cycle_idles hi hr hf hv, idle_inst s, idle_delivered s, by rw [idle_inFlight, hf], idle_inbox s,
      idle_draws s, ?_⟩
    rw [idle_some hi]

/-! Words of another width. -/

theorem pushState_foreign {s : State} {i : Instance} {W : Nat} (v : Word W) (hi : s.inst = some i) (hW : W ≠ i.cfg.W) :
    pushState W v s = .refused .wordWidth := by
  simp [pushState, pushOne_foreign v hi hW]

/-- PUSHV stops at its first sample. -/
theorem pushLoop_foreign {s : State} {i : Instance} {W : Nat} {vs : List (Word W)} (ys : List (Word W))
    (hi : s.inst = some i) (hW : W ≠ i.cfg.W) (hvs : vs ≠ []) : pushLoop W vs ys s = .refused .wordWidth := by
  obtain ⟨v, vs, rfl⟩ := List.exists_cons_of_ne_nil hvs
  simp [pushLoop, pushOne_foreign v hi hW]

/-- Settles O60: PUSH, f(v) and PUSHV are pushes of a foreign word, and the transfer asks for the width itself. -/
theorem wordsOfAnotherWidthAreRefused : Obligations.WordsOfAnotherWidthAreRefused := by
  intro s i V hi hV
  refine ⟨fun v => ⟨pushState_foreign v hi hV, pushState_foreign v hi hV⟩, fun vs hvs => pushLoop_foreign [] hi hV hvs,
    fun p hp hr hv hf => cycle_foreign hi hr hf hv (hp ▸ hV)⟩

/-! A command in progress. -/

/-- `s` with this command in progress, `k` more cycles to wait, and `inbox` still to come: the machine between the transfer
of a command and its answer. -/
def inProgress (s : State) {W : Nat} (cw : CmdWord W) (k : Nat) (ready : Bool) (inbox : List HostAction) : State :=
  { s with inFlight := some ⟨W, cw, k⟩, pins := { cmdReady := ready, rsp := none }, inbox := inbox }

section Cycles

variable {s : State} {i : Instance} {W : Nat} (cw : CmdWord W) {rest : List HostAction}

/-- What the ports show decides nothing of a command. -/
theorem exec_decode_pins (s : State) (pins : PinsOut) : exec (decode cw) { s with pins := pins } = exec (decode cw) s := by
  cases hop : opField cw with
  | false => rw [decode_reset hop]; rfl
  | true => rw [decode_push hop]; rfl

theorem step_takes {p : PinsIn} (hi : s.inst = some i) (hf : s.inFlight = none) (hr : p.rst = false)
    (hv : p.cmdValid = true) (hW : p.W = i.cfg.W) (hb : s.inbox = .cycle p :: rest) : step s =
      .next (inProgress { s with draws := s.draws + 1 } p.word (Config.latency s.draws) true rest) := by
  rw [step_perform hf hb]
  exact cycle_takes (s := { s with inbox := rest }) hi hr hf hv hW

theorem step_inProgress_succ (k : Nat) (ready : Bool) {q : PinsIn} (hi : s.inst = some i) (hr : q.rst = false) :
    step (inProgress s cw (k + 1) ready (.cycle q :: rest)) = .next (inProgress s cw k false rest) := by
  rw [step_busy rfl]
  exact cycle_waits (s := inProgress s cw (k + 1) ready rest) hi hr rfl rfl

theorem step_inProgress_zero (ready : Bool) {q : PinsIn} (hi : s.inst = some i) (hr : q.rst = false) :
    step (inProgress s cw 0 ready (.cycle q :: rest)) =
      notReady (exec (decode cw) { s with inFlight := none, inbox := rest }) := by
  rw [step_busy rfl, ← exec_decode_pins cw _ { cmdReady := ready, rsp := none }]
  exact cycle_answers (s := inProgress s cw 0 ready rest) hi hr rfl rfl

/-- As long as cycles are left to wait, nothing but their number changes, and the engine is not ready. -/
theorem run_waits (hi : s.inst = some i) (k : Nat) (qs : List PinsIn) : ∀ (ready : Bool), (∀ q ∈ qs, q.rst = false) →
    Host.Core.run Sys2Proof.core qs.length (inProgress s cw (k + qs.length) ready (qs.map .cycle ++ rest)) =
      .next (inProgress s cw k (ready && decide (qs.length = 0)) rest) := by
  induction qs with
  | nil => intro ready _; simp [Host.Core.run, inProgress]
  | cons q qs ih =>
    intro ready hqs
    obtain ⟨hq, hqs⟩ := List.forall_mem_cons.mp hqs
    rw [List.length_cons, ← Nat.add_assoc, List.map_cons, List.cons_append,
      run_succ (step_inProgress_succ cw _ ready hi hq), ih false hqs]
    simp

/-- After the wait one more cycle answers the command. -/
theorem run_answers {u : State} (hi : s.inst = some i)
    (hu : notReady (exec (decode cw) { s with inFlight := none, inbox := rest }) = .next u) (qs : List PinsIn) :
    ∀ (k : Nat) (ready : Bool), (∀ q ∈ qs, q.rst = false) → qs.length = k + 1 →
    Host.Core.run Sys2Proof.core qs.length (inProgress s cw k ready (qs.map .cycle ++ rest)) = .next u := by
  induction qs with
  | nil => intro k ready _ hk; simp at hk
  | cons q qs ih =>
    intro k ready hqs hk
    obtain ⟨hq, hqs⟩ := List.forall_mem_cons.mp hqs
    have hk : qs.length = k := Nat.succ.inj hk
    cases k with
    | zero =>
      obtain rfl := List.eq_nil_of_length_eq_zero hk
      exact run_succ ((step_inProgress_zero cw ready hi hq).trans hu) 0
    | succ k =>
      rw [List.length_cons, List.map_cons, List.cons_append, run_succ (step_inProgress_succ cw k ready hi hq)]
      exact ih k false hqs hk

end Cycles

/-- Settles O44: the transfer, the wait, and the cycle that answers, which runs the command as it stands. -/
theorem portsRefineTheCommand : Obligations.PortsRefineTheCommand := by
  intro s i p ps rest hi hw hf hr hv hW hps hlen hb
  have htake := step_takes hi hf hr hv hW hb
  refine ⟨fun n hn hle => ?_, ?_⟩
  · obtain ⟨m, rfl⟩ := Nat.exists_eq_add_one_of_ne_zero hn.ne'
    have hwait := run_waits p.word (s := { s with draws := s.draws + 1 }) (rest := (ps.drop m).map .cycle ++ rest) hi
      (Config.latency s.draws - m) (ps.take m) true fun q hq => hps q (List.mem_of_mem_take hq)
    have hm : (ps.take m).length = m := List.length_take_of_le (by omega)
    have hk : Config.latency s.draws - m + m = Config.latency s.draws := by omega
    rw [hm, hk, ← List.append_assoc, ← List.map_append, List.take_append_drop, ← run_succ htake] at hwait
    exact ⟨_, _, hwait, rfl, rfl, by simp [inProgress], rfl⟩
  · obtain ⟨t, rw', ht, ha, -, -⟩ :=
      exec_decode_answered (s := { s with inbox := rest, draws := s.draws + 1 }) p.word hi hw hW
    have hu : notReady (exec (decode p.word) { s with inFlight := none, inbox := rest, draws := s.draws + 1 }) =
        .next { t with pins := { t.pins with cmdReady := false } } := by
      rw [← hf, ht]
      rfl
    have hrun := run_answers p.word (s := { s with draws := s.draws + 1 }) hi hu ps _ true hps hlen
    exact ⟨t, _, ⟨p.W, rw'⟩, ht, (run_succ htake _).trans hrun, rfl, rfl, rfl, ha.inbox, ha.inFlight.trans hf,
      ha.delivered, hW, ha.pins, by rw [ha.pins]⟩

end Sys2Proof.Proofs
end

section
/-! Construction, RESET and the hardware reset (40_construct_reset.md rules R70, R73, R75, R77). -/

namespace Sys2Proof.Proofs

open Sys2Proof.Machine Sys2Proof.Laws

/-! CONSTRUCT, by its tap count. -/

/-- An illegal tap count decides alone (40_construct_reset.md rule R70). -/
theorem execConstruct_illegal {cfg : FilterConfig} (s : State) (hp : isPowerOfTwo cfg.taps = false) :
    execConstruct cfg s = .next (raiseInvalidConfiguration s) := by
  simp [execConstruct, hp]

theorem execConstruct_legal {cfg : FilterConfig} (s : State) (hp : isPowerOfTwo cfg.taps = true) (hs : cfg.ofSpec = true) :
    execConstruct cfg s = .next (install cfg s) := by
  have h0 : cfg.taps ≠ 0 := (isPowerOfTwo_pos hp).ne'
  simp only [FilterConfig.ofSpec, Bool.and_eq_true] at hs
  simp [execConstruct, hp, h0, hs]

theorem isPowerOfTwo_eq_false_iff (n : Nat) : isPowerOfTwo n = false ↔ ¬ ∃ j, n = 2 ^ j := by
  rw [← isPowerOfTwo_iff, Bool.not_eq_true]

/-- Settles O10: a power of two installs the construction state, any other tap count raises the error. -/
theorem constructByTapCount : Obligations.ConstructByTapCount := by
  refine fun cfg s => ⟨fun hp ha hl hf => ?_, fun hp => ?_⟩
  · exact ⟨_, execConstruct_legal s ((isPowerOfTwo_iff _).mpr hp) ((ofSpec_iff cfg).mpr ⟨ha, hl, hf⟩), rfl, rfl, rfl⟩
  · exact ⟨_, execConstruct_illegal s ((isPowerOfTwo_eq_false_iff _).mpr hp), rfl, rfl⟩

/-! Where no instance exists. -/

theorem execReset_noInstance {s : State} (hi : s.inst = none) : execReset s = .refused .noInstance := by
  simp [execReset, hi]

theorem pushState_noInstance {s : State} {W : Nat} (v : Word W) (hi : s.inst = none) :
    pushState W v s = .refused .noInstance := by
  simp [pushState, pushOne_noInstance v hi]

/-- PUSHV stops at its first sample. -/
theorem pushLoop_noInstance {s : State} {W : Nat} {vs : List (Word W)} (ys : List (Word W)) (hi : s.inst = none)
    (hvs : vs ≠ []) : pushLoop W vs ys s = .refused .noInstance := by
  obtain ⟨v, vs, rfl⟩ := List.exists_cons_of_ne_nil hvs
  simp [pushLoop, pushOne_noInstance v hi]

theorem hardwareReset_noInstance {s : State} (hi : s.inst = none) : hardwareReset s = .refused .noInstance := by
  simp [hardwareReset, hi]

/-- Settles O12: after InvalidConfiguration no instance exists, and each of these operations looks for one first. -/
theorem noInstanceNoCommand : Obligations.NoInstanceNoCommand := by
  intro cfg s t v vs p hp h hvs
  have ht := h.symm.trans (execConstruct_illegal s ((isPowerOfTwo_eq_false_iff _).mpr hp))
  have hi : t.inst = none := by
    cases ht
    rfl
  exact ⟨execReset_noInstance hi, pushState_noInstance v.word hi, pushState_noInstance v.word hi,
    pushLoop_noInstance [] hi hvs, hardwareReset_noInstance hi, cycle_noInstance p hi⟩

/-! RESET and the hardware reset. -/

/-- Settles O13: RESET leaves the instance cleared, and clearing reads nothing but the configuration. -/
theorem resetClearsAndAnswersZero : Obligations.ResetClearsAndAnswersZero := by
  intro s i hi
  refine ⟨_, exec_reset_some hi, rfl, by rw [respond_delivered, rspWord_false_zero], fun u hu => ?_⟩
  cases (exec_reset_some rfl).symm.trans hu
  rfl

/-- The hardware reset and a clock cycle do not wait for the command in progress (70_reset_and_hazards.md rules R168,
R170). -/
theorem step_perform_of_reset_or_cycle {s : State} {a : HostAction} {rest : List HostAction}
    (ha : a = .hardwareReset ∨ ∃ p, a = .cycle p) (hb : s.inbox = a :: rest) :
    step s = perform a { s with inbox := rest } := by
  cases hf : s.inFlight with
  | none => exact (step_perform hf hb).trans (by rw [hf])
  | some c =>
    rw [step_busy hf]
    obtain rfl | ⟨p, rfl⟩ := ha <;> simp [whileBusy, hb, perform, hf]

theorem hardwareReset_some {s : State} {i : Instance} (hi : s.inst = some i) :
    hardwareReset s = .next { heldInReset i s with pins := { cmdReady := true, rsp := none } } := by
  simp [hardwareReset, hi]

/-- Settles O15: neither form waits for the command in progress, and both hold the block in reset. -/
theorem hardwareResetAbandonsTheCommand : Obligations.HardwareResetAbandonsTheCommand := by
  intro s i a rest hi hb ha
  rw [step_perform_of_reset_or_cycle (ha.imp_right fun ⟨p, hp, _⟩ => ⟨p, hp⟩) hb]
  obtain rfl | ⟨p, rfl, hr⟩ := ha
  · exact ⟨_, hardwareReset_some (s := { s with inbox := rest }) hi, rfl, rfl, rfl, rfl, rfl, fun _ => rfl,
      fun hne => absurd rfl hne⟩
  · exact ⟨_, cycle_held (s := { s with inbox := rest }) hi hr, rfl, rfl, rfl, rfl, rfl, fun h => (by cases h),
      fun _ => rfl⟩

/-- Settles O43: a cycle that answers has an instance, and with `rst = 1` it holds that in reset. -/
theorem noTransferInReset : Obligations.NoTransferInReset := by
  intro s t p hr h
  obtain ⟨i, hi, -⟩ := cycle_next h
  cases (cycle_held hi hr).symm.trans h
  exact ⟨rfl, rfl⟩

end Sys2Proof.Proofs
end

section
/-! Which NaN apart (42_numerics.md rule R117), the draw decides no output. -/

namespace Sys2Proof.Proofs

open Sys2Proof.Machine Sys2Proof.Laws

theorem sameOutput_iff {f : Format} {a b : Word f.width} :
    sameOutput f a b = true ↔ a = b ∨ (isNaN f a = true ∧ isNaN f b = true) := by
  simp [sameOutput]

theorem sameOutput_refl (f : Format) (a : Word f.width) : sameOutput f a a = true := sameOutput_iff.mpr (.inl rfl)

/-- A product is the NaN given to it, or does not depend on which NaN that is. -/
theorem mulNat_nan_or_const (f : BinFormat) (a b : Nat) :
    (∀ nan, mulNat f nan a b = nan) ∨ ∀ nan nan', mulNat f nan a b = mulNat f nan' a b := by
  unfold mulNat
  split_ifs <;> simp

/-- A sum is the NaN given to it, or does not depend on which NaN that is. -/
theorem addNat_nan_or_const (f : BinFormat) (a b : Nat) :
    (∀ nan, addNat f nan a b = nan) ∨ ∀ nan nan', addNat f nan a b = addNat f nan' a b := by
  unfold addNat
  split_ifs <;> simp

/-- An operation of a binary format that gives the draw's NaN or a word of its own gives the same output at every draw. -/
theorem sameOutput_ofNat {f : BinFormat} (hf : Usable f) {op : Nat → Nat}
    (hop : (∀ nan, op nan = nan) ∨ ∀ nan nan', op nan = op nan') (k l : Nat) :
    sameOutput (.binary f) (BitVec.ofNat f.width (op (nanWord f k).toNat))
      (BitVec.ofNat f.width (op (nanWord f l).toNat)) = true := by
  rw [sameOutput_iff]
  rcases hop with hnan | hconst
  · right
    simp only [hnan, BitVec.ofNat_toNat, BitVec.setWidth_eq]
    exact ⟨isNaN_nanWord hf k, isNaN_nanWord hf l⟩
  · exact .inl (by rw [hconst])

theorem sameOutput_someNaN {W number : Nat} (k l : Nat) (r : Word W) :
    sameOutput (.other W number) (NumberFormat.someNaN (otherFormat W number) k r)
      (NumberFormat.someNaN (otherFormat W number) l r) = true := by
  rw [sameOutput_iff]
  cases hr : (otherFormat W number).isNaN r with
  | true => exact .inr ⟨(someNaN_isNaN _ k r).trans hr, (someNaN_isNaN _ l r).trans hr⟩
  | false => exact .inl (by rw [someNaN_of_not_nan k hr, someNaN_of_not_nan l hr])

theorem sameOutput_fmul {f : Format} (hf : f.admitted = true) (k l : Nat) (a b : Word f.width) :
    sameOutput f ((fmtAt f k).fmul a b) ((fmtAt f l).fmul a b) = true := by
  cases f with
  | binary shape => exact sameOutput_ofNat ((usable_iff shape).mp hf) (mulNat_nan_or_const shape a.toNat b.toNat) k l
  | other W number => exact sameOutput_someNaN k l _

theorem sameOutput_fadd {f : Format} (hf : f.admitted = true) (k l : Nat) (a b : Word f.width) :
    sameOutput f ((fmtAt f k).fadd a b) ((fmtAt f l).fadd a b) = true := by
  cases f with
  | binary shape => exact sameOutput_ofNat ((usable_iff shape).mp hf) (addNat_nan_or_const shape a.toNat b.toNat) k l
  | other W number => exact sameOutput_someNaN k l _

/-- Sums of the same outputs are the same output: a NaN operand gives a NaN, whichever NaN it is. -/
theorem sameOutput_fadd_congr {f : Format} (hf : f.admitted = true) (k l : Nat) {a a' b b' : Word f.width}
    (ha : sameOutput f a a' = true) (hb : sameOutput f b b' = true) :
    sameOutput f ((fmtAt f k).fadd a b) ((fmtAt f l).fadd a' b') = true := by
  rcases sameOutput_iff.mp ha with rfl | ⟨hn, hn'⟩
  · rcases sameOutput_iff.mp hb with rfl | ⟨hn, hn'⟩
    · exact sameOutput_fadd hf k l a b
    · exact sameOutput_iff.mpr (.inr ⟨isNaN_fadd hf (.inr hn), isNaN_fadd hf (.inr hn')⟩)
  · exact sameOutput_iff.mpr (.inr ⟨isNaN_fadd hf (.inl hn), isNaN_fadd hf (.inl hn')⟩)

theorem sameOutput_dotFrom {f : Format} (hf : f.admitted = true) (k l : Nat) (xs : List (Word f.width)) :
    ∀ (cs : List (Word f.width)) {a a' : Word f.width}, sameOutput f a a' = true →
      sameOutput f (dotFrom (fmtAt f k) a xs cs) (dotFrom (fmtAt f l) a' xs cs) = true := by
  induction xs with
  | nil => intro cs a a' ha; exact ha
  | cons x xs ih =>
    intro cs a a' ha
    cases cs with
    | nil => exact ha
    | cons c cs => exact ih cs (sameOutput_fadd_congr hf k l ha (sameOutput_fmul hf k l x c))

theorem sameOutput_firSum {f : Format} (hf : f.admitted = true) (k l : Nat) (xs cs : List (Word f.width)) :
    sameOutput f (firSum (fmtAt f k) xs cs) (firSum (fmtAt f l) xs cs) = true := by
  cases xs with
  | nil => simpa [firSum] using sameOutput_refl f _
  | cons x xs =>
    cases cs with
    | nil => simpa [firSum] using sameOutput_refl f _
    | cons c cs => exact sameOutput_dotFrom hf k l xs cs (sameOutput_fmul hf k l x c)

theorem sameOutput_output {i : Instance} (hw : i.wf = true) (k l : Nat) (v : Word i.cfg.W) :
    sameOutput i.cfg.fmt (i.output k v) (i.output l v) = true := by
  obtain ⟨-, -, -, -, hf, -⟩ := (wf_iff i).mp hw
  exact sameOutput_firSum hf k l _ _

theorem sameResponse_rspWord {f : Format} (err : Bool) {a b : Word f.width} (h : sameOutput f a b = true) :
    sameResponse f (rspWord err a) (rspWord err b) := by
  simpa [sameResponse] using h

end Sys2Proof.Proofs
end

section
/-! RESET is reconstruction (40_construct_reset.md rule R74): pushes of the same samples on the same instance give the same
responses, whatever was answered and drawn before. -/

namespace Sys2Proof.Proofs

open Sys2Proof.Machine Sys2Proof.Laws

/-- Operations without CONSTRUCT keep what was built (10_state.md rule R13). -/
theorem execAll_sameBuild (ops : List Instr) : ∀ {s t : State}, (∀ op ∈ ops, ∀ cfg, op ≠ .construct cfg) →
    execAll ops s = .next t → SameBuild s t := by
  induction ops with
  | nil => intro s t _ h; cases h; exact .of_eq rfl rfl
  | cons op ops ih =>
    intro s t hops h
    obtain ⟨hop, hops⟩ := List.forall_mem_cons.mp hops
    unfold execAll at h
    split at h
    · next s' hs' => exact (exec_sameBuild hop hs').1.trans (ih hops h)
    · cases h
    · cases h

theorem execAll_cons {op : Instr} {s s' : State} (h : exec op s = .next s') (ops : List Instr) :
    execAll (op :: ops) s = execAll ops s' := by
  rw [execAll, h]

/-- Responses of `W` data bits, as the host got them from the port. -/
def responses (W : Nat) (rs : List (RspWord W)) : List Delivery := rs.map fun r => .response ⟨W, r⟩

theorem responsesSince_eq {W : Nat} {s t : State} {rs : List (RspWord W)}
    (h : t.delivered = s.delivered ++ responses W rs) : responsesSince W s t = rs := by
  have hword : Delivery.word? W ∘ (fun r => .response ⟨W, r⟩) = some := by
    funext r
    simp [Delivery.word?]
  rw [responsesSince, h, List.drop_left, responses, List.filterMap_map, hword, List.filterMap_some]

/-- A PUSH of one sample on one well-formed instance leaves one instance, whatever was answered and drawn before, with one
response that is the same. -/
theorem execPush_same {s s' : State} {i : Instance} (hi : s.inst = some i) (hi' : s'.inst = some i) (hw : i.wf = true)
    (v : Word i.cfg.W) : ∃ t u hist c r r', exec (.push ⟨i.cfg.W, v⟩) s = .next t ∧ exec (.push ⟨i.cfg.W, v⟩) s' = .next u ∧
      t.inst = some ⟨i.cfg, hist, c⟩ ∧ u.inst = some ⟨i.cfg, hist, c⟩ ∧ (⟨i.cfg, hist, c⟩ : Instance).wf = true ∧
      t.delivered = s.delivered ++ responses i.cfg.W [r] ∧ u.delivered = s'.delivered ++ responses i.cfg.W [r'] ∧
      sameResponse i.cfg.fmt r r' := by
  cases ha : i.accepts v with
  | true =>
    exact ⟨_, _, _, _, _, _, execPush_accepted hi hw ha, execPush_accepted hi' hw ha, rfl, rfl, wf_pushed hw ha, rfl, rfl,
      sameResponse_rspWord false (sameOutput_output hw s.draws s'.draws v)⟩
  | false =>
    exact ⟨_, _, _, _, _, _, execPush_rejected hi ha, execPush_rejected hi' ha, hi, hi', hw, rfl, rfl,
      sameResponse_rspWord true (sameOutput_refl _ 0)⟩

/-- The same for any pushes. -/
theorem execAll_pushes_same {cfg : FilterConfig} (xs : List (Word cfg.W)) :
    ∀ {s s' : State} {hist : List (Word cfg.W)} {c : Nat}, s.inst = some ⟨cfg, hist, c⟩ → s'.inst = some ⟨cfg, hist, c⟩ →
      (⟨cfg, hist, c⟩ : Instance).wf = true →
      ∃ t u rs rs', execAll (pushes xs) s = .next t ∧ execAll (pushes xs) s' = .next u ∧ t.inst = u.inst ∧
        t.delivered = s.delivered ++ responses cfg.W rs ∧ u.delivered = s'.delivered ++ responses cfg.W rs' ∧
        rs.length = xs.length ∧ List.Forall₂ (sameResponse cfg.fmt) rs rs' := by
  induction xs with
  | nil =>
    intro s s' hist c hi hi' _
    exact ⟨s, s', [], [], rfl, rfl, hi.trans hi'.symm, by simp [responses], by simp [responses], rfl, .nil⟩
  | cons x xs ih =>
    intro s s' hist c hi hi' hw
    obtain ⟨s₁, s₁', hist₁, c₁, r, r', h₁, h₁', hi₁, hi₁', hw₁, hd₁, hd₁', hr⟩ := execPush_same hi hi' hw x
    obtain ⟨t, u, rs, rs', ht, hu, hinst, hd, hd', hlen, hrs⟩ := ih hi₁ hi₁' hw₁
    exact ⟨t, u, r :: rs, r' :: rs', (execAll_cons h₁ _).trans ht, (execAll_cons h₁' _).trans hu, hinst,
      by simp [hd, hd₁, responses], by simp [hd', hd₁', responses], by simp [hlen], .cons hr hrs⟩

/-- Settles O14: the commands keep the configuration, RESET and CONSTRUCT both leave its construction state, and pushes go
on from there alike. -/
theorem resetIsReconstruction : Obligations.ResetIsReconstruction := by
  intro s i cmds s₁ s₂ c hi hw hcmds hreset hcon
  have hops : ∀ op ∈ cmds.map decode, ∀ cfg, op ≠ .construct cfg := by
    intro op hop
    obtain ⟨cw, -, rfl⟩ := List.mem_map.mp hop
    exact decode_ne_construct cw
  have h₂ : s₂.inst = some (Instance.fresh i.cfg) := by
    obtain ⟨j, hj, rfl⟩ := execReset_next hreset
    have hcfg := (execAll_sameBuild _ hops hcmds).map_cfg
    simp only [hi, hj, Option.map_some, Option.some.injEq] at hcfg
    simp [hcfg]
  have hc : c.inst = some (Instance.fresh i.cfg) := by
    cases (execConstruct_legal s ((wf_iff i).mp hw).1 (ofSpec_of_wf hw)).symm.trans hcon
    rfl
  refine ⟨h₂.trans hc.symm, fun xs => ?_⟩
  obtain ⟨t, u, rs, rs', ht, hu, hinst, hd, hd', hlen, hrs⟩ := execAll_pushes_same xs h₂ hc (wf_cleared hw)
  refine ⟨t, u, ht, hu, hinst, ?_⟩
  rw [responsesSince_eq hd, responsesSince_eq hd']
  exact ⟨hlen, hrs⟩

end Sys2Proof.Proofs
end

section
/-! Which slots the taps meet (41_push.md rules R88, R93, R94). -/

namespace Sys2Proof.Proofs

open Sys2Proof.Machine Sys2Proof.Laws

theorem isPowerOfTwo_two_pow (j : Nat) : isPowerOfTwo (2 ^ j) = true := (isPowerOfTwo_iff _).mpr ⟨j, rfl⟩

theorem tapSlot_eq_emod {taps : Nat} (hp : isPowerOfTwo taps = true) (c k : Nat) :
    (tapSlot c (maskOf taps) k : Int) = ((c : Int) - 1 - k) % taps := wrap_eq_mod hp _

/-- The slot of a tap, as a remainder of natural numbers. -/
theorem tapSlot_eq_add_mod {taps c k : Nat} (hp : isPowerOfTwo taps = true) (hk : k < taps) :
    tapSlot c (maskOf taps) k = (c + (taps - 1 - k)) % taps := by
  have hslot := tapSlot_eq_emod hp c k
  rw [← Int.add_emod_right, show (c : Int) - 1 - k + taps = ((c + (taps - 1 - k) : Nat) : Int) by omega] at hslot
  exact_mod_cast hslot

/-- The last tap meets the slot at the advanced cursor (41_push.md rule R93). -/
theorem tapSlot_last {taps c : Nat} (hp : isPowerOfTwo taps = true) (hc : c < taps) :
    tapSlot c (maskOf taps) (taps - 1) = c := by
  rw [tapSlot_eq_add_mod hp (by omega), Nat.sub_self, Nat.add_zero, Nat.mod_eq_of_lt hc]

/-- The tap that meets a slot: going back from the slot by as many slots gives the tap, and the other way round. -/
theorem tapSlot_tapSlot {taps c k : Nat} (hp : isPowerOfTwo taps = true) (hk : k < taps) :
    tapSlot c (maskOf taps) (tapSlot c (maskOf taps) k) = k := by
  have hslot := tapSlot_eq_emod hp c (tapSlot c (maskOf taps) k)
  rw [tapSlot_eq_emod hp c k, Int.sub_emod_emod, sub_sub_cancel, Int.emod_eq_of_lt (by omega) (by omega)] at hslot
  exact_mod_cast hslot

/-- Settles O48: taking the tap's slot undoes itself, so that it is injective and onto. -/
theorem tapsPairWithSlotsOneToOne : Obligations.TapsPairWithSlotsOneToOne := by
  intro j c hc
  have hp := isPowerOfTwo_two_pow j
  refine ⟨fun k l hk hl h => ?_, fun x hx => ⟨_, wrap_lt hp _, tapSlot_tapSlot hp hx⟩, tapSlot_last hp hc⟩
  rw [← tapSlot_tapSlot (c := c) hp hk, h, tapSlot_tapSlot hp hl]

/-- A decrement is one less, or the mask from slot 0 (41_push.md rule R94). -/
theorem prevIndex_eq {taps c : Nat} (hp : isPowerOfTwo taps = true) (hc : c < taps) :
    prevIndex c (maskOf taps) = if c = 0 then maskOf taps else c - 1 := by
  rw [prevIndex_eq_tapSlot_zero, tapSlot_eq_add_mod hp (by omega)]
  split
  · next h => rw [h, Nat.zero_add, Nat.sub_zero, Nat.mod_eq_of_lt (by omega), maskOf]
  · rw [show c + (taps - 1 - 0) = c - 1 + taps by omega, Nat.add_mod_right, Nat.mod_eq_of_lt (by omega)]

/-- Decrement number `k` of a PUSH leaves the slot `k` back from the advanced cursor. -/
theorem prevIndex_iterate {taps c : Nat} (hp : isPowerOfTwo taps = true) (hc : c < taps) (k : Nat) :
    (((fun x => prevIndex x (maskOf taps))^[k] c : Nat) : Int) = ((c : Int) - k) % taps := by
  induction k with
  | zero => rw [Function.iterate_zero_apply, Int.ofNat_zero, Int.sub_zero, Int.emod_eq_of_lt (by omega) (by omega)]
  | succ k ih =>
    rw [Function.iterate_succ_apply', prevIndex, wrap_eq_mod hp, ih, Int.emod_sub_emod, Int.sub_sub, Int.natCast_succ]

theorem prevIndex_iterate_eq_zero_iff {taps c k : Nat} (hp : isPowerOfTwo taps = true) (hc : c < taps) (hk : k < taps) :
    (fun x => prevIndex x (maskOf taps))^[k] c = 0 ↔ k = c := by
  have hslot := prevIndex_iterate hp hc k
  rcases le_or_gt k c with h | h
  · rw [Int.emod_eq_of_lt (by omega) (by omega)] at hslot
    omega
  · rw [← Int.add_emod_right, Int.emod_eq_of_lt (by omega) (by omega)] at hslot
    omega

/-- Settles O49: decrement number `k` leaves slot 0 exactly where `k` is the cursor. -/
theorem oneWrapPerPush : Obligations.OneWrapPerPush := by
  intro j c hc
  have hp := isPowerOfTwo_two_pow j
  refine ⟨prevIndex_eq hp hc, ?_⟩
  have hfilter : ((List.range (2 ^ j)).filter fun k => (fun x => prevIndex x (maskOf (2 ^ j)))^[k] c == 0) =
      (List.range (2 ^ j)).filter (· == c) :=
    List.filter_congr fun k hk => by
      rw [Bool.eq_iff_iff, beq_iff_eq, beq_iff_eq, prevIndex_iterate_eq_zero_iff hp hc (List.mem_range.mp hk)]
  rw [hfilter, List.filter_beq, List.count_eq_one_of_mem List.nodup_range (List.mem_range.mpr hc), List.replicate_one]

end Sys2Proof.Proofs
end

section
/-! One PUSH: what it writes, answers and rejects (41_push.md rules R86 to R99). -/

namespace Sys2Proof.Proofs

open Sys2Proof.Machine Sys2Proof.Laws

/-! What a PUSH that answers has done, on any instance. -/

/-- f(v) is PUSH v (30_encoding.md rule R61). -/
theorem exec_call (v : Sample) (s : State) : exec (.call v) s = exec (.push v) s := rfl

/-- Everything one PUSH can do to a ring (41_push.md rules R86, R90). -/
theorem pushRing_cases {α : Type} (F : Fmt α) (strict : Bool) (taps : Nat) (coeff hist : List α) (c : Nat) (x : α) :
    (rejects F strict x = true ∧ pushRing F strict taps coeff hist c x = .rejected) ∨
    pushRing F strict taps coeff hist c x = .noSlot ∨
    ∃ hist' c' y, memWrite hist c x = some hist' ∧ pushRing F strict taps coeff hist c x = .done hist' c' y := by
  unfold pushRing
  split
  · next hr => exact .inl ⟨hr, rfl⟩
  · right
    split
    · next hist' c0 hw _ =>
      dsimp only
      split
      · next acc _ => exact .inr ⟨hist', _, acc, hw, rfl⟩
      · exact .inl rfl
    · exact .inl rfl

/-- Everything a PUSH that answers can have done to the instance, well formed or not. -/
theorem execPush_next {s t : State} {i : Instance} {v : Word i.cfg.W} (hi : s.inst = some i)
    (h : exec (.push ⟨i.cfg.W, v⟩) s = .next t) :
    (i.accepts v = false ∧ t.inst = some i) ∨ (i.accepts v = true ∧ ∃ hist cursor,
      memWrite i.history i.cursor v = some hist ∧ t.inst = some { i with history := hist, cursor := cursor }) := by
  cases ha : i.accepts v with
  | false =>
    rw [execPush_rejected hi ha] at h
    cases h
    exact .inl ⟨rfl, hi⟩
  | true =>
    right
    obtain ⟨rw', h⟩ := pushState_next h
    unfold pushOne at h
    simp only [hi, if_true, BitVec.setWidth_eq] at h
    rcases pushRing_cases (fmtAt i.cfg.fmt s.draws) i.cfg.strict i.cfg.taps i.cfg.coeff i.history i.cursor v with
      ⟨hr, -⟩ | hring | ⟨hist, cursor, acc, hwrite, hring⟩
    · rw [rejects_eq_not_accepts, ha] at hr
      cases hr
    · rw [hring] at h
      cases h
    · rw [hring] at h
      cases h
      exact ⟨rfl, hist, cursor, hwrite, rfl⟩

/-- The slot at the cursor holds the oldest sample (10_state.md rule R15). -/
theorem memRead_cursor {i : Instance} (hw : i.wf = true) : memRead i.history i.cursor = i.window.getLast? := by
  obtain ⟨hp, hh, -, hc, -⟩ := (wf_iff i).mp hw
  rw [List.getLast?_eq_getElem?, window_length, Instance.window, ringWindow, List.getElem?_map,
    List.getElem?_range (by omega), Option.map_some, tapSlot_last hp hc, memRead_lt (zeroWord i.cfg.fmt) (by omega)]

/-- Settles O18: a PUSH that answers has written the slot at the cursor, or nothing. -/
theorem pushWritesOnlyTheSlotAtTheCursor : Obligations.PushWritesOnlyTheSlotAtTheCursor := by
  intro s t i v hi h
  rcases execPush_next hi h with ⟨ha, ht⟩ | ⟨ha, hist, cursor, hwrite, ht⟩
  · refine ⟨i.history, i.cursor, ht, fun _ _ => rfl, fun hv => ?_, fun _ => ht, memRead_cursor⟩
    rw [accepts_iff.mpr hv] at ha
    cases ha
  · refine ⟨hist, cursor, ht, fun j hj => memRead_memWrite_other hwrite hj.symm, fun _ => memRead_memWrite_same hwrite,
      fun hv => ?_, memRead_cursor⟩
    simp [Instance.accepts, hv] at ha

/-- Settles O17: such a sample is not accepted, and without STRICT every sample is. -/
theorem strictPushRejectsNonFinite : Obligations.StrictPushRejectsNonFinite := by
  intro s i v hi
  refine ⟨fun hs hv => ?_, fun hw hs => ?_⟩
  · have hpush := execPush_rejected hi (v := v) (by simp [Instance.accepts, hs, hv])
    refine ⟨_, hpush, (exec_call _ s).trans hpush, rfl, ?_⟩
    have hword : rspWord true (0 : Word i.cfg.W) = BitVec.ofNat _ (2 ^ i.cfg.W) := cmdWord_true_eq_ofNat 0
    rw [raiseInvalidSample_delivered, hword]
  · exact ⟨_, _, execPush_accepted hi hw (by simp [Instance.accepts, hs]), rfl, rspErr_rspWord false _⟩

/-- Settles O22: where the instance is the same, PUSH answers alike. -/
theorem pushIsDeterministic : Obligations.PushIsDeterministic := by
  intro s₁ s₂ i v h₁ h₂ hw
  obtain ⟨t, u, hist, c, r, r', ht, hu, hit, hiu, -, hdt, hdu, hr⟩ := execPush_same h₁ h₂ hw v
  exact ⟨t, u, r, r', ht, hu, hit.trans hiu.symm, hdt, hdu, hr⟩

/-- Settles O19: the mask of a power of two is a remainder. -/
theorem cursorAdvancesAndWraps : Obligations.CursorAdvancesAndWraps := by
  intro s i v hi hw hv
  obtain ⟨hp, -, -, hc, -⟩ := (wf_iff i).mp hw
  have hmod := nextIndex_eq (c := i.cursor) hp
  refine ⟨_, i.pushed v, execPush_accepted hi hw (accepts_iff.mpr hv), rfl, rfl, hmod, fun hlt => ?_, fun heq => ?_,
    fun hone => ?_⟩
  · rw [pushed_cursor, hmod, Nat.mod_eq_of_lt hlt]
  · rw [pushed_cursor, hmod, heq, Nat.mod_self]
  · rw [pushed_cursor, hmod, hone, Nat.mod_one]

/-! The output. -/

/-- The running sum over the taps from number `a` on, as a fold over the numbers of the taps (41_push.md rule R92). -/
theorem dotFrom_range' {α : Type} (F : Fmt α) (z : α) (g : Nat → α) (cs : List α) (n : Nat) : ∀ (a : Nat) (acc : α),
    a + n = cs.length → dotFrom F acc ((List.range' a n).map g) (cs.drop a) =
      (List.range' a n).foldl (fun acc k => F.fadd acc (F.fmul (g k) (cs.getD k z))) acc := by
  induction n with
  | zero => intro a acc _; simp [dotFrom]
  | succ n ih =>
    intro a acc h
    have ha : a < cs.length := by omega
    rw [List.range'_succ, List.map_cons, List.drop_eq_getElem_cons ha, dotFrom, List.foldl_cons,
      ih (a + 1) _ (by omega), List.getD_eq_getElem cs z ha]

theorem range_eq_cons {n : Nat} (h : 0 < n) : List.range n = 0 :: List.range' 1 (n - 1) := by
  rw [List.range_eq_range', ← Nat.sub_add_cancel h, List.range'_succ, Nat.add_sub_cancel]

/-- The sum over the window of a ring just pushed, with its slots in closed form and in its order: tap 0 is the sample
itself, then taps 1 to `taps - 1` (41_push.md rules R92, R93). No slot is missing, so that `z` and `d` stand for
nothing. -/
theorem firSum_ringWindow_push {α : Type} (F : Fmt α) (z d : α) {taps c : Nat} {hist coeff : List α}
    (hp : isPowerOfTwo taps = true) (hh : hist.length = taps) (hl : coeff.length = taps) (hc : c < taps) (v : α) :
    firSum F (ringWindow z taps (hist.set c v) (nextIndex c (maskOf taps))) coeff =
      (List.range' 1 (taps - 1)).foldl (fun acc k => F.fadd acc
        (F.fmul ((hist.set c v).getD (((c + 1) % taps + (taps - 1 - k)) % taps) d) (coeff.getD k d)))
      (F.fmul v (coeff.getD 0 d)) := by
  have hpos := isPowerOfTwo_pos hp
  have hslots : ∀ k ∈ List.range' 1 (taps - 1),
      (hist.set c v).getD (tapSlot (nextIndex c (maskOf taps)) (maskOf taps) k) z =
        (hist.set c v).getD (((c + 1) % taps + (taps - 1 - k)) % taps) d := by
    intro k hk
    obtain ⟨-, hk⟩ := List.mem_range'_1.mp hk
    have hlt : ((c + 1) % taps + (taps - 1 - k)) % taps < (hist.set c v).length := by
      rw [List.length_set, hh]
      exact Nat.mod_lt _ hpos
    rw [tapSlot_eq_add_mod hp (by omega), nextIndex_eq hp, List.getD_eq_getElem _ _ hlt, List.getD_eq_getElem _ _ hlt]
  have hwindow : ringWindow z taps (hist.set c v) (nextIndex c (maskOf taps)) =
      v :: (List.range' 1 (taps - 1)).map fun k => (hist.set c v).getD (((c + 1) % taps + (taps - 1 - k)) % taps) d := by
    rw [ringWindow, range_eq_cons hpos, List.map_cons, List.map_congr_left hslots, tapSlot_next_zero hp hc,
      List.getD_eq_getElem _ _ (by simpa [hh] using hc), List.getElem_set_self]
  have hcoeff : coeff = coeff.getD 0 d :: coeff.drop 1 := by
    rw [List.getD_eq_getElem _ _ (by omega), ← List.drop_eq_getElem_cons, List.drop_zero]
  rw [hwindow]
  conv_lhs => rw [hcoeff]
  rw [firSum, dotFrom_range' F d _ _ _ _ _ (by omega)]

/-- Settles O16: the output is the sum over the window, whose slots are remainders. -/
theorem pushComputesTheSequentialSum : Obligations.PushComputesTheSequentialSum := by
  intro s i v hi hw hv N hist cursor y
  obtain ⟨hp, hh, hl, hc, -⟩ := (wf_iff i).mp hw
  have hpush := execPush_accepted hi hw (accepts_iff.mpr hv)
  refine ⟨_, s.draws, hpush, (exec_call _ s).trans hpush, ?_, ?_⟩
  · rw [respond_inst, Instance.pushed, nextIndex_eq hp]
  · have hy : i.output s.draws v = y (fmtAt i.cfg.fmt s.draws) :=
      firSum_ringWindow_push _ (zeroWord i.cfg.fmt) 0 hp hh hl hc v
    rw [respond_delivered, rspWord_false, hy]

/-- Settles O28: with one tap the window is the sample, and the sum its product. -/
theorem singleTapIsAScalarMultiplier : Obligations.SingleTapIsAScalarMultiplier := by
  intro s i c v hi hw hone hcoeff hv
  obtain ⟨-, hh, -, hc, -⟩ := (wf_iff i).mp hw
  obtain ⟨h, hhist⟩ := List.length_eq_one_iff.mp (hh.trans hone)
  have hcursor : i.cursor = 0 := by omega
  have hout : i.output s.draws v = (fmtAt i.cfg.fmt s.draws).fmul v c := by
    rw [Instance.output, window_pushed hw, hone, hcoeff]
    simp [firSum, dotFrom]
  refine ⟨_, s.draws, execPush_accepted hi hw (accepts_iff.mpr hv), ?_, ?_, by rw [hone, maskOf]⟩
  · rw [respond_inst, Instance.pushed, hhist, hcursor, hone]
    rfl
  · rw [respond_delivered, rspWord_false, hout]

end Sys2Proof.Proofs
end

section
/-! PUSHV as its pushes, and that every step completes (41_push.md rules R101, R102). -/

namespace Sys2Proof.Proofs

open Sys2Proof.Machine Sys2Proof.Laws

/-! The loop of PUSHV, sample by sample. -/

theorem pushLoop_accepted {s : State} {i : Instance} {v : Word i.cfg.W} (vs ys : List (Word i.cfg.W))
    (hi : s.inst = some i) (hw : i.wf = true) (ha : i.accepts v = true) :
    pushLoop i.cfg.W (v :: vs) ys s = pushLoop i.cfg.W vs (ys ++ [i.output s.draws v])
      (respond ⟨i.cfg.W, rspWord false (i.output s.draws v)⟩
        { s with inst := some (i.pushed v), draws := s.draws + 1 }) := by
  simp [pushLoop, pushOne_accepted hi hw ha]

theorem pushLoop_rejected {s : State} {i : Instance} {v : Word i.cfg.W} (vs ys : List (Word i.cfg.W))
    (hi : s.inst = some i) (ha : i.accepts v = false) :
    pushLoop i.cfg.W (v :: vs) ys s = .next
      (deliver (.bulk i.cfg.W ys (some (ys.length, .invalidSample))) (raiseInvalidSample i.cfg.W s)) := by
  simp [pushLoop, pushOne_rejected hi ha]

/-- What PUSHV reports after the outputs `ys` and `good` accepted samples of `n` left, with their responses `rs`. -/
def bulkReport {W : Nat} (ys : List (Word W)) (good n : Nat) (rs : List (RspWord W)) : Delivery :=
  .bulk W (ys ++ (rs.take good).map rspData) (if good < n then some (ys.length + good, .invalidSample) else none)

theorem bulkReport_cons {W : Nat} (ys : List (Word W)) (good n : Nat) (y : Word W) (rs : List (RspWord W)) :
    bulkReport ys (good + 1) (n + 1) (rspWord false y :: rs) = bulkReport (ys ++ [y]) good n rs := by
  simp [bulkReport, Nat.add_assoc, Nat.add_comm 1]

/-- The loop of PUSHV makes the pushes up to the first rejected sample, and then reports. -/
theorem pushLoop_eq_execAll {cfg : FilterConfig} (vs : List (Word cfg.W)) :
    ∀ (ys : List (Word cfg.W)) {s : State} {hist : List (Word cfg.W)} {c : Nat}, s.inst = some ⟨cfg, hist, c⟩ →
      (⟨cfg, hist, c⟩ : Instance).wf = true →
      let good := (vs.takeWhile (Instance.accepts ⟨cfg, hist, c⟩)).length
      ∃ t rs, execAll (pushes (vs.take (good + 1))) s = .next t ∧ t.delivered = s.delivered ++ responses cfg.W rs ∧
        rs.length = min (good + 1) vs.length ∧
        pushLoop cfg.W vs ys s = .next (deliver (bulkReport ys good vs.length rs) t) := by
  induction vs with
  | nil => intro ys s hist c hi _; exact ⟨s, [], rfl, by simp [responses], rfl, by simp [pushLoop, bulkReport]⟩
  | cons v vs ih =>
    intro ys s hist c hi hw good
    cases ha : Instance.accepts ⟨cfg, hist, c⟩ v with
    | true =>
      have hgood : good = (vs.takeWhile (Instance.accepts ⟨cfg, hist, c⟩)).length + 1 := by simp [good, ha]
      obtain ⟨t, rs, ht, hd, hlen, hloop⟩ := ih (ys ++ [Instance.output ⟨cfg, hist, c⟩ s.draws v])
        (s := respond ⟨cfg.W, rspWord false (Instance.output ⟨cfg, hist, c⟩ s.draws v)⟩
          { s with inst := some (Instance.pushed ⟨cfg, hist, c⟩ v), draws := s.draws + 1 }) rfl (wf_pushed hw ha)
      refine ⟨t, rspWord false (Instance.output ⟨cfg, hist, c⟩ s.draws v) :: rs, ?_, ?_, ?_, ?_⟩
      · rw [hgood]
        exact (execAll_cons (execPush_accepted hi hw ha) _).trans ht
      · rw [hd]; simp [responses]
      · rw [List.length_cons, hlen, hgood, List.length_cons, Nat.succ_min_succ]; rfl
      · rw [pushLoop_accepted vs ys hi hw ha]
        rw [hgood, List.length_cons, bulkReport_cons]
        exact hloop
    | false =>
      have hgood : good = 0 := by simp [good, ha]
      refine ⟨raiseInvalidSample cfg.W s, [rspWord true 0], ?_, rfl, by simp [hgood], ?_⟩
      · rw [hgood]
        exact execAll_cons (execPush_rejected hi ha) []
      · rw [pushLoop_rejected vs ys hi ha, hgood]
        simp [bulkReport]

/-- Settles O32: PUSHV is its loop from no outputs. -/
theorem bulkPushIsItsPushes : Obligations.BulkPushIsItsPushes := by
  intro s i vs hi hw good
  obtain ⟨t, rs, ht, hd, hlen, hloop⟩ := pushLoop_eq_execAll vs [] hi hw
  refine ⟨t, _, ht, hloop, rfl, ?_, ?_⟩
  · rw [responsesSince_eq hd, hlen]
  · rw [responsesSince_eq hd, deliver_delivered, bulkReport, List.nil_append, List.length_nil, Nat.zero_add]

/-! The slots pushes reach. -/

/-- Pushes leave every slot alone that none of them reaches from the cursor on, and the configuration. -/
theorem execAll_pushes_frame {cfg : FilterConfig} (xs : List (Word cfg.W)) :
    ∀ {s t : State} {hist : List (Word cfg.W)} {c : Nat}, s.inst = some ⟨cfg, hist, c⟩ →
      (⟨cfg, hist, c⟩ : Instance).wf = true → execAll (pushes xs) s = .next t →
      ∃ hist' c', t.inst = some ⟨cfg, hist', c'⟩ ∧
        ∀ j, (∀ k, k < xs.length → (c + k) % cfg.taps ≠ j) → memRead hist' j = memRead hist j := by
  induction xs with
  | nil => intro s t hist c hi _ h; cases h; exact ⟨hist, c, hi, fun _ _ => rfl⟩
  | cons x xs ih =>
    intro s t hist c hi hw h
    obtain ⟨hp, -, -, hc, -⟩ := (wf_iff _).mp hw
    rw [pushes, List.map_cons] at h
    cases ha : Instance.accepts ⟨cfg, hist, c⟩ x with
    | true =>
      rw [execAll_cons (execPush_accepted hi hw ha)] at h
      obtain ⟨hist', c', ht, hframe⟩ := ih rfl (wf_pushed hw ha) h
      refine ⟨hist', c', ht, fun j hj => ?_⟩
      have hcj : c ≠ j := by
        have := hj 0 (by simp)
        rwa [Nat.add_zero, Nat.mod_eq_of_lt hc] at this
      rw [hframe j fun k hk => ?_]
      · exact List.getElem?_set_ne hcj
      · have := hj (k + 1) (by simpa using hk)
        rwa [nextIndex_eq hp, Nat.mod_add_mod, Nat.add_assoc, Nat.add_comm 1 k]
    | false =>
      rw [execAll_cons (execPush_rejected hi ha)] at h
      obtain ⟨hist', c', ht, hframe⟩ := ih (s := raiseInvalidSample cfg.W s) hi hw h
      exact ⟨hist', c', ht, fun j hj => hframe j fun k hk => hj k (Nat.lt_succ_of_lt hk)⟩

/-- Settles O33: PUSHV leaves what some of its pushes leave. -/
theorem bulkPushWritesOnlyTheSlotsItReaches : Obligations.BulkPushWritesOnlyTheSlotsItReaches := by
  intro s t i vs hi hw h
  obtain ⟨u, t', hu, ht', hinst, -⟩ := bulkPushIsItsPushes s i vs hi hw
  cases h.symm.trans ht'
  obtain ⟨hist', c', hiu, hframe⟩ := execAll_pushes_frame _ hi hw hu
  refine ⟨hist', c', hinst.trans hiu, fun j hj => hframe j fun k hk => hj k ?_⟩
  exact lt_of_lt_of_le hk (List.length_take_le' _ _)

/-! Every step completes. -/

/-- A CONSTRUCT of a table of the spec completes, whatever its tap count (40_construct_reset.md rule R70). -/
theorem execConstruct_completes {cfg : FilterConfig} (s : State) (h : (∃ j, cfg.taps = 2 ^ j) → cfg.ofSpec = true) :
    ∃ t, execConstruct cfg s = .next t := by
  cases hp : isPowerOfTwo cfg.taps with
  | true => exact ⟨_, execConstruct_legal s hp (h ((isPowerOfTwo_iff _).mp hp))⟩
  | false => exact ⟨_, execConstruct_illegal s hp⟩

/-- Settles O37: a step goes on with the instance, or is a CONSTRUCT of the host. -/
theorem everyStepCompletes : Obligations.EveryStepCompletes := by
  intro s i hi hs hfits htable
  have hhead : ∀ a ∈ s.inbox.head?, a.fits i.cfg.W = true := by
    intro a ha
    obtain ⟨rest, hb⟩ := List.head?_eq_some_iff.mp ha
    exact hfits a rest hb
  rcases step_goes hi hs hhead with ⟨t, -, ht, -⟩ | ⟨cfg, rest, -, hb, hstep⟩
  · exact ⟨t, ht⟩
  · rw [hstep]
    exact execConstruct_completes _ fun hp => (ofSpec_iff cfg).mpr (htable cfg rest hb hp)

end Sys2Proof.Proofs
end

section
/-! The outputs are the convolution of the samples with the taps (41_push.md rules R92, R95, R98, R100). -/

namespace Sys2Proof.Proofs

open Sys2Proof.Machine Sys2Proof.Laws

/-! Windows. -/

section Windows

variable {α : Type}

/-- The window of `n` words, newest first, that the window `w` becomes when `xs` are pushed, oldest first. -/
def slide (n : Nat) (w xs : List α) : List α := (xs.reverse ++ w).take n

theorem slide_nil {n : Nat} {w : List α} (h : w.length = n) : slide n w [] = w := by
  rw [slide, List.reverse_nil, List.nil_append, ← h, List.take_length]

theorem slide_append (n : Nat) (w xs ys : List α) : slide n w (xs ++ ys) = slide n (slide n w xs) ys := by
  simp [slide, List.take_append (i := n) (l₁ := ys.reverse), List.take_take]

theorem slide_singleton {n : Nat} (hn : 0 < n) (w : List α) (x : α) : slide n w [x] = x :: w.take (n - 1) := by
  rw [slide, List.reverse_singleton, List.singleton_append, List.take_cons hn]

/-- After `n` samples nothing of the window before them is left (41_push.md rule R100). -/
theorem slide_of_le {n : Nat} {xs : List α} (h : n ≤ xs.length) (w : List α) : slide n w xs = xs.reverse.take n :=
  List.take_append_of_le_length (by simpa using h)

/-- From zeros the window holds the last samples, with zeros before the first one. -/
theorem slide_replicate_take {n m : Nat} (z : α) {xs : List α} (hm : m < xs.length) :
    slide n (List.replicate n z) (xs.take (m + 1)) = lastSamples z n xs m := by
  have hxs : (xs.take (m + 1)).length = m + 1 := List.length_take_of_le hm
  apply List.ext_getElem (by simp [slide, lastSamples])
  intro k hk hk'
  have hkn : k < n := by simpa [lastSamples] using hk'
  simp only [slide, lastSamples, List.getElem_take, List.getElem_map, List.getElem_range]
  split
  · next hkm =>
    rw [List.getElem_append_left (by rw [List.length_reverse, hxs]; omega), List.getElem_reverse, List.getElem_take,
      List.getD_eq_getElem _ _ (by omega)]
    simp only [hxs, Nat.add_sub_cancel]
  · next hkm =>
    rw [List.getElem_append_right (by rw [List.length_reverse, hxs]; omega), List.getElem_replicate]

/-- What `g` gives over the window that each push of the samples `xs` leaves, with the number of the push. -/
def overWindows {β : Type} (g : Nat → List α → β) (n : Nat) (w xs : List α) : List β :=
  (List.range xs.length).map fun m => g m (slide n w (xs.take (m + 1)))

theorem overWindows_cons {β : Type} (g : Nat → List α → β) (n : Nat) (w xs : List α) (x : α) :
    overWindows g n w (x :: xs) = g 0 (slide n w [x]) :: overWindows (fun m => g (m + 1)) n (slide n w [x]) xs := by
  have hwindow : ∀ m, slide n w ((x :: xs).take (m + 1 + 1)) = slide n (slide n w [x]) (xs.take (m + 1)) :=
    fun m => slide_append n w [x] _
  simp only [overWindows, List.length_cons, List.range_succ_eq_map, List.map_cons, List.map_map, Function.comp_def,
    Nat.succ_eq_add_one, hwindow]
  rfl

theorem overWindows_replicate {β : Type} (g : Nat → List α → β) (n : Nat) (z : α) (xs : List α) :
    overWindows g n (List.replicate n z) xs = (List.range xs.length).map fun m => g m (lastSamples z n xs m) :=
  List.map_congr_left fun m hm => by rw [slide_replicate_take z (List.mem_range.mp hm)]

theorem getElem?_overWindows {β : Type} (g : Nat → List α → β) (n : Nat) (w : List α) {xs : List α} {m : Nat}
    (hm : m < xs.length) : (overWindows g n w xs)[m]? = some (g m (slide n w (xs.take (m + 1)))) := by
  simp [overWindows, hm]

end Windows

/-! The ring of any format. -/

/-- Every push of a well-formed ring answers the sum over the window it leaves. -/
theorem ringOutputs_eq {α : Type} (F : Fmt α) (z : α) {taps : Nat} (hp : isPowerOfTwo taps = true) {coeff : List α}
    (hl : coeff.length = taps) (xs : List α) : ∀ {hist : List α} {c : Nat}, hist.length = taps → c < taps →
      ringOutputs F taps coeff hist c xs =
        some (overWindows (fun _ w => firSum F w coeff) taps (ringWindow z taps hist c) xs) := by
  induction xs with
  | nil => intro hist c _ _; rfl
  | cons x xs ih =>
    intro hist c hh hc
    have hwindow : ringWindow z taps (hist.set c x) (nextIndex c (maskOf taps)) =
        slide taps (ringWindow z taps hist c) [x] := by
      rw [ringWindow_push z hp hh hc, slide_singleton (isPowerOfTwo_pos hp)]
    rw [ringOutputs, pushRing_done F z hp hh hl hc rfl]
    simp only
    rw [ih (by simpa using hh) (nextIndex_lt hp c), Option.map_some, overWindows_cons, hwindow]

/-- Settles O57: the window of the zero history holds zeros. -/
theorem anyFormatConvolves : Obligations.AnyFormatConvolves := by
  intro α F j coeff xs hl
  rw [ringOutputs_eq F F.zero (isPowerOfTwo_two_pow j) hl xs (by simp) (Nat.two_pow_pos j), ringWindow_replicate,
    overWindows_replicate]

/-! The machine. -/

/-- `s` has a well-formed instance of this configuration with the window `w`, wherever its cursor stands. -/
def HasWindow (cfg : FilterConfig) (s : State) (w : List (Word cfg.W)) : Prop :=
  ∃ hist c, s.inst = some ⟨cfg, hist, c⟩ ∧ (⟨cfg, hist, c⟩ : Instance).wf = true ∧ Instance.window ⟨cfg, hist, c⟩ = w

theorem HasWindow.of_inst {s : State} {i : Instance} (hi : s.inst = some i) (hw : i.wf = true) :
    HasWindow i.cfg s i.window := ⟨i.history, i.cursor, hi, hw, rfl⟩

theorem HasWindow.of_fresh {s : State} {cfg : FilterConfig} (hi : s.inst = some (Instance.fresh cfg))
    (hw : (Instance.fresh cfg).wf = true) : HasWindow cfg s (List.replicate cfg.taps (zeroWord cfg.fmt)) :=
  ⟨_, _, hi, hw, ringWindow_replicate _ _⟩

theorem HasWindow.slid_by_nil {cfg : FilterConfig} {s : State} {w : List (Word cfg.W)} (h : HasWindow cfg s w) :
    HasWindow cfg s (slide cfg.taps w []) := by
  obtain ⟨hist, c, hi, hw, rfl⟩ := h
  exact ⟨hist, c, hi, hw, (slide_nil (window_length _)).symm⟩

/-- An accepted PUSH slides the window and answers the sum over it. -/
theorem HasWindow.push {cfg : FilterConfig} {s : State} {w : List (Word cfg.W)} (h : HasWindow cfg s w) {x : Word cfg.W}
    (hx : cfg.strict = true → isFinite cfg.fmt x = true) :
    ∃ t, exec (.push ⟨cfg.W, x⟩) s = .next t ∧ HasWindow cfg t (slide cfg.taps w [x]) ∧ t.draws = s.draws + 1 ∧
      t.delivered = s.delivered ++
        responses cfg.W [rspWord false (firSum (fmtAt cfg.fmt s.draws) (slide cfg.taps w [x]) cfg.coeff)] := by
  obtain ⟨hist, c, hi, hw, rfl⟩ := h
  have ha : Instance.accepts ⟨cfg, hist, c⟩ x = true := accepts_iff.mpr hx
  have hslide : (Instance.pushed ⟨cfg, hist, c⟩ x).window = slide cfg.taps (Instance.window ⟨cfg, hist, c⟩) [x] := by
    rw [window_pushed hw, slide_singleton (isPowerOfTwo_pos ((wf_iff _).mp hw).1)]
  rw [← hslide]
  exact ⟨_, execPush_accepted hi hw ha, ⟨_, _, rfl, wf_pushed hw ha, rfl⟩, rfl, rfl⟩

/-- Pushes of accepted samples slide the window and answer the sums over the windows on the way, each with its draw. -/
theorem HasWindow.pushAll {cfg : FilterConfig} (xs : List (Word cfg.W)) : ∀ {s : State} {w : List (Word cfg.W)},
    HasWindow cfg s w → (∀ x ∈ xs, cfg.strict = true → isFinite cfg.fmt x = true) →
    ∃ t, execAll (pushes xs) s = .next t ∧ HasWindow cfg t (slide cfg.taps w xs) ∧
      t.delivered = s.delivered ++ responses cfg.W
        (overWindows (fun m w => rspWord false (firSum (fmtAt cfg.fmt (s.draws + m)) w cfg.coeff)) cfg.taps w xs) := by
  induction xs with
  | nil => intro s w h _; exact ⟨s, rfl, h.slid_by_nil, by simp [responses, overWindows]⟩
  | cons x xs ih =>
    intro s w h hxs
    obtain ⟨hx, hxs⟩ := List.forall_mem_cons.mp hxs
    obtain ⟨s', hs', h', hk, hd'⟩ := h.push hx
    obtain ⟨t, ht, hwin, hd⟩ := ih h' hxs
    refine ⟨t, (execAll_cons hs' _).trans ht, ?_, ?_⟩
    · rwa [← slide_append] at hwin
    · rw [hd, hd', overWindows_cons, hk]
      simp [responses, Nat.add_assoc, Nat.add_comm 1]

/-- Settles O24: the window of the construction state holds zeros. -/
theorem outputsAreTheConvolution : Obligations.OutputsAreTheConvolution := by
  intro s cfg xs hi hw hxs
  obtain ⟨t, ht, -, hd⟩ := (HasWindow.of_fresh hi hw).pushAll xs hxs
  refine ⟨t, ht, ?_⟩
  rw [hd, overWindows_replicate, responses, List.map_map]
  simp only [Function.comp_def, rspWord_false]

/-- The responses to accepted samples, one by one. -/
theorem HasWindow.getElem?_responses {cfg : FilterConfig} {s : State} {w xs : List (Word cfg.W)} (h : HasWindow cfg s w)
    (hxs : ∀ x ∈ xs, cfg.strict = true → isFinite cfg.fmt x = true) :
    ∃ t, execAll (pushes xs) s = .next t ∧ ∀ j, j < xs.length → (responsesSince cfg.W s t)[j]? =
      some ((firSum (fmtAt cfg.fmt (s.draws + j)) (slide cfg.taps w (xs.take (j + 1))) cfg.coeff).setWidth _) := by
  obtain ⟨t, ht, -, hd⟩ := h.pushAll xs hxs
  refine ⟨t, ht, fun j hj => ?_⟩
  rw [responsesSince_eq hd, getElem?_overWindows _ _ _ hj, rspWord_false]

/-- Settles O27: after `N` pushes of the constant the window holds nothing else. -/
theorem constantInputReachesTheGain : Obligations.ConstantInputReachesTheGain := by
  intro s i v m hi hw hv
  obtain ⟨t, ht, hr⟩ := (HasWindow.of_inst hi hw).getElem?_responses (xs := List.replicate m v)
    fun x hx => List.eq_of_mem_replicate hx ▸ hv
  refine ⟨t, ht, fun j hj hN => ?_⟩
  rw [hr j (by simpa using hj), List.take_replicate, Nat.min_eq_left hj, slide_of_le (by simpa using hN),
    List.reverse_replicate, List.take_replicate, Nat.min_eq_left hN]

/-- After `N` accepted samples the window and the last output are the same for every past (41_push.md rule R100). -/
theorem HasWindow.pushAll_push {cfg : FilterConfig} {s : State} {w xs : List (Word cfg.W)} {v : Word cfg.W}
    (h : HasWindow cfg s w) (hxs : ∀ x ∈ xs ++ [v], cfg.strict = true → isFinite cfg.fmt x = true)
    (hN : cfg.taps ≤ xs.length + 1) :
    ∃ t u, execAll (pushes xs) s = .next t ∧ exec (.push ⟨cfg.W, v⟩) t = .next u ∧
      HasWindow cfg u ((xs ++ [v]).reverse.take cfg.taps) ∧ u.delivered = t.delivered ++ responses cfg.W
        [rspWord false (firSum (fmtAt cfg.fmt t.draws) ((xs ++ [v]).reverse.take cfg.taps) cfg.coeff)] := by
  obtain ⟨hxs, hv⟩ := List.forall_mem_append.mp hxs
  obtain ⟨t, ht, hwt, -⟩ := h.pushAll xs hxs
  obtain ⟨u, hu, hwu, -, hd⟩ := hwt.push (hv v (List.mem_singleton_self v))
  rw [← slide_append, slide_of_le (by simpa using hN)] at hwu hd
  exact ⟨t, u, ht, hu, hwu, hd⟩

/-- Settles O29: the `N` last samples are the whole window, for both pasts. -/
theorem oldSamplesAgeOut : Obligations.OldSamplesAgeOut := by
  intro s₁ s₂ cfg h₁ h₂ xs c₁ c₂ v hi₁ hi₂ hw₁ hw₂ hxs hN
  obtain ⟨t₁, u₁, ht₁, hu₁, ⟨h₁', c₁', hiu₁, -, hwin₁⟩, hd₁⟩ := (HasWindow.of_inst hi₁ hw₁).pushAll_push hxs hN
  obtain ⟨t₂, u₂, ht₂, hu₂, ⟨h₂', c₂', hiu₂, -, hwin₂⟩, hd₂⟩ := (HasWindow.of_inst hi₂ hw₂).pushAll_push hxs hN
  obtain ⟨-, -, -, -, hf, -⟩ := (wf_iff _).mp hw₁
  refine ⟨t₁, t₂, u₁, u₂, h₁', h₂', c₁', c₂', _, _, ht₁, ht₂, hu₁, hu₂, hd₁, hd₂, rspErr_rspWord _ _,
    rspErr_rspWord _ _, ?_, hiu₁, hiu₂, hwin₁.trans hwin₂.symm⟩
  rw [rspData_rspWord, rspData_rspWord]
  exact sameOutput_firSum hf _ _ _ _

end Sys2Proof.Proofs
end

section
/-! The impulse response: zeros around one sample leave its products (41_push.md rule R97). -/

namespace Sys2Proof.Proofs

open Sys2Proof.Machine Sys2Proof.Laws

/-! Sums with zeros, in any format. -/

section Zeros

variable {α : Type} {F : Fmt α} {Z C P : α → Prop}

/-- What the words with `Z`, the zeros, do in a format: products with the taps, the words with `C`, and sums of zeros
are zeros, and the words with `P` absorb zeros (42_numerics.md rule R111). -/
structure ZeroRules (F : Fmt α) (Z C P : α → Prop) : Prop where
  zero : Z F.zero
  mul : ∀ {z c}, Z z → C c → Z (F.fmul z c)
  add : ∀ {a b}, Z a → Z b → Z (F.fadd a b)
  absorb : ∀ {p z}, P p → Z z → F.fadd p z = p ∧ F.fadd z p = p

theorem ZeroRules.dotFrom_zeros (R : ZeroRules F Z C P) (xs : List α) : ∀ {cs : List α} {acc : α},
    Z acc → (∀ x ∈ xs, Z x) → (∀ c ∈ cs, C c) → Z (dotFrom F acc xs cs) := by
  induction xs with
  | nil => intro cs acc h _ _; exact h
  | cons x xs ih =>
    intro cs acc h hxs hcs
    cases cs with
    | nil => exact h
    | cons c cs =>
      obtain ⟨hx, hxs⟩ := List.forall_mem_cons.mp hxs
      obtain ⟨hc, hcs⟩ := List.forall_mem_cons.mp hcs
      exact ih (R.add h (R.mul hx hc)) hxs hcs

theorem ZeroRules.dotFrom_absorb (R : ZeroRules F Z C P) (xs : List α) : ∀ {cs : List α} {p : α},
    P p → (∀ x ∈ xs, Z x) → (∀ c ∈ cs, C c) → dotFrom F p xs cs = p := by
  induction xs with
  | nil => intro cs p _ _ _; rfl
  | cons x xs ih =>
    intro cs p h hxs hcs
    cases cs with
    | nil => rfl
    | cons c cs =>
      obtain ⟨hx, hxs⟩ := List.forall_mem_cons.mp hxs
      obtain ⟨hc, hcs⟩ := List.forall_mem_cons.mp hcs
      rw [dotFrom, (R.absorb h (R.mul hx hc)).1, ih h hxs hcs]

theorem ZeroRules.firSum_zeros (R : ZeroRules F Z C P) {xs cs : List α} (hxs : ∀ x ∈ xs, Z x) (hcs : ∀ c ∈ cs, C c) :
    Z (firSum F xs cs) := by
  cases xs with
  | nil => exact R.zero
  | cons x xs =>
    cases cs with
    | nil => exact R.zero
    | cons c cs =>
      obtain ⟨hx, hxs⟩ := List.forall_mem_cons.mp hxs
      obtain ⟨hc, hcs⟩ := List.forall_mem_cons.mp hcs
      exact R.dotFrom_zeros xs (R.mul hx hc) hxs hcs

/-- `y` is what zeros around the product `p` make of it: `p` itself, or a zero where `p` is one. -/
def Survives (Z P : α → Prop) (p y : α) : Prop := (P p → y = p) ∧ (Z p → Z y)

/-- The running sum from the product on. -/
theorem ZeroRules.dotFrom_survives (R : ZeroRules F Z C P) {p : α} {xs cs : List α} (hxs : ∀ x ∈ xs, Z x)
    (hcs : ∀ c ∈ cs, C c) : Survives Z P p (dotFrom F p xs cs) :=
  ⟨fun h => R.dotFrom_absorb xs h hxs hcs, fun h => R.dotFrom_zeros xs h hxs hcs⟩

/-- The running sum from a zero through the one sample that need not be a zero. -/
theorem ZeroRules.dotFrom_impulse (R : ZeroRules F Z C P) (x c : α) (before : List α) :
    ∀ {after cb ca : List α} {acc : α}, before.length = cb.length → Z acc → (∀ z ∈ before ++ after, Z z) →
      (∀ d ∈ cb ++ ca, C d) → Survives Z P (F.fmul x c) (dotFrom F acc (before ++ x :: after) (cb ++ c :: ca)) := by
  induction before with
  | nil =>
    intro after cb ca acc hlen hacc hz hd
    obtain rfl := List.eq_nil_of_length_eq_zero hlen.symm
    refine ⟨fun h => ?_, fun h => ?_⟩
    · rw [List.nil_append, List.nil_append, dotFrom, (R.absorb h hacc).2]
      exact R.dotFrom_absorb after h hz hd
    · exact R.dotFrom_zeros after (R.add hacc h) hz hd
  | cons b before ih =>
    intro after cb ca acc hlen hacc hz hd
    obtain ⟨d, cb, rfl⟩ := List.exists_cons_of_length_eq_add_one hlen.symm
    obtain ⟨hb, hz⟩ := List.forall_mem_cons.mp hz
    obtain ⟨hd', hd⟩ := List.forall_mem_cons.mp hd
    exact ih (Nat.succ.inj hlen) (R.add hacc (R.mul hb hd')) hz hd

theorem ZeroRules.firSum_impulse (R : ZeroRules F Z C P) (x c : α) {before after cb ca : List α}
    (hlen : before.length = cb.length) (hz : ∀ z ∈ before ++ after, Z z) (hd : ∀ d ∈ cb ++ ca, C d) :
    Survives Z P (F.fmul x c) (firSum F (before ++ x :: after) (cb ++ c :: ca)) := by
  cases before with
  | nil =>
    obtain rfl := List.eq_nil_of_length_eq_zero hlen.symm
    exact R.dotFrom_survives hz hd
  | cons b before =>
    obtain ⟨d, cb, rfl⟩ := List.exists_cons_of_length_eq_add_one hlen.symm
    obtain ⟨hb, hz⟩ := List.forall_mem_cons.mp hz
    obtain ⟨hd', hd⟩ := List.forall_mem_cons.mp hd
    exact R.dotFrom_impulse x c before (Nat.succ.inj hlen) (R.mul hb hd') hz hd

/-! The window of an impulse. -/

theorem slide_impulse_of_lt {n m k : Nat} (z x : α) (hm : k ≤ m) (hn : k < n) :
    slide n (List.replicate n z) ((x :: List.replicate m z).take (k + 1)) =
      List.replicate k z ++ x :: List.replicate (n - (k + 1)) z := by
  obtain ⟨d, rfl⟩ := Nat.exists_eq_add_of_lt hn
  have hd : k + d + 1 - k = d + 1 := by omega
  have hd' : k + d + 1 - (k + 1) = d := by omega
  have hle : d ≤ k + d + 1 := by omega
  simp [slide, hm, List.take_append, List.take_of_length_le, hd, hd', hle, Nat.le_of_lt hn]

theorem slide_impulse_of_le {n m k : Nat} (z x : α) (hm : k ≤ m) (hn : n ≤ k) :
    slide n (List.replicate n z) ((x :: List.replicate m z).take (k + 1)) = List.replicate n z := by
  have hlen : ((x :: List.replicate m z).take (k + 1)).length = k + 1 := List.length_take_of_le (by simpa using hm)
  rw [slide_of_le (by omega), List.take_succ_cons, List.reverse_cons, List.take_append_of_le_length (by simp; omega)]
  simp [hm, hn]

/-- Output `k` of a sample `x` and zeros is what zeros around its product with tap `k` make of that, and a zero where
there is no such tap. -/
theorem ZeroRules.impulse (R : ZeroRules F Z C P) (x : α) {cs : List α} (hcs : ∀ c ∈ cs, C c) {n m k : Nat}
    (hn : cs.length = n) (hm : k ≤ m) {y : α}
    (hy : y = firSum F (slide n (List.replicate n F.zero) ((x :: List.replicate m F.zero).take (k + 1))) cs) :
    (∀ c, cs[k]? = some c → Survives Z P (F.fmul x c) y) ∧ (n ≤ k → Z y) := by
  have hzeros : ∀ l, ∀ z ∈ List.replicate l F.zero, Z z := fun l z hz => List.eq_of_mem_replicate hz ▸ R.zero
  refine ⟨fun c hc => ?_, fun hle => ?_⟩
  · obtain ⟨hk, rfl⟩ := List.getElem?_eq_some_iff.mp hc
    have hsplit : cs = cs.take k ++ cs[k] :: cs.drop (k + 1) := by
      rw [← List.drop_eq_getElem_cons, List.take_append_drop]
    rw [hy, slide_impulse_of_lt F.zero x hm (hn ▸ hk)]
    conv in firSum _ _ _ => rw [hsplit]
    refine R.firSum_impulse x cs[k] ?_ (List.forall_mem_append.mpr ⟨hzeros _, hzeros _⟩)
      (List.forall_mem_append.mpr ⟨fun c hc => hcs c (List.mem_of_mem_take hc),
        fun c hc => hcs c (List.mem_of_mem_drop hc)⟩)
    rw [List.length_replicate, List.length_take_of_le hk.le]
  · rw [hy, slide_impulse_of_le F.zero x hm hle]
    exact R.firSum_zeros (hzeros n) hcs

end Zeros

/-! Any admissible format. -/

/-- The named properties are what zeros need (42_numerics.md rule R111). -/
theorem Admissible.zeroRules {α : Type} {F : Fmt α} {val : α → ℚ} {nan : α → Bool} (A : Admissible F val nan) :
    ZeroRules F (fun a => F.isFinite a = true ∧ val a = 0) (fun c => F.isFinite c = true)
      (fun p => F.isFinite p = true ∧ val p ≠ 0) where
  zero := A.zero_is_zero
  mul := fun ⟨hz, hv⟩ hc => A.zero_mul _ _ hz hv hc
  add := fun ⟨ha, hva⟩ ⟨hb, hvb⟩ => A.zero_add_zero _ _ ha hva hb hvb
  absorb := fun ⟨hp, hvp⟩ ⟨hz, hvz⟩ => A.zero_add _ _ hp hvp hz hvz

/-- Settles O58: the named properties are the rules of zeros. -/
theorem anyFormatImpulseResponse : Obligations.AnyFormatImpulseResponse := by
  intro α F val nan j m coeff x A hl hcs hx
  refine ⟨_, ringOutputs_eq F F.zero (isPowerOfTwo_two_pow j) hl _ (by simp) (Nat.two_pow_pos j), by simp [overWindows],
    fun k y hy => ?_⟩
  have hk : k < (x :: List.replicate m F.zero).length := by
    have := (List.getElem?_eq_some_iff.mp hy).1
    simpa [overWindows] using this
  rw [getElem?_overWindows _ _ _ hk, ringWindow_replicate, Option.some.injEq] at hy
  obtain ⟨htap, hzero⟩ := (Admissible.zeroRules A).impulse x hcs hl (by simpa using hk) hy.symm
  refine ⟨fun c hc hfin => ?_, hzero⟩
  obtain ⟨hp, hz⟩ := htap c hc
  exact ⟨fun hv => hp ⟨hfin, hv⟩, fun hv => hz ⟨hfin, hv⟩⟩

end Sys2Proof.Proofs
end

section
/-! Zeros and the unit in the binary formats (42_numerics.md rules R111, R112, R113), and the impulse response of the
machine (41_push.md rule R97). -/

namespace Sys2Proof.Proofs

open Sys2Proof.Machine Sys2Proof.Laws

/-! Zeros. -/

section Binary

variable {f : BinFormat}

theorem magOf_eq_zero_iff (x : Nat) : magOf f x = 0 ↔ expOf f x = 0 ∧ fracOf f x = 0 := by
  rw [magOf_eq, Nat.add_eq_zero_iff, Nat.mul_eq_zero, or_iff_left (Nat.two_pow_pos _).ne']

/-- The zeros are the words of value 0 (rule R120). -/
theorem unitsOf_eq_zero_iff (x : Nat) : unitsOf f x = 0 ↔ magOf f x = 0 := by
  rw [magOf_eq_zero_iff, unitsOf]
  split
  · next h => simp [h]
  · next h => simp [h]

theorem finiteNat_of_magOf_eq_zero (hf : Usable f) {x : Nat} (h : magOf f x = 0) : finiteNat f x = true := by
  rw [finiteNat_iff, ((magOf_eq_zero_iff x).mp h).1]
  exact expMax_pos hf

/-- A finite word is no infinity and no NaN (rule R115). -/
theorem not_inf_not_nan_of_finite {x : Nat} (h : finiteNat f x = true) : infNat f x = false ∧ nanNat f x = false := by
  rcases finite_or f x with ⟨-, hc⟩ | ⟨hc, -⟩ | ⟨hc, -⟩
  · exact hc
  · cases h.symm.trans hc
  · cases h.symm.trans hc

@[simp] theorem roundMag_zero (f : BinFormat) (scale : Nat) : roundMag f 0 scale = 0 := by simp [roundMag]

theorem roundMag_lt (f : BinFormat) (k scale : Nat) : roundMag f k scale < signWeight f :=
  lt_of_le_of_lt (roundMag_le f k scale) (infMag_lt_signWeight f)

theorem mulNat_finite {a b : Nat} (nan : Nat) (ha : finiteNat f a = true) (hb : finiteNat f b = true) :
    mulNat f nan a b =
      packSign f (signOf f a != signOf f b) (roundMag f (unitsOf f a * unitsOf f b) (unitExp f)) := by
  obtain ⟨hai, han⟩ := not_inf_not_nan_of_finite ha
  obtain ⟨hbi, hbn⟩ := not_inf_not_nan_of_finite hb
  simp [mulNat, hai, han, hbi, hbn]

theorem addNat_finite {a b : Nat} (nan : Nat) (ha : finiteNat f a = true) (hb : finiteNat f b = true) :
    addNat f nan a b = if signedUnits f a + signedUnits f b = 0 then packSign f (signOf f a && signOf f b) 0
      else packSign f (signedUnits f a + signedUnits f b < 0)
        (roundMag f (signedUnits f a + signedUnits f b).natAbs 0) := by
  obtain ⟨hai, han⟩ := not_inf_not_nan_of_finite ha
  obtain ⟨hbi, hbn⟩ := not_inf_not_nan_of_finite hb
  simp [addNat, hai, han, hbi, hbn]

theorem magOf_mulNat_zero (hf : Usable f) {z c : Nat} (nan : Nat) (hz : magOf f z = 0) (hc : finiteNat f c = true) :
    magOf f (mulNat f nan z c) = 0 := by
  rw [mulNat_finite nan (finiteNat_of_magOf_eq_zero hf hz) hc, (unitsOf_eq_zero_iff z).mpr hz, Nat.zero_mul,
    roundMag_zero, magOf_packSign _ (Nat.two_pow_pos _)]

theorem signedUnits_eq_zero_iff (x : Nat) : signedUnits f x = 0 ↔ magOf f x = 0 := by
  rw [← unitsOf_eq_zero_iff, signedUnits]
  split <;> simp

theorem magOf_addNat_zeros (hf : Usable f) {a b : Nat} (nan : Nat) (ha : magOf f a = 0) (hb : magOf f b = 0) :
    magOf f (addNat f nan a b) = 0 := by
  rw [addNat_finite nan (finiteNat_of_magOf_eq_zero hf ha) (finiteNat_of_magOf_eq_zero hf hb),
    (signedUnits_eq_zero_iff a).mpr ha, (signedUnits_eq_zero_iff b).mpr hb, Int.add_zero, if_pos rfl,
    magOf_packSign _ (Nat.two_pow_pos _)]

/-- A finite value not 0 rounds to its own word. -/
theorem packSign_roundMag_signedUnits {p : Nat} (hp : p < 2 ^ (1 + f.expBits + f.fracBits))
    (hfin : finiteNat f p = true) (h0 : magOf f p ≠ 0) :
    packSign f (decide (signedUnits f p < 0)) (roundMag f (signedUnits f p).natAbs 0) = p := by
  have hround : roundMag f (unitsOf f p) 0 = magOf f p := by simpa using roundMag_unitsOf hfin 0
  have hpos : 0 < unitsOf f p := Nat.pos_of_ne_zero (mt (unitsOf_eq_zero_iff p).mp h0)
  have habs : (signedUnits f p).natAbs = unitsOf f p := by
    unfold signedUnits
    split <;> simp
  have hsign : decide (signedUnits f p < 0) = signOf f p := by
    unfold signedUnits
    split
    · next h => simp [h, hpos]
    · next h => simp [h]
  rw [hsign, habs, hround, packSign_self hp]

/-- A word not 0 and no NaN absorbs a zero on either side (rule R111). -/
theorem addNat_zero (hf : Usable f) {p z : Nat} (nan : Nat) (hp : p < 2 ^ (1 + f.expBits + f.fracBits))
    (hnan : nanNat f p = false) (h0 : magOf f p ≠ 0) (hz : magOf f z = 0) :
    addNat f nan p z = p ∧ addNat f nan z p = p := by
  have hzfin := finiteNat_of_magOf_eq_zero hf hz
  obtain ⟨hzi, hzn⟩ := not_inf_not_nan_of_finite hzfin
  rcases finite_or f p with ⟨hfin, -⟩ | ⟨-, hinf, -⟩ | ⟨-, -, hc⟩
  · have hne := mt (signedUnits_eq_zero_iff p).mp h0
    rw [addNat_finite nan hfin hzfin, addNat_finite nan hzfin hfin, (signedUnits_eq_zero_iff z).mpr hz, Int.add_zero,
      Int.zero_add, if_neg hne, if_neg hne, packSign_roundMag_signedUnits hp hfin h0]
    exact ⟨rfl, rfl⟩
  · simp [addNat, hnan, hzn, hinf, hzi]
  · cases hnan.symm.trans hc

/-- No rounded magnitude is that of a NaN. -/
theorem nanNat_packSign {m : Nat} (b : Bool) (hm : m ≤ infMag f) : nanNat f (packSign f b m) = false := by
  have hlt : m < signWeight f := lt_of_le_of_lt hm (infMag_lt_signWeight f)
  have hdiv := Nat.div_add_mod m (2 ^ f.fracBits)
  rw [nanNat, expOf_packSign b hlt, fracOf_packSign b hlt, Bool.and_eq_false_iff, beq_eq_false_iff_ne,
    bne_eq_false_iff_eq]
  by_cases he : m / 2 ^ f.fracBits = expMax f
  · right
    rw [he, Nat.mul_comm, ← infMag] at hdiv
    omega
  · exact .inl he

/-- The word of 1.0 as a number: the exponent bias over no fraction (20_memory.md rule R36). -/
def oneNat (f : BinFormat) : Nat := (2 ^ (f.expBits - 1) - 1) * 2 ^ f.fracBits

theorem oneNat_lt_infMag (hf : Usable f) : oneNat f < infMag f := by
  have hlt : 2 ^ (f.expBits - 1) < 2 ^ f.expBits := Nat.pow_lt_pow_right (by omega) (by have := hf.exp; omega)
  have hpos : 0 < 2 ^ (f.expBits - 1) := Nat.two_pow_pos _
  exact Nat.mul_lt_mul_of_pos_right (by unfold expMax; omega) (Nat.two_pow_pos _)

/-- A number below the sign weight is the word of its magnitude with a clear sign bit. -/
theorem packSign_false (f : BinFormat) (m : Nat) : packSign f false m = m := by simp [packSign]

theorem fields_oneNat (hf : Usable f) :
    signOf f (oneNat f) = false ∧ expOf f (oneNat f) = 2 ^ (f.expBits - 1) - 1 ∧ fracOf f (oneNat f) = 0 := by
  have hlt := (oneNat_lt_infMag hf).trans (infMag_lt_signWeight f)
  have hsign := signOf_packSign false hlt
  have hexp := expOf_packSign false hlt
  have hfrac := fracOf_packSign false hlt
  rw [packSign_false] at hsign hexp hfrac
  rw [hsign, hexp, hfrac, oneNat, Nat.mul_div_cancel _ (Nat.two_pow_pos _), Nat.mul_mod_left]
  exact ⟨rfl, rfl, rfl⟩

theorem finiteNat_oneNat (hf : Usable f) : finiteNat f (oneNat f) = true := by
  obtain ⟨-, hexp, -⟩ := fields_oneNat hf
  rw [finiteNat_iff, hexp]
  exact lt_of_mul_lt_mul_right (oneNat_lt_infMag hf) (Nat.zero_le _)

/-- 1.0 is as many smallest positive values as a product is finer than one of them. -/
theorem unitsOf_oneNat (hf : Usable f) : unitsOf f (oneNat f) = 2 ^ unitExp f := by
  obtain ⟨-, hexp, hfrac⟩ := fields_oneNat hf
  have hbias : 2 ≤ 2 ^ (f.expBits - 1) := Nat.le_self_pow (by have := hf.exp; omega) 2
  rw [unitsOf, hexp, hfrac, if_neg (by omega), Nat.add_zero, ← Nat.pow_add, unitExp]
  congr 1
  omega

/-- The product of 1.0 and a finite word is that word (rule R112). -/
theorem mulNat_oneNat (hf : Usable f) {c : Nat} (nan : Nat) (hc : c < 2 ^ (1 + f.expBits + f.fracBits))
    (hfin : finiteNat f c = true) : mulNat f nan (oneNat f) c = c := by
  obtain ⟨hsign, -, -⟩ := fields_oneNat hf
  rw [mulNat_finite nan (finiteNat_oneNat hf) hfin, hsign, Bool.false_bne, unitsOf_oneNat hf, Nat.mul_comm,
    roundMag_unitsOf hfin, packSign_self hc]

end Binary

/-! The words. -/

theorem isZero_iff {f : BinFormat} {a : Word f.width} : isZero f a = true ↔ magOf f a.toNat = 0 := by simp [isZero]

theorem magOf_ofNat (f : BinFormat) (x : Nat) : magOf f (BitVec.ofNat f.width x).toNat = magOf f x := by
  have hdvd : signWeight f ∣ 2 ^ f.width := Nat.pow_dvd_pow 2 (by simp only [BinFormat.width]; omega)
  rw [BitVec.toNat_ofNat, magOf, Nat.mod_mod_of_dvd _ hdvd, magOf]

/-- The product of two finite words, in which the draw has no part. -/
theorem fmul_finite {f : BinFormat} (k : Nat) {a b : Word f.width} (ha : isFinite (.binary f) a = true)
    (hb : isFinite (.binary f) b = true) :
    (binaryFmt f k).fmul a b = BitVec.ofNat f.width (packSign f (signOf f a.toNat != signOf f b.toNat)
      (roundMag f (unitsOf f a.toNat * unitsOf f b.toNat) (unitExp f))) :=
  congrArg (BitVec.ofNat f.width) (mulNat_finite _ ha hb)

theorem fmul_finite_draw {f : BinFormat} (k l : Nat) {a b : Word f.width} (ha : isFinite (.binary f) a = true)
    (hb : isFinite (.binary f) b = true) : (binaryFmt f k).fmul a b = (binaryFmt f l).fmul a b :=
  (fmul_finite k ha hb).trans (fmul_finite l ha hb).symm

/-- A product of finite words may overflow, and is no NaN. -/
theorem isNaN_fmul_finite {f : BinFormat} (k : Nat) {a b : Word f.width} (ha : isFinite (.binary f) a = true)
    (hb : isFinite (.binary f) b = true) : isNaN (.binary f) ((binaryFmt f k).fmul a b) = false := by
  rw [fmul_finite k ha hb, isNaN, BitVec.toNat_ofNat, Nat.mod_eq_of_lt (packSign_lt _ (roundMag_lt f _ _))]
  exact nanNat_packSign _ (roundMag_le f _ _)

/-- Zeros in a binary format; what absorbs them may be an infinity. -/
theorem zeroRules_binaryFmt {f : BinFormat} (hf : Usable f) (k : Nat) :
    ZeroRules (binaryFmt f k) (fun a => isZero f a = true) (fun c => isFinite (.binary f) c = true)
      (fun p => isNaN (.binary f) p = false ∧ isZero f p = false) where
  zero := isZero_iff.mpr (Nat.zero_mod _)
  mul hz hc := isZero_iff.mpr ((magOf_ofNat f _).trans (magOf_mulNat_zero hf _ (isZero_iff.mp hz) hc))
  add ha hb := isZero_iff.mpr ((magOf_ofNat f _).trans (magOf_addNat_zeros hf _ (isZero_iff.mp ha) (isZero_iff.mp hb)))
  absorb := by
    intro p z ⟨hnan, h0⟩ hz
    have h0 : magOf f p.toNat ≠ 0 := fun h => by simp [isZero_iff.mpr h] at h0
    obtain ⟨hl, hr⟩ := addNat_zero hf (nanWord f k).toNat p.isLt hnan h0 (isZero_iff.mp hz)
    exact ⟨(congrArg (BitVec.ofNat f.width) hl).trans (by simp), (congrArg (BitVec.ofNat f.width) hr).trans (by simp)⟩

theorem toNat_one {f : BinFormat} (hf : Usable f) : (BitVec.ofNat f.width (oneNat f)).toNat = oneNat f := by
  have hlt := packSign_lt false ((oneNat_lt_infMag hf).trans (infMag_lt_signWeight f))
  rw [packSign_false] at hlt
  rw [BitVec.toNat_ofNat, Nat.mod_eq_of_lt hlt]

theorem isFinite_one {f : BinFormat} (hf : Usable f) :
    isFinite (.binary f) (BitVec.ofNat f.width (oneNat f)) = true := by
  change finiteNat f (BitVec.ofNat f.width (oneNat f)).toNat = true
  rw [toNat_one hf]
  exact finiteNat_oneNat hf

theorem fmul_one {f : BinFormat} (hf : Usable f) (k : Nat) {c : Word f.width} (hc : isFinite (.binary f) c = true) :
    (binaryFmt f k).fmul (BitVec.ofNat f.width (oneNat f)) c = c := by
  have hmul := mulNat_oneNat hf (nanWord f k).toNat c.isLt hc
  rw [← toNat_one hf] at hmul
  exact (congrArg (BitVec.ofNat f.width) hmul).trans (by simp)

/-! The machine. -/

/-- Settles O25: the window of the construction state holds zeros, and finite products are no NaNs. -/
theorem impulseResponseReadsTheTaps : Obligations.ImpulseResponseReadsTheTaps := by
  intro s f taps coeff strict v m hi hw hv
  obtain ⟨-, -, hl, -, ha, hfin, -⟩ := (wf_iff _).mp hw
  have hf : Usable f := (usable_iff f).mp ha
  have hsamples : ∀ x ∈ v :: List.replicate m (0 : Word f.width), strict = true → isFinite (.binary f) x = true :=
    List.forall_mem_cons.mpr ⟨fun _ => hv, fun x hx _ => List.eq_of_mem_replicate hx ▸ isFinite_zeroWord ha⟩
  obtain ⟨t, ht, hr⟩ := (HasWindow.of_fresh hi hw).getElem?_responses hsamples
  refine ⟨t, ht, fun j hj => ⟨_, hr j (by simpa using Nat.lt_succ_of_le hj), ?_⟩⟩
  obtain ⟨htap, hzero⟩ := (zeroRules_binaryFmt hf (s.draws + j)).impulse v hfin hl hj rfl
  rcases lt_or_ge j taps with hlt | hle
  · have hc : coeff[j]? = some (coeff.getD j 0) := memRead_lt 0 (lt_of_lt_of_eq hlt hl.symm)
    have hcfin := hfin _ (List.mem_of_getElem? hc)
    obtain ⟨hproduct, hproduct0⟩ := htap _ hc
    rw [fmul_finite_draw 0 (s.draws + j) hv hcfin]
    exact ⟨fun _ h0 => hproduct ⟨isNaN_fmul_finite _ hv hcfin, h0⟩, fun _ => hproduct0, hzero⟩
  · exact ⟨fun h => absurd h hle.not_gt, fun h => absurd h hle.not_gt, hzero⟩

/-- Settles O26: the product of 1.0 and a tap is the tap. -/
theorem unitImpulseReturnsTheTaps : Obligations.UnitImpulseReturnsTheTaps := by
  intro s f taps coeff strict hi hw one
  obtain ⟨-, -, hl, -, ha, hfin, -⟩ := (wf_iff _).mp hw
  have hf : Usable f := (usable_iff f).mp ha
  obtain ⟨t, ht, hr⟩ := impulseResponseReadsTheTaps s f taps coeff strict one (taps - 1) hi hw (isFinite_one hf)
  refine ⟨t, ht, fun j c hc h0 => ?_⟩
  have hj : j < taps := lt_of_lt_of_eq (List.getElem?_eq_some_iff.mp hc).1 hl
  obtain ⟨y, hy, hproduct, -, -⟩ := hr j (Nat.le_sub_one_of_lt hj)
  have hgetD : coeff.getD j 0 = c := by rw [List.getD_eq_getElem?_getD, hc, Option.getD_some]
  have hmul : (binaryFmt f 0).fmul one c = c := fmul_one hf 0 (hfin c (List.mem_of_getElem? hc))
  rw [hgetD, hmul] at hproduct
  rw [hy, hproduct hj h0]

end Sys2Proof.Proofs
end

section
/-! Index results (42_numerics.md rules R124, R125). -/

namespace Sys2Proof.Proofs

open Sys2Proof.Machine Sys2Proof.Laws

/-- Between two powers of two a number and the one before it share their top bit. -/
theorem isPowerOfTwo_of_and_mask_eq_zero {N : Nat} (hN : 0 < N) (h : N &&& maskOf N = 0) : isPowerOfTwo N = true := by
  by_contra hp
  have hle : 2 ^ N.log2 ≤ N := Nat.log2_self_le hN.ne'
  have hlt : N < 2 ^ (N.log2 + 1) := Nat.lt_log2_self
  have hne : 2 ^ N.log2 ≠ N := fun he => hp (beq_iff_eq.mpr he)
  have htop : ∀ m, 2 ^ N.log2 ≤ m → m < 2 ^ (N.log2 + 1) → m.testBit N.log2 = true :=
    fun m h₁ h₂ => Nat.testBit_of_two_pow_le_and_two_pow_add_one_gt h₁ h₂
  have hand : (N &&& maskOf N).testBit N.log2 = true := by
    rw [Nat.testBit_and, htop N hle hlt, htop (maskOf N) (by unfold maskOf; omega) (by unfold maskOf; omega),
      Bool.and_self]
  rw [h, Nat.zero_testBit] at hand
  cases hand

/-- Settles O46: where the mask is modulo, `N & (N-1)` is `N mod N`. -/
theorem maskIsModuloExactlyForPowersOfTwo : Obligations.MaskIsModuloExactlyForPowersOfTwo := by
  intro N hN
  refine ⟨⟨fun h => ?_, fun hp => wrap_eq_mod ((isPowerOfTwo_iff N).mpr hp)⟩, by decide⟩
  have hself : ((N &&& maskOf N : Nat) : Int) = 0 := (h N).trans Int.emod_self
  exact (isPowerOfTwo_iff N).mp (isPowerOfTwo_of_and_mask_eq_zero hN (by exact_mod_cast hself))

/-- Settles O47: each result is a remainder of a number below `2 N`. -/
theorem indexTable : Obligations.IndexTable := by
  rintro j N c k rfl hc hk
  have hp := isPowerOfTwo_two_pow j
  have hnext := nextIndex_eq (c := c) hp
  have hprev := prevIndex_eq hp hc
  have hslot := tapSlot_eq_add_mod (c := c) hp hk
  refine ⟨hnext, ?_, tapSlot_eq_emod hp c k, fun h => ?_, fun h => ?_, fun h => ?_,
    fun h => ?_, fun h => ?_, fun h => ?_⟩
  · rw [prevIndex_eq_tapSlot_zero, tapSlot_eq_add_mod hp (by omega)]
    congr 1
    omega
  · rw [hnext, Nat.mod_eq_of_lt h]
  · rw [hnext, h, Nat.mod_self]
  · rw [hprev, if_neg h.ne']
  · rw [hprev, if_pos h, maskOf]
  · rw [hslot, show c + (2 ^ j - 1 - k) = c - 1 - k + 2 ^ j by omega, Nat.add_mod_right, Nat.mod_eq_of_lt (by omega)]
  · rw [hslot, Nat.mod_eq_of_lt (by omega)]
    omega

end Sys2Proof.Proofs
end

section
/-! A CONSTRUCT of legal size that is refused (42_numerics.md rules R111, R121). -/

namespace Sys2Proof.Proofs

open Sys2Proof.Machine Sys2Proof.Laws

/-- A CONSTRUCT of legal size looks at the format, the length and the taps, in that order. -/
theorem execConstruct_legal_size {cfg : FilterConfig} (s : State) (hp : isPowerOfTwo cfg.taps = true) :
    execConstruct cfg s = if !cfg.fmt.admitted then .refused .noFormat else if !cfg.tableFits then .refused .tableLength
      else if !cfg.tapsFinite then .refused .nonFiniteTap else .next (install cfg s) := by
  rw [execConstruct, if_neg]
  simp [hp, (isPowerOfTwo_pos hp).ne']

/-- Every format is admitted but the shapes that IEEE 754 does not have. -/
theorem admitted_eq_false_iff (f : Format) :
    f.admitted = false ↔ ∃ shape, f = .binary shape ∧ (shape.expBits < 2 ∨ shape.fracBits < 1) := by
  cases f with
  | binary shape =>
    simp [Format.admitted, usable]
    omega
  | other W number => simp [Format.admitted]

theorem tableFits_iff {cfg : FilterConfig} : cfg.tableFits = true ↔ cfg.coeff.length = cfg.taps := beq_iff_eq

theorem tapsFinite_eq_false_iff {cfg : FilterConfig} :
    cfg.tapsFinite = false ↔ ∃ c ∈ cfg.coeff, isFinite cfg.fmt c = false := by
  rw [FilterConfig.tapsFinite, List.all_eq_false]
  simp only [Bool.not_eq_true]

/-- Settles O11: after the tap count three checks are left. -/
theorem constructRefusesOnlyForeignTables : Obligations.ConstructRefusesOnlyForeignTables := by
  intro cfg s j hj
  have hexec : exec (.construct cfg) s = _ := execConstruct_legal_size s ((isPowerOfTwo_iff _).mpr ⟨j, hj⟩)
  rw [← tapsFinite_eq_false_iff, hexec]
  simp only [ne_eq, ← tableFits_iff, Bool.not_eq_true]
  refine ⟨admitted_eq_false_iff cfg.fmt, fun ha => ?_, fun ha hl => ?_, fun ha hl hf => ?_,
    fun ha hl hf => ⟨install cfg s, ?_⟩⟩
  · simp [ha]
  · simp [ha, hl]
  · simp [ha, hl, hf]
  · simp [ha, hl, hf]

end Sys2Proof.Proofs
end

section
/-! A NaN in the window (42_numerics.md rules R117, R119). -/

namespace Sys2Proof.Proofs

open Sys2Proof.Machine Sys2Proof.Laws

/-- Once the running sum is a NaN it stays one. -/
theorem isNaN_dotFrom {f : Format} (hf : f.admitted = true) (k : Nat) (xs : List (Word f.width)) :
    ∀ {cs : List (Word f.width)} {acc : Word f.width}, isNaN f acc = true →
      isNaN f (dotFrom (fmtAt f k) acc xs cs) = true := by
  induction xs with
  | nil => intro cs acc h; exact h
  | cons x xs ih =>
    intro cs acc h
    cases cs with
    | nil => exact h
    | cons c cs => exact ih (isNaN_fadd hf (.inl h))

/-- One product that is a NaN makes the running sum a NaN. -/
theorem isNaN_dotFrom_of_getElem? {f : Format} (hf : f.admitted = true) (k : Nat) (xs : List (Word f.width)) :
    ∀ {cs : List (Word f.width)} {acc x c : Word f.width} {j : Nat}, xs[j]? = some x → cs[j]? = some c →
      isNaN f ((fmtAt f k).fmul x c) = true → isNaN f (dotFrom (fmtAt f k) acc xs cs) = true := by
  induction xs with
  | nil => intro cs acc x c j hx; cases hx
  | cons x xs ih =>
    intro cs acc x' c' j hx hc h
    cases cs with
    | nil => cases hc
    | cons c cs =>
      cases j with
      | zero =>
        cases hx
        cases hc
        exact isNaN_dotFrom hf k xs (isNaN_fadd hf (.inr h))
      | succ j => exact ih hx hc h

theorem isNaN_firSum_of_getElem? {f : Format} (hf : f.admitted = true) (k : Nat) {xs cs : List (Word f.width)}
    {x c : Word f.width} {j : Nat} (hx : xs[j]? = some x) (hc : cs[j]? = some c)
    (h : isNaN f ((fmtAt f k).fmul x c) = true) : isNaN f (firSum (fmtAt f k) xs cs) = true := by
  cases xs with
  | nil => cases hx
  | cons x₀ xs =>
    cases cs with
    | nil => cases hc
    | cons c₀ cs =>
      cases j with
      | zero =>
        cases hx
        cases hc
        exact isNaN_dotFrom hf k xs h
      | succ j => exact isNaN_dotFrom_of_getElem? hf k xs hx hc h

/-- An accepted PUSH answers the sum over the window with the sample in front. -/
theorem execPush_firSum {s : State} {i : Instance} {v : Word i.cfg.W} (hi : s.inst = some i) (hw : i.wf = true)
    (hv : i.cfg.strict = true → isFinite i.cfg.fmt v = true) :
    ∃ t, exec (.push ⟨i.cfg.W, v⟩) s = .next t ∧ t.inst = some (i.pushed v) ∧
      t.delivered = s.delivered ++ [.response ⟨i.cfg.W,
        (firSum (fmtAt i.cfg.fmt s.draws) (v :: i.window.take (i.cfg.taps - 1)) i.cfg.coeff).setWidth _⟩] := by
  refine ⟨_, execPush_accepted hi hw (accepts_iff.mpr hv), rfl, ?_⟩
  rw [respond_delivered, rspWord_false, Instance.output, window_pushed hw]

/-- Settles O30: the product with the NaN is a NaN, whatever the tap. -/
theorem nanInTheWindowGivesNaN : Obligations.NaNInTheWindowGivesNaN := by
  intro s i v hi hw hs hnan
  obtain ⟨hp, -, hl, -, hf, -⟩ := (wf_iff i).mp hw
  obtain ⟨t, ht, -, hd⟩ := execPush_firSum (v := v) hi hw (by simp [hs])
  refine ⟨t, _, ht, hd, ?_⟩
  have hmem : ∃ x ∈ v :: i.window.take (i.cfg.taps - 1), isNaN i.cfg.fmt x = true := by
    simpa using hnan
  obtain ⟨x, hx, hnan⟩ := hmem
  obtain ⟨j, hx⟩ := List.mem_iff_getElem?.mp hx
  have hpos := isPowerOfTwo_pos hp
  have hj : j < i.cfg.coeff.length := by
    have hlt := (List.getElem?_eq_some_iff.mp hx).1
    rw [List.length_cons, List.length_take, window_length] at hlt
    omega
  exact isNaN_firSum_of_getElem? hf _ hx (List.getElem?_eq_getElem hj) (isNaN_fmul hf (.inl hnan))

end Sys2Proof.Proofs
end

section
/-! The words of a binary format by their sign and their magnitude, and products and sums of NaNs, infinities and zeros
(42_numerics.md rules R112, R113, R115, R117, R120). -/

namespace Sys2Proof.Proofs

open Sys2Proof.Machine Sys2Proof.Laws

variable {f : BinFormat}

/-! A word is its sign and its magnitude. -/

/-- The word of this sign and this magnitude. -/
def packWord (f : BinFormat) (negative : Bool) (mag : Nat) : Word f.width :=
  BitVec.ofNat f.width (packSign f negative mag)

theorem toNat_packWord {m : Nat} (b : Bool) (hm : m < signWeight f) : (packWord f b m).toNat = packSign f b m := by
  rw [packWord, BitVec.toNat_ofNat, Nat.mod_eq_of_lt (packSign_lt b hm)]

theorem msb_eq_signOf (a : Word f.width) : a.msb = signOf f a.toNat := by
  have hlast : f.width - 1 = f.expBits + f.fracBits := by
    simp only [BinFormat.width]
    omega
  rw [BitVec.msb_eq_getLsbD_last, hlast]
  rfl

theorem msb_packWord {m : Nat} (b : Bool) (hm : m < signWeight f) : (packWord f b m).msb = b := by
  rw [msb_eq_signOf, toNat_packWord b hm, signOf_packSign b hm]

theorem magOf_packWord {m : Nat} (b : Bool) (hm : m < signWeight f) : magOf f (packWord f b m).toNat = m := by
  rw [toNat_packWord b hm, magOf_packSign b hm]

theorem packWord_self (a : Word f.width) : packWord f a.msb (magOf f a.toNat) = a := by
  rw [packWord, msb_eq_signOf, packSign_self a.isLt, BitVec.ofNat_toNat, BitVec.setWidth_eq]

theorem packWord_false_zero (f : BinFormat) : packWord f false 0 = 0 := rfl

/-- The negative zero is the word of the sign bit alone (rule R120). -/
theorem packWord_true_zero (f : BinFormat) : packWord f true 0 = BitVec.twoPow f.width (f.expBits + f.fracBits) := by
  apply BitVec.eq_of_toNat_eq
  rw [packWord, BitVec.toNat_ofNat, BitVec.toNat_twoPow, packSign, if_pos rfl, signWeight, Nat.add_zero]

/-! The classes of words, by magnitude (rule R115). -/

theorem infMag_pos (hf : Usable f) : 0 < infMag f := Nat.mul_pos (expMax_pos hf) (Nat.two_pow_pos _)

theorem isFinite_iff_magOf {a : Word f.width} : isFinite (.binary f) a = true ↔ magOf f a.toNat < infMag f := by
  rw [infMag, ← Nat.div_lt_iff_lt_mul (Nat.two_pow_pos _)]
  exact finiteNat_iff f a.toNat

theorem isInf_iff_magOf {a : Word f.width} : isInf f a = true ↔ magOf f a.toNat = infMag f := by
  have hmag := magOf_eq f a.toNat
  have hle := expOf_le f a.toNat
  simp only [isInf, infNat, Bool.and_eq_true, beq_iff_eq]
  refine ⟨fun ⟨he, h0⟩ => by rw [hmag, he, h0, infMag, Nat.add_zero], fun h => ?_⟩
  have he : expOf f a.toNat = expMax f := by
    rw [expOf, h, infMag, Nat.mul_div_cancel _ (Nat.two_pow_pos _)]
  rw [he, h, infMag] at hmag
  exact ⟨he, by omega⟩

theorem isFinite_or (a : Word f.width) :
    (isFinite (.binary f) a = true ∧ isInf f a = false ∧ isNaN (.binary f) a = false) ∨
    (isFinite (.binary f) a = false ∧ isInf f a = true ∧ isNaN (.binary f) a = false) ∨
    (isFinite (.binary f) a = false ∧ isInf f a = false ∧ isNaN (.binary f) a = true) := finite_or f a.toNat

theorem isNaN_of_isInf {a : Word f.width} (h : isInf f a = true) : isNaN (.binary f) a = false := by
  obtain ⟨-, hc, -⟩ | ⟨-, -, hn⟩ | ⟨-, hc, -⟩ := isFinite_or a
  · cases h.symm.trans hc
  · exact hn
  · cases h.symm.trans hc

theorem isInf_isNaN_of_isFinite {a : Word f.width} (h : isFinite (.binary f) a = true) :
    isInf f a = false ∧ isNaN (.binary f) a = false := not_inf_not_nan_of_finite h

theorem isFinite_or_isInf {a : Word f.width} (h : isNaN (.binary f) a = false) :
    isFinite (.binary f) a = true ∨ isInf f a = true := by
  obtain ⟨ha, -⟩ | ⟨-, ha, -⟩ | ⟨-, -, ha⟩ := isFinite_or a
  · exact .inl ha
  · exact .inr ha
  · cases h.symm.trans ha

theorem isFinite_of_isZero (hf : Usable f) {a : Word f.width} (h : isZero f a = true) :
    isFinite (.binary f) a = true := finiteNat_of_magOf_eq_zero hf (isZero_iff.mp h)

theorem isZero_of_isInf (hf : Usable f) {a : Word f.width} (h : isInf f a = true) : isZero f a = false := by
  have hpos := infMag_pos hf
  rw [← isInf_iff_magOf.mp h] at hpos
  exact beq_false_of_ne hpos.ne'

theorem isInf_packWord (f : BinFormat) (b : Bool) : isInf f (packWord f b (infMag f)) = true :=
  isInf_iff_magOf.mpr (magOf_packWord b (infMag_lt_signWeight f))

theorem isZero_packWord (f : BinFormat) (b : Bool) : isZero f (packWord f b 0) = true :=
  isZero_iff.mpr (magOf_packWord b (Nat.two_pow_pos _))

/-! Products (rule R112). -/

theorem fmul_comm (k : Nat) (a b : Word f.width) : (binaryFmt f k).fmul a b = (binaryFmt f k).fmul b a := by
  simp only [binaryFmt, ieee, mulNat, Bool.or_comm, bne_comm, Nat.mul_comm]

/-- An infinity times a zero is a NaN, times anything else an infinity (rule R118). -/
theorem fmul_of_isInf (hf : Usable f) (k : Nat) {a b : Word f.width} (ha : isInf f a = true)
    (hb : isNaN (.binary f) b = false) : (binaryFmt f k).fmul a b =
      if isZero f b then nanWord f k else packWord f (a.msb != b.msb) (infMag f) := by
  have han : nanNat f a.toNat = false := isNaN_of_isInf ha
  have ha0 : (magOf f a.toNat == 0) = false := isZero_of_isInf hf ha
  have hai : infNat f a.toNat = true := ha
  have hbn : nanNat f b.toNat = false := hb
  simp only [binaryFmt, ieee, mulNat, han, hbn, hai, ha0, isZero, packWord, msb_eq_signOf, Bool.or_self, Bool.true_or,
    Bool.false_or, if_true, Bool.false_eq_true, if_false]
  split <;> simp

/-- The product of two finite words is the exact product of their magnitudes, rounded once. -/
theorem ieee_fmul_finite (nan : Word f.width) {a b : Word f.width} (ha : isFinite (.binary f) a = true)
    (hb : isFinite (.binary f) b = true) : (ieee f f.width nan).fmul a b =
      packWord f (a.msb != b.msb) (roundMag f (unitsOf f a.toNat * unitsOf f b.toNat) (unitExp f)) := by
  rw [msb_eq_signOf, msb_eq_signOf]
  exact congrArg (BitVec.ofNat f.width) (mulNat_finite _ ha hb)

theorem fmul_of_isZero (hf : Usable f) (k : Nat) {a b : Word f.width} (ha : isZero f a = true)
    (hb : isFinite (.binary f) b = true) : (binaryFmt f k).fmul a b = packWord f (a.msb != b.msb) 0 := by
  refine (ieee_fmul_finite _ (isFinite_of_isZero hf ha) hb).trans ?_
  rw [(unitsOf_eq_zero_iff _).mpr (isZero_iff.mp ha), Nat.zero_mul, roundMag_zero]

theorem isInf_fmul (hf : Usable f) (k : Nat) {a b : Word f.width} (ha : isInf f a = true)
    (hb : isNaN (.binary f) b = false) (h0 : isZero f b = false) :
    isInf f ((binaryFmt f k).fmul a b) = true ∧ ((binaryFmt f k).fmul a b).msb = (a.msb != b.msb) := by
  rw [fmul_of_isInf hf k ha hb, h0]
  exact ⟨isInf_packWord f _, msb_packWord _ (infMag_lt_signWeight f)⟩

theorem isNaN_fmul_inf_zero (hf : Usable f) (k : Nat) {a b : Word f.width} (ha : isInf f a = true)
    (hb : isZero f b = true) : isNaN (.binary f) ((binaryFmt f k).fmul a b) = true := by
  rw [fmul_of_isInf hf k ha (isInf_isNaN_of_isFinite (isFinite_of_isZero hf hb)).2, hb]
  exact isNaN_nanWord hf k

theorem isZero_fmul (hf : Usable f) (k : Nat) {a b : Word f.width} (ha : isZero f a = true)
    (hb : isFinite (.binary f) b = true) :
    isZero f ((binaryFmt f k).fmul a b) = true ∧ ((binaryFmt f k).fmul a b).msb = (a.msb != b.msb) := by
  rw [fmul_of_isZero hf k ha hb]
  exact ⟨isZero_packWord f _, msb_packWord _ (Nat.two_pow_pos _)⟩

/-- A product that is no NaN has no NaN operand (rule R117). -/
theorem not_isNaN_of_fmul (hf : Usable f) {k : Nat} {a b : Word f.width}
    (h : isNaN (.binary f) ((binaryFmt f k).fmul a b) = false) :
    isNaN (.binary f) a = false ∧ isNaN (.binary f) b = false := by
  rw [← Bool.or_eq_false_iff, ← Bool.not_eq_true, Bool.or_eq_true]
  intro hnan
  cases h.symm.trans (isNaN_fmul (f := .binary f) ((usable_iff f).mpr hf) hnan)

theorem msb_fmul_of_isInf (hf : Usable f) {k : Nat} {a b : Word f.width}
    (h : isNaN (.binary f) ((binaryFmt f k).fmul a b) = false) (ha : isInf f a = true) :
    ((binaryFmt f k).fmul a b).msb = (a.msb != b.msb) := by
  have h0 : isZero f b = false := Bool.eq_false_iff.mpr fun hb => by cases h.symm.trans (isNaN_fmul_inf_zero hf k ha hb)
  exact (isInf_fmul hf k ha (not_isNaN_of_fmul hf h).2 h0).2

/-- The sign of a product is the exclusive-or of the signs. -/
theorem msb_fmul (hf : Usable f) (k : Nat) {a b : Word f.width}
    (h : isNaN (.binary f) ((binaryFmt f k).fmul a b) = false) :
    ((binaryFmt f k).fmul a b).msb = (a.msb != b.msb) := by
  obtain ⟨han, hbn⟩ := not_isNaN_of_fmul hf h
  rcases isFinite_or_isInf han with ha | ha
  · rcases isFinite_or_isInf hbn with hb | hb
    · exact (congrArg _ (ieee_fmul_finite _ ha hb)).trans (msb_packWord _ (roundMag_lt f _ _))
    · rw [fmul_comm] at h ⊢
      rw [bne_comm]
      exact msb_fmul_of_isInf hf h hb
  · exact msb_fmul_of_isInf hf h ha

/-- Settles O52: by the class of one operand, the product being commutative. -/
theorem productsOfSpecialValues : Obligations.ProductsOfSpecialValues := by
  intro f k a b hu
  have hf := (usable_iff f).mp hu
  refine ⟨fun h => isNaN_fmul (f := .binary f) hu h, fun h => ?_, fun h => ?_, fun h => ?_⟩
  · rcases h with ⟨ha, hb⟩ | ⟨ha, hb⟩
    · exact isNaN_fmul_inf_zero hf k ha hb
    · rw [fmul_comm]
      exact isNaN_fmul_inf_zero hf k hb ha
  · rcases h with ⟨ha, hb, h0⟩ | ⟨hb, ha, h0⟩
    · exact isInf_fmul hf k ha hb h0
    · rw [fmul_comm, bne_comm]
      exact isInf_fmul hf k hb ha h0
  · rcases h with ⟨ha, hb⟩ | ⟨hb, ha⟩
    · exact isZero_fmul hf k ha hb
    · rw [fmul_comm, bne_comm]
      exact isZero_fmul hf k hb ha

/-! Sums (rule R113). -/

/-- An infinity absorbs all but a NaN and the opposite infinity. -/
theorem fadd_of_isInf (k : Nat) {a b : Word f.width} (ha : isInf f a = true) (hb : isNaN (.binary f) b = false) :
    (binaryFmt f k).fadd a b = if isInf f b && a.msb != b.msb then nanWord f k else a := by
  have han : nanNat f a.toNat = false := isNaN_of_isInf ha
  have hai : infNat f a.toNat = true := ha
  have hbn : nanNat f b.toNat = false := hb
  simp only [binaryFmt, ieee, addNat, han, hbn, hai, isInf, msb_eq_signOf, Bool.or_self, if_true, Bool.false_eq_true,
    if_false]
  split <;> simp

theorem fadd_finite_of_isInf (k : Nat) {a b : Word f.width} (ha : isInf f a = true)
    (hb : isFinite (.binary f) b = true) :
    (binaryFmt f k).fadd a b = a ∧ (binaryFmt f k).fadd b a = a := by
  obtain ⟨hbi, hbn⟩ := isInf_isNaN_of_isFinite hb
  refine ⟨by rw [fadd_of_isInf k ha hbn, hbi]; rfl, ?_⟩
  have han : nanNat f a.toNat = false := isNaN_of_isInf ha
  have hai : infNat f a.toNat = true := ha
  have hbn : nanNat f b.toNat = false := hbn
  have hbi : infNat f b.toNat = false := hbi
  simp [binaryFmt, ieee, addNat, han, hai, hbn, hbi]

/-- The sum of two finite words is their exact sum, rounded once, with the signed zeros of rule R120. -/
theorem ieee_fadd_finite (nan : Word f.width) {a b : Word f.width} (ha : isFinite (.binary f) a = true)
    (hb : isFinite (.binary f) b = true) : (ieee f f.width nan).fadd a b =
      if signedUnits f a.toNat + signedUnits f b.toNat = 0 then packWord f (a.msb && b.msb) 0
      else packWord f (signedUnits f a.toNat + signedUnits f b.toNat < 0)
        (roundMag f (signedUnits f a.toNat + signedUnits f b.toNat).natAbs 0) := by
  rw [msb_eq_signOf, msb_eq_signOf]
  refine (congrArg (BitVec.ofNat f.width) (addNat_finite _ ha hb)).trans ?_
  split <;> rfl

theorem fadd_of_isZero (hf : Usable f) (k : Nat) {a b : Word f.width} (ha : isZero f a = true)
    (hb : isZero f b = true) :
    (binaryFmt f k).fadd a b = packWord f (a.msb && b.msb) 0 := by
  refine (ieee_fadd_finite _ (isFinite_of_isZero hf ha) (isFinite_of_isZero hf hb)).trans (if_pos ?_)
  rw [(signedUnits_eq_zero_iff _).mpr (isZero_iff.mp ha), (signedUnits_eq_zero_iff _).mpr (isZero_iff.mp hb),
    Int.add_zero]

/-- The opposite word has the other sign and the same magnitude. -/
theorem xor_twoPow_eq_packWord (a : Word f.width) :
    a ^^^ BitVec.twoPow f.width (f.expBits + f.fracBits) = packWord f (!a.msb) (magOf f a.toNat) := by
  rw [← packWord_true_zero, ← packWord_self (a ^^^ packWord f true 0), BitVec.msb_xor,
    msb_packWord _ (Nat.two_pow_pos _), Bool.xor_true]
  congr 1
  rw [BitVec.toNat_xor, toNat_packWord _ (Nat.two_pow_pos _), magOf, magOf, signWeight, Nat.xor_mod_two_pow, packSign,
    if_pos rfl, signWeight, Nat.add_zero, Nat.mod_self, Nat.xor_zero]

theorem fracOf_eq_magOf_mod (x : Nat) : fracOf f x = magOf f x % 2 ^ f.fracBits := by
  rw [magOf_eq, Nat.mul_add_mod_self_right, Nat.mod_eq_of_lt (fracOf_lt f x)]

/-- Words of one magnitude have the same value but for the sign. -/
theorem unitsOf_congr {x y : Nat} (h : magOf f x = magOf f y) : unitsOf f x = unitsOf f y := by
  rw [unitsOf, unitsOf, expOf, expOf, fracOf_eq_magOf_mod, fracOf_eq_magOf_mod, h]

theorem signedUnits_opposite {a b : Word f.width} (hs : b.msb = !a.msb) (hm : magOf f b.toNat = magOf f a.toNat) :
    signedUnits f a.toNat + signedUnits f b.toNat = 0 := by
  rw [signedUnits, signedUnits, ← msb_eq_signOf, ← msb_eq_signOf, hs, unitsOf_congr hm]
  cases a.msb <;> simp

/-- A finite word and its opposite give the positive zero (rule R120). -/
theorem fadd_opposite (k : Nat) {a : Word f.width} (ha : isFinite (.binary f) a = true) :
    (binaryFmt f k).fadd a (a ^^^ BitVec.twoPow f.width (f.expBits + f.fracBits)) = 0 := by
  have hlt := magOf_lt f a.toNat
  have hb : isFinite (.binary f) (packWord f (!a.msb) (magOf f a.toNat)) = true := by
    rw [isFinite_iff_magOf, magOf_packWord _ hlt]
    exact isFinite_iff_magOf.mp ha
  rw [xor_twoPow_eq_packWord]
  refine (ieee_fadd_finite _ ha hb).trans ?_
  rw [if_pos (signedUnits_opposite (msb_packWord _ hlt) (magOf_packWord _ hlt)), msb_packWord _ hlt, Bool.and_not_self,
    packWord_false_zero]

theorem isNaN_fadd_opposite_infinities (hf : Usable f) (k : Nat) {a b : Word f.width} (ha : isInf f a = true)
    (hb : isInf f b = true) (hs : a.msb ≠ b.msb) : isNaN (.binary f) ((binaryFmt f k).fadd a b) = true := by
  rw [fadd_of_isInf k ha (isNaN_of_isInf hb), hb, bne_iff_ne.mpr hs]
  exact isNaN_nanWord hf k

/-- Settles O53: by the class of the operands. -/
theorem sumsOfSpecialValues : Obligations.SumsOfSpecialValues := by
  intro f k a b hu minus r
  have hf := (usable_iff f).mp hu
  refine ⟨fun h => ?_, isNaN_fadd_opposite_infinities hf k, fun ha h => ?_, fun ha hb => ?_,
    fun ha _ => fadd_opposite k ha, fun ha h0 hb => ?_⟩
  · exact isNaN_fadd (f := .binary f) hu h
  · rcases h with hb | rfl
    · exact fadd_finite_of_isInf k ha hb
    · have hself : (binaryFmt f k).fadd b b = b := by simp [fadd_of_isInf k ha (isNaN_of_isInf ha)]
      exact ⟨hself, hself⟩
  · refine (fadd_of_isZero hf k ha hb).trans ?_
    cases a.msb && b.msb
    · exact packWord_false_zero f
    · exact packWord_true_zero f
  · exact (zeroRules_binaryFmt hf k).absorb ⟨(isInf_isNaN_of_isFinite ha).2, h0⟩ hb

end Sys2Proof.Proofs
end

section
/-! An infinity in the sequential sum and in the window, and the negative zero after RESET (42_numerics.md rules R118,
R120). -/

namespace Sys2Proof.Proofs

open Sys2Proof.Machine Sys2Proof.Laws

/-! The sequential sum over a list of pairs of a word and its tap. -/

theorem dotFrom_append {α : Type} (F : Fmt α) (before after : List (α × α)) : ∀ acc : α,
    dotFrom F acc ((before ++ after).map Prod.fst) ((before ++ after).map Prod.snd) =
      dotFrom F (dotFrom F acc (before.map Prod.fst) (before.map Prod.snd)) (after.map Prod.fst)
        (after.map Prod.snd) := by
  induction before with
  | nil => intro acc; simp [dotFrom]
  | cons q before ih => intro acc; exact ih _

/-- The sum goes on from the sum so far, added to the next product. -/
theorem firSum_append_cons {α : Type} (F : Fmt α) {before : List (α × α)} (after : List (α × α)) (x c : α)
    (h : before ≠ []) :
    firSum F ((before ++ (x, c) :: after).map Prod.fst) ((before ++ (x, c) :: after).map Prod.snd) =
      dotFrom F (F.fadd (firSum F (before.map Prod.fst) (before.map Prod.snd)) (F.fmul x c))
        (after.map Prod.fst) (after.map Prod.snd) := by
  obtain ⟨q, before, rfl⟩ := List.exists_cons_of_ne_nil h
  exact dotFrom_append F before ((x, c) :: after) _

/-! An infinity in the sum (rule R118). -/

/-- Finite products leave a running sum that is an infinity as it is. -/
theorem dotFrom_of_isInf {f : BinFormat} (k : Nat) {y : Word f.width} (hy : isInf f y = true) :
    ∀ {after : List (Word f.width × Word f.width)},
      (∀ q ∈ after, isFinite (.binary f) ((binaryFmt f k).fmul q.1 q.2) = true) →
      dotFrom (binaryFmt f k) y (after.map Prod.fst) (after.map Prod.snd) = y := by
  intro after
  induction after with
  | nil => intro _; rfl
  | cons q after ih =>
    intro h
    obtain ⟨hq, hafter⟩ := List.forall_mem_cons.mp h
    rw [List.map_cons, List.map_cons, dotFrom, (fadd_finite_of_isInf k hy hq).1, ih hafter]

/-- Settles O59: the infinite product absorbs the sum before it and every product after it. -/
theorem infiniteProductMakesTheSumItsInfinity : Obligations.InfiniteProductMakesTheSumItsInfinity := by
  intro f k before after x c hu hx hc h0 hbefore hafter y
  obtain ⟨hinf, hsign⟩ := isInf_fmul ((usable_iff f).mp hu) k hx (isInf_isNaN_of_isFinite hc).2 h0
  have hy : y = (binaryFmt f k).fmul x c := by
    by_cases hb : before = []
    · subst hb
      exact dotFrom_of_isInf k hinf hafter
    · refine (firSum_append_cons _ after x c hb).trans ?_
      rw [(fadd_finite_of_isInf k hinf (hbefore hb)).2, dotFrom_of_isInf k hinf hafter]
  rw [hy]
  exact ⟨hinf, hsign⟩

/-- A list around its element number `j`. -/
theorem eq_take_append_cons_drop {α : Type} {l : List α} {j : Nat} {a : α} (h : l[j]? = some a) :
    l = l.take j ++ a :: l.drop (j + 1) := by
  obtain ⟨hj, rfl⟩ := List.getElem?_eq_some_iff.mp h
  rw [← List.drop_eq_getElem_cons, List.take_append_drop]

/-- Settles O54: the taps paired with the window are a sum with one infinite product, or with a NaN. -/
theorem infinityInTheWindowGivesItsInfinity : Obligations.InfinityInTheWindowGivesItsInfinity := by
  intro s f taps coeff hist cursor j v x c hi hw F xs hx hc hinf
  obtain ⟨hp, -, hl, -, hu, hfin, -⟩ := (wf_iff _).mp hw
  have hcfin := hfin c (List.mem_of_getElem? hc)
  obtain ⟨t, ht, -, hd⟩ := execPush_firSum (v := v) hi hw (by simp)
  refine ⟨t, firSum F xs coeff, ht, hd, fun h0 => ?_, fun h0 hbefore hafter => ?_⟩
  · exact isNaN_firSum_of_getElem? (f := .binary f) hu _ hx hc (isNaN_fmul_inf_zero ((usable_iff f).mp hu) _ hinf h0)
  · have hlen : xs.length = coeff.length := by
      have hpos : 0 < taps := isPowerOfTwo_pos hp
      have hl : coeff.length = taps := hl
      rw [List.length_cons, List.length_take, window_length, hl]
      change min (taps - 1) taps + 1 = taps
      omega
    have hfst : (xs.zip coeff).map Prod.fst = xs := List.map_fst_zip hlen.le
    have hsnd : (xs.zip coeff).map Prod.snd = coeff := List.map_snd_zip hlen.ge
    have hpair : (xs.zip coeff)[j]? = some (x, c) := List.getElem?_zip_eq_some.mpr ⟨hx, hc⟩
    have hsum := infiniteProductMakesTheSumItsInfinity f s.draws ((xs.zip coeff).take j) ((xs.zip coeff).drop (j + 1))
      x c hu hinf hcfin h0
    rw [← eq_take_append_cons_drop hpair, List.map_take, List.map_take, hfst, hsnd] at hsum
    refine hsum (fun hne => hbefore (Nat.pos_of_ne_zero ?_)) fun q hq => ?_
    · rintro rfl
      exact hne List.take_zero
    · obtain ⟨m, hm⟩ := List.mem_iff_getElem?.mp hq
      rw [List.getElem?_drop, List.getElem?_zip_eq_some] at hm
      exact hafter (j + 1 + m) q.1 q.2 (by omega) hm.1 hm.2

/-! The negative zero (rule R120). -/

/-- A running sum that is a zero becomes the positive zero with its first product of a positive zero and a positive
tap. -/
theorem dotFrom_positive_zeros {f : BinFormat} (hf : Usable f) (k : Nat) :
    ∀ {cs : List (Word f.width)} {z : Word f.width}, isZero f z = true →
      (∀ c ∈ cs, isFinite (.binary f) c = true ∧ c.msb = false) →
      dotFrom (binaryFmt f k) z (List.replicate cs.length 0) cs = if cs = [] then z else 0 := by
  intro cs
  induction cs with
  | nil => intro z _ _; rfl
  | cons c cs ih =>
    intro z hz hcs
    obtain ⟨⟨hfin, hpos⟩, hcs⟩ := List.forall_mem_cons.mp hcs
    have hzero : isZero f (0 : Word f.width) = true := isZero_packWord f false
    have hmsb : (0 : Word f.width).msb = false := BitVec.msb_zero
    have hproduct : (binaryFmt f k).fmul 0 c = 0 := by
      rw [fmul_of_isZero hf k hzero hfin, hpos, hmsb, bne_self_eq_false, packWord_false_zero]
    have hsum : (binaryFmt f k).fadd z 0 = 0 := by
      rw [fadd_of_isZero hf k hz hzero, hmsb, Bool.and_false, packWord_false_zero]
    rw [List.length_cons, List.replicate_succ, dotFrom, hproduct, hsum, ih hzero hcs, ite_self,
      if_neg (List.cons_ne_nil c cs)]

/-- The sum of a negative zero and positive zeros, with positive taps. -/
theorem firSum_negative_zero {f : BinFormat} (hf : Usable f) (k : Nat) {coeff : List (Word f.width)} (hne : coeff ≠ [])
    (hcs : ∀ c ∈ coeff, isFinite (.binary f) c = true ∧ c.msb = false) :
    firSum (binaryFmt f k) (packWord f true 0 :: List.replicate (coeff.length - 1) 0) coeff =
      if coeff.length = 1 then packWord f true 0 else 0 := by
  obtain ⟨c, cs, rfl⟩ := List.exists_cons_of_ne_nil hne
  obtain ⟨⟨hfin, hpos⟩, hcs⟩ := List.forall_mem_cons.mp hcs
  have hproduct : (binaryFmt f k).fmul (packWord f true 0) c = packWord f true 0 := by
    rw [fmul_of_isZero hf k (isZero_packWord f true) hfin, msb_packWord _ (Nat.two_pow_pos _), hpos, Bool.bne_false]
  rw [List.length_cons, Nat.add_sub_cancel, firSum, hproduct, dotFrom_positive_zeros hf k (isZero_packWord f true) hcs]
  simp only [Nat.add_eq_right, List.length_eq_zero_iff]

/-- An accepted PUSH on the construction state has the sample and zeros in its window. -/
theorem execPush_fresh {s : State} {cfg : FilterConfig} {v : Word cfg.W} (hi : s.inst = some (Instance.fresh cfg))
    (hw : (Instance.fresh cfg).wf = true) (hv : cfg.strict = true → isFinite cfg.fmt v = true) :
    ∃ t, exec (.push ⟨cfg.W, v⟩) s = .next t ∧ t.inst = some ((Instance.fresh cfg).pushed v) ∧
      t.delivered = s.delivered ++ [.response ⟨cfg.W, (firSum (fmtAt cfg.fmt s.draws)
        (v :: List.replicate (cfg.taps - 1) (zeroWord cfg.fmt)) cfg.coeff).setWidth _⟩] := by
  have hfull : (Instance.fresh cfg).window = List.replicate cfg.taps (zeroWord cfg.fmt) := ringWindow_replicate _ _
  have htake : (List.replicate cfg.taps (zeroWord cfg.fmt)).take (cfg.taps - 1) =
      List.replicate (cfg.taps - 1) (zeroWord cfg.fmt) := by
    rw [List.take_replicate, Nat.min_eq_left (Nat.sub_le _ _)]
  rw [← htake, ← hfull]
  exact execPush_firSum hi hw hv

/-- Settles O55: the negative zero alone gives a negative zero, and positive zeros behind it make the sum positive. -/
theorem negativeZeroAfterReset : Obligations.NegativeZeroAfterReset := by
  intro s f taps coeff strict hi hw hpos minus
  obtain ⟨hp, -, hl, -, hu, hfin, -⟩ := (wf_iff _).mp hw
  obtain rfl : coeff.length = taps := hl
  have hlen : 0 < coeff.length := isPowerOfTwo_pos hp
  have hf := (usable_iff f).mp hu
  have hminus : minus = packWord f true 0 := (packWord_true_zero f).symm
  obtain ⟨t, ht, hinst, hd⟩ := execPush_fresh hi hw fun _ => isFinite_of_isZero hf (isZero_packWord f true)
  have hsum := firSum_negative_zero hf s.draws (List.length_pos_iff.mp hlen) fun c hc => ⟨hfin c hc, (hpos c hc).1⟩
  rw [hminus]
  refine ⟨t, _, _, ht, hinst, by simp [hlen], hd.trans ?_⟩
  rw [fmtAt, zeroWord_binary, hsum]
  split <;> simp

end Sys2Proof.Proofs
end

section
/-! Rounding to nearest, ties to even: the magnitudes of a format as a grid of values, and the point of the grid that
rounding takes (42_numerics.md rules R112, R113, R116). -/

namespace Sys2Proof.Proofs

open Sys2Proof.Machine Sys2Proof.Laws

/-! The nearest point of a grid of rational numbers. -/

/-- No point of the grid `V` is nearer to `x` than point `m`, which is an even one where another is as near. -/
def NearestEven (V : ℕ → ℚ) (x : ℚ) (m : ℕ) : Prop :=
  ∀ n, |V m - x| ≤ |V n - x| ∧ (n ≠ m → |V n - x| = |V m - x| → Even m)

section Grid

variable {V : ℕ → ℚ} {x : ℚ} {m : ℕ}

/-- Between two neighbours: the nearer of them, and where both are as near the even one. -/
theorem nearestEven_of_bracket (hV : StrictMono V) {lo : ℕ} (hlo : V lo ≤ x) (hhi : x < V (lo + 1))
    (h : (m = lo ∧ (2 * x < V lo + V (lo + 1) ∨ 2 * x = V lo + V (lo + 1) ∧ Even lo)) ∨
      (m = lo + 1 ∧ (V lo + V (lo + 1) < 2 * x ∨ V lo + V (lo + 1) = 2 * x ∧ Even (lo + 1)))) :
    NearestEven V x m := by
  have hbelow : |V lo - x| = x - V lo := by rw [abs_sub_comm, abs_of_nonneg (by linarith)]
  have habove : |V (lo + 1) - x| = V (lo + 1) - x := abs_of_nonneg (by linarith)
  intro n
  rcases Nat.lt_or_ge lo n with hn | hn
  · have hle : V (lo + 1) ≤ V n := hV.monotone hn
    rw [abs_of_nonneg (show 0 ≤ V n - x by linarith)]
    rcases h with ⟨rfl, h⟩ | ⟨rfl, h⟩
    · rw [hbelow]
      refine ⟨by rcases h with h | ⟨h, -⟩ <;> linarith, fun _ htie => ?_⟩
      rcases h with h | ⟨-, heven⟩
      · linarith
      · exact heven
    · rw [habove]
      refine ⟨by linarith, fun hne htie => ?_⟩
      have hlt : V (lo + 1) < V n := hV (by omega)
      linarith
  · have hle : V n ≤ V lo := hV.monotone hn
    rw [abs_sub_comm (V n), abs_of_nonneg (show 0 ≤ x - V n by linarith)]
    rcases h with ⟨rfl, h⟩ | ⟨rfl, h⟩
    · rw [hbelow]
      refine ⟨by linarith, fun hne htie => ?_⟩
      have hlt : V n < V m := hV (by omega)
      linarith
    · rw [habove]
      refine ⟨by rcases h with h | ⟨h, -⟩ <;> linarith, fun _ htie => ?_⟩
      rcases h with h | ⟨-, heven⟩
      · linarith
      · exact heven

/-- The nearest point lies below an even one exactly where `x` lies below the middle before that. -/
theorem NearestEven.le_iff (h : NearestEven V x m) (hV : StrictMono V) {n : ℕ} (hn : Even (n + 1)) :
    m ≤ n ↔ 2 * x < V n + V (n + 1) := by
  have hlt : V n < V (n + 1) := hV (Nat.lt_succ_self n)
  constructor
  · intro hm
    have hle : V m ≤ V n := hV.monotone hm
    obtain ⟨hnear, heven⟩ := h (n + 1)
    by_contra hx
    have hbelow : |V m - x| = x - V m := by rw [abs_sub_comm, abs_of_nonneg (by linarith)]
    have habove : |V (n + 1) - x| ≤ x - V n := abs_le.mpr ⟨by linarith, by linarith⟩
    have hVm : V m = V n := by linarith
    obtain rfl : m = n := hV.injective hVm
    exact Nat.even_add_one.mp hn (heven (Nat.succ_ne_self m) (by linarith))
  · intro hx
    by_contra hm
    have hle : V (n + 1) ≤ V m := hV.monotone (by omega)
    obtain ⟨hnear, -⟩ := h n
    have habove : |V m - x| ≥ V m - x := le_abs_self _
    have hbelow : |V n - x| < V m - x := abs_lt.mpr ⟨by linarith, by linarith⟩
    linarith

end Grid

/-! The grid of a binary format. -/

variable {f : BinFormat}

/-- The value of a magnitude as a multiple of the smallest positive value; from the infinity on the grid goes on as if
there were further exponents. -/
def gridUnits (f : BinFormat) (m : Nat) : Nat :=
  if m / 2 ^ f.fracBits = 0 then m % 2 ^ f.fracBits
  else (2 ^ f.fracBits + m % 2 ^ f.fracBits) * 2 ^ (m / 2 ^ f.fracBits - 1)

theorem unitsOf_eq_gridUnits (x : Nat) : unitsOf f x = gridUnits f (magOf f x) := by
  rw [unitsOf, gridUnits, expOf, fracOf_eq_magOf_mod]

theorem gridUnits_fields {exp frac : Nat} (hfrac : frac < 2 ^ f.fracBits) :
    gridUnits f (exp * 2 ^ f.fracBits + frac) = if exp = 0 then frac else (2 ^ f.fracBits + frac) * 2 ^ (exp - 1) := by
  have hdiv : (exp * 2 ^ f.fracBits + frac) / 2 ^ f.fracBits = exp := by
    rw [Nat.mul_comm, Nat.mul_add_div (Nat.two_pow_pos _), Nat.div_eq_of_lt hfrac, Nat.add_zero]
  rw [gridUnits, hdiv, Nat.mul_add_mod_self_right, Nat.mod_eq_of_lt hfrac]

/-- A significand, the leading one of a normal value included, over an exponent. -/
theorem gridUnits_mul_add {e sig : Nat} (hsig : sig ≤ 2 * 2 ^ f.fracBits) (he : e = 0 ∨ 2 ^ f.fracBits ≤ sig) :
    gridUnits f (e * 2 ^ f.fracBits + sig) = sig * 2 ^ e := by
  rcases Nat.lt_or_ge sig (2 ^ f.fracBits) with hlt | hge
  · obtain rfl : e = 0 := by omega
    rw [gridUnits_fields hlt, if_pos rfl, Nat.pow_zero, Nat.mul_one]
  · obtain ⟨frac, rfl⟩ := Nat.exists_eq_add_of_le hge
    rcases Nat.lt_or_ge frac (2 ^ f.fracBits) with hfrac | hfrac
    · rw [← Nat.add_assoc, ← Nat.succ_mul, gridUnits_fields hfrac, if_neg (Nat.succ_ne_zero e), Nat.succ_sub_one]
    · obtain rfl : frac = 2 ^ f.fracBits := by omega
      have hnext := gridUnits_fields (f := f) (exp := e + 2) (Nat.two_pow_pos _)
      rw [show e * 2 ^ f.fracBits + (2 ^ f.fracBits + 2 ^ f.fracBits) = (e + 2) * 2 ^ f.fracBits + 0 by ring, hnext,
        if_neg (Nat.succ_ne_zero _), Nat.add_zero, show e + 2 - 1 = e + 1 from rfl, Nat.pow_succ']
      ring

/-- Every magnitude is such a significand over an exponent. -/
theorem exists_eq_mul_add (f : BinFormat) (m : Nat) :
    ∃ e sig, m = e * 2 ^ f.fracBits + sig ∧ sig < 2 * 2 ^ f.fracBits ∧ (e = 0 ∨ 2 ^ f.fracBits ≤ sig) := by
  rcases Nat.lt_or_ge m (2 ^ f.fracBits) with h | h
  · exact ⟨0, m, by omega, by omega, .inl rfl⟩
  · have hmod : m % 2 ^ f.fracBits < 2 ^ f.fracBits := Nat.mod_lt _ (Nat.two_pow_pos _)
    obtain ⟨e, he⟩ := Nat.exists_eq_add_of_lt (Nat.div_pos h (Nat.two_pow_pos _))
    have hm := Nat.div_add_mod' m (2 ^ f.fracBits)
    rw [he, Nat.zero_add, Nat.succ_mul] at hm
    exact ⟨e, 2 ^ f.fracBits + m % 2 ^ f.fracBits, by omega, by omega, .inr (Nat.le_add_right _ _)⟩

theorem gridUnits_strictMono (f : BinFormat) : StrictMono (gridUnits f) := by
  refine strictMono_nat_of_lt_succ fun m => ?_
  obtain ⟨e, sig, rfl, hsig, he⟩ := exists_eq_mul_add f m
  rw [gridUnits_mul_add hsig.le he, Nat.add_assoc, gridUnits_mul_add hsig (he.imp_right Nat.le_succ_of_le)]
  exact Nat.mul_lt_mul_of_pos_right (Nat.lt_succ_self sig) (Nat.two_pow_pos e)

/-- The magnitude `roundMag` takes before it looks for an overflow. -/
def nearestMag (f : BinFormat) (k scale : Nat) : Nat :=
  let q := max scale (k.log2 - f.fracBits)
  (q - scale) * 2 ^ f.fracBits +
    (k / 2 ^ q + if 2 ^ q < 2 * (k % 2 ^ q) || (2 ^ q == 2 * (k % 2 ^ q) && k / 2 ^ q % 2 == 1) then 1 else 0)

theorem roundMag_eq_min (f : BinFormat) (k scale : Nat) :
    roundMag f k scale = min (nearestMag f k scale) (infMag f) := rfl

/-- The bits kept fill the significand of the exponent they get. -/
theorem kept_bounds (f : BinFormat) {k scale q : Nat} (hq : q = max scale (k.log2 - f.fracBits)) :
    k / 2 ^ q < 2 * 2 ^ f.fracBits ∧ (q - scale = 0 ∨ 2 ^ f.fracBits ≤ k / 2 ^ q) := by
  constructor
  · rw [Nat.div_lt_iff_lt_mul (Nat.two_pow_pos q), ← Nat.pow_succ', ← Nat.pow_add]
    exact Nat.lt_of_lt_of_le Nat.lt_log2_self (Nat.pow_le_pow_right (by omega) (by omega))
  · rcases Nat.eq_zero_or_pos (q - scale) with h | h
    · exact .inl h
    · have hk : k ≠ 0 := by
        rintro rfl
        simp at hq
        omega
      right
      rw [Nat.le_div_iff_mul_le (Nat.two_pow_pos q), ← Nat.pow_add]
      exact Nat.le_trans (Nat.pow_le_pow_right (by omega) (by omega)) (Nat.log2_self_le hk)

/-- Rounding takes one of the two neighbours. -/
theorem nearestMag_bracket (hf : Usable f) (k scale : Nat) : ∃ lo,
    gridUnits f lo * 2 ^ scale ≤ k ∧ k < gridUnits f (lo + 1) * 2 ^ scale ∧
    ((nearestMag f k scale = lo ∧ (2 * k < (gridUnits f lo + gridUnits f (lo + 1)) * 2 ^ scale ∨
        2 * k = (gridUnits f lo + gridUnits f (lo + 1)) * 2 ^ scale ∧ Even lo)) ∨
      (nearestMag f k scale = lo + 1 ∧ ((gridUnits f lo + gridUnits f (lo + 1)) * 2 ^ scale < 2 * k ∨
        (gridUnits f lo + gridUnits f (lo + 1)) * 2 ^ scale = 2 * k ∧ Even (lo + 1)))) := by
  obtain ⟨q, hq⟩ : ∃ q, q = max scale (k.log2 - f.fracBits) := ⟨_, rfl⟩
  obtain ⟨hlt, hfull⟩ := kept_bounds f hq
  have hscale : ∀ sig, sig * 2 ^ (q - scale) * 2 ^ scale = sig * 2 ^ q := fun sig => by
    rw [Nat.mul_assoc, ← Nat.pow_add, Nat.sub_add_cancel (by omega)]
  have hlo := gridUnits_mul_add hlt.le hfull
  have hhi := gridUnits_mul_add hlt (hfull.imp_right Nat.le_succ_of_le)
  refine ⟨(q - scale) * 2 ^ f.fracBits + k / 2 ^ q, ?_⟩
  have hparity : Even ((q - scale) * 2 ^ f.fracBits + k / 2 ^ q) ↔ k / 2 ^ q % 2 = 0 := by
    have : Even (2 ^ f.fracBits) := (Nat.even_pow).mpr ⟨even_two, by have := hf.frac; omega⟩
    rw [Nat.even_add, iff_true_left (this.mul_left _), Nat.even_iff]
  have hk := Nat.div_add_mod' k (2 ^ q)
  have hrest : k % 2 ^ q < 2 ^ q := Nat.mod_lt _ (Nat.two_pow_pos q)
  have hmag : nearestMag f k scale = (q - scale) * 2 ^ f.fracBits +
      (k / 2 ^ q + if 2 ^ q < 2 * (k % 2 ^ q) || (2 ^ q == 2 * (k % 2 ^ q) && k / 2 ^ q % 2 == 1) then 1 else 0) := by
    rw [nearestMag, ← hq]
  rw [Nat.even_add_one, hparity, Nat.add_assoc, hlo, hhi, Nat.add_mul, hscale, hscale, Nat.succ_mul, hmag]
  refine ⟨by omega, by omega, ?_⟩
  split
  · next hup =>
    simp only [Bool.or_eq_true, Bool.and_eq_true, decide_eq_true_eq, beq_iff_eq] at hup
    right
    omega
  · next hup =>
    simp only [Bool.or_eq_true, Bool.and_eq_true, decide_eq_true_eq, beq_iff_eq, not_or, not_and] at hup
    left
    omega

end Sys2Proof.Proofs
end

section
/-! Products and sums of finite words are their exact values rounded once, to nearest even (42_numerics.md rules R112,
R113, R116). -/

namespace Sys2Proof.Proofs

open Sys2Proof.Machine Sys2Proof.Laws

/-! Values by sign and magnitude. -/

/-- The value of this sign and this absolute value. -/
def signed (negative : Bool) (x : ℚ) : ℚ := if negative then -x else x

@[simp] theorem signed_true (x : ℚ) : signed true x = -x := rfl

@[simp] theorem signed_false (x : ℚ) : signed false x = x := rfl

@[simp] theorem abs_signed (b : Bool) (x : ℚ) : |signed b x| = |x| := by
  cases b
  · rfl
  · exact abs_neg x

theorem signed_mul_signed (b b' : Bool) (x y : ℚ) : signed b x * signed b' y = signed (b != b') (x * y) := by
  cases b <;> cases b' <;> simp

theorem signed_sub_signed (b : Bool) (x y : ℚ) : signed b x - signed b y = signed b (x - y) := by
  cases b
  · rfl
  · simp only [signed_true]
    ring

/-- Absolute values are no farther apart than the values. -/
theorem abs_sub_le_abs_signed_sub {x y : ℚ} (hx : 0 ≤ x) (hy : 0 ≤ y) (b b' : Bool) :
    |x - y| ≤ |signed b x - signed b' y| := by
  have h := abs_abs_sub_abs_le (signed b x) (signed b' y)
  rwa [abs_signed, abs_signed, abs_of_nonneg hx, abs_of_nonneg hy] at h

theorem signed_natAbs_div (t : ℤ) (d : ℚ) : signed (decide (t < 0)) (t.natAbs / d) = t / d := by
  rcases lt_or_ge t 0 with h | h
  · rw [decide_eq_true h, signed_true, ← neg_div, ← Int.cast_natCast, Int.ofNat_natAbs_of_nonpos h.le, Int.cast_neg,
      neg_neg]
  · rw [decide_eq_false h.not_gt, signed_false, ← Int.cast_natCast, Int.natAbs_of_nonneg h]

theorem abs_signed_sub_signed_of_ne {x y : ℚ} (hx : 0 ≤ x) (hy : 0 ≤ y) {b b' : Bool} (hb : b' ≠ b) :
    |signed b' y - signed b x| = y + x := by
  obtain rfl : b' = !b := Bool.eq_not.mpr hb
  cases b
  · rw [Bool.not_false, signed_true, signed_false, ← neg_add', abs_neg, abs_of_nonneg (add_nonneg hy hx)]
  · rw [Bool.not_true, signed_true, signed_false, sub_neg_eq_add, abs_of_nonneg (add_nonneg hy hx)]

/-- Only a value 0 is as far from `x` with either sign. -/
theorem signed_eq_of_abs_sub_eq {x y : ℚ} (hx : 0 ≤ x) (hy : 0 ≤ y) (h0 : x = 0 → y = 0) {b b' : Bool}
    (h : |signed b' y - signed b x| = |y - x|) : signed b' y = signed b y := by
  by_cases hb : b' = b
  · rw [hb]
  · have hy0 : y = 0 := by
      rw [abs_signed_sub_signed_of_ne hx hy hb] at h
      rcases abs_choice (y - x) with hc | hc
      · exact h0 (by linarith)
      · linarith
    rw [hy0]
    cases b <;> cases b' <;> simp

variable {f : BinFormat}

/-- The value of a magnitude. -/
def gridVal (f : BinFormat) (m : ℕ) : ℚ := gridUnits f m / 2 ^ unitExp f

theorem gridVal_strictMono (f : BinFormat) : StrictMono (gridVal f) := fun m n h =>
  div_lt_div_of_pos_right (by exact_mod_cast gridUnits_strictMono f h) (by positivity)

theorem gridVal_nonneg (f : BinFormat) (m : ℕ) : 0 ≤ gridVal f m := by
  unfold gridVal
  positivity

theorem valueIn_eq_signed_unitsOf (a : Word f.width) :
    valueIn f a = signed a.msb (unitsOf f a.toNat / 2 ^ unitExp f) := by
  rw [valueIn, signedUnits, ← msb_eq_signOf]
  cases a.msb <;> simp [neg_div]

theorem valueIn_eq_signed (a : Word f.width) : valueIn f a = signed a.msb (gridVal f (magOf f a.toNat)) := by
  rw [valueIn_eq_signed_unitsOf, unitsOf_eq_gridUnits, gridVal]

theorem gridVal_zero (f : BinFormat) : gridVal f 0 = 0 := by simp [gridVal, gridUnits]

/-- Zero is a point of the grid. -/
theorem NearestEven.eq_zero {x : ℚ} {m : ℕ} (h : NearestEven (gridVal f) x m) (hx : x = 0) : gridVal f m = 0 := by
  obtain ⟨hle, -⟩ := h 0
  rwa [hx, gridVal_zero, sub_zero, sub_zero, abs_zero, abs_nonpos_iff] at hle

/-! One rounding. -/

/-- `r` is the exact value `p` rounded once: the nearest magnitude with the sign of `p`, or the infinity where that is
too large. -/
def RoundsTo (f : BinFormat) (p : ℚ) (r : Word f.width) : Prop :=
  ∃ (b : Bool) (x : ℚ) (m : ℕ), 0 ≤ x ∧ p = signed b x ∧ NearestEven (gridVal f) x m ∧
    r = packWord f b (min m (infMag f))

theorem nearestEven_nearestMag (hf : Usable f) (k scale : ℕ) :
    NearestEven (gridVal f) (k / 2 ^ (scale + unitExp f)) (nearestMag f k scale) := by
  obtain ⟨lo, hlo, hhi, h⟩ := nearestMag_bracket hf k scale
  have hpos : (0 : ℚ) < 2 ^ (scale + unitExp f) := by positivity
  have hval : ∀ n, gridVal f n = ((gridUnits f n * 2 ^ scale : ℕ) : ℚ) / 2 ^ (scale + unitExp f) := fun n => by
    rw [gridVal, pow_add, Nat.cast_mul, Nat.cast_pow, Nat.cast_two, mul_comm, mul_div_mul_left _ _ (by positivity)]
  have hsum : gridVal f lo + gridVal f (lo + 1) =
      (((gridUnits f lo + gridUnits f (lo + 1)) * 2 ^ scale : ℕ) : ℚ) / 2 ^ (scale + unitExp f) := by
    rw [hval, hval, ← add_div, ← Nat.cast_add, Nat.add_mul]
  have htwice : 2 * ((k : ℚ) / 2 ^ (scale + unitExp f)) = ((2 * k : ℕ) : ℚ) / 2 ^ (scale + unitExp f) := by
    rw [← mul_div_assoc, Nat.cast_mul, Nat.cast_two]
  refine nearestEven_of_bracket (gridVal_strictMono f) (lo := lo) ?_ ?_ ?_
  · rwa [hval, div_le_div_iff_of_pos_right hpos, Nat.cast_le]
  · rwa [hval, div_lt_div_iff_of_pos_right hpos, Nat.cast_lt]
  · rwa [hsum, htwice, div_lt_div_iff_of_pos_right hpos, div_lt_div_iff_of_pos_right hpos, div_left_inj' hpos.ne',
      div_left_inj' hpos.ne', Nat.cast_lt, Nat.cast_lt, Nat.cast_inj, Nat.cast_inj]

theorem roundsTo_packWord (hf : Usable f) (b : Bool) (k scale : ℕ) :
    RoundsTo f (signed b (k / 2 ^ (scale + unitExp f))) (packWord f b (roundMag f k scale)) :=
  ⟨b, _, _, by positivity, rfl, nearestEven_nearestMag hf k scale, by rw [roundMag_eq_min]⟩

/-- The product of finite words is rounded once (rule R112). -/
theorem roundsTo_fmul (hf : Usable f) (nan : Word f.width) {a b : Word f.width} (ha : isFinite (.binary f) a = true)
    (hb : isFinite (.binary f) b = true) : RoundsTo f (valueIn f a * valueIn f b) ((ieee f f.width nan).fmul a b) := by
  rw [ieee_fmul_finite nan ha hb, valueIn_eq_signed_unitsOf a, valueIn_eq_signed_unitsOf b, signed_mul_signed,
    div_mul_div_comm, ← Nat.cast_mul, ← pow_add]
  exact roundsTo_packWord hf _ _ _

/-- The sum of finite words is rounded once (rule R113). -/
theorem roundsTo_fadd (hf : Usable f) (nan : Word f.width) {a b : Word f.width} (ha : isFinite (.binary f) a = true)
    (hb : isFinite (.binary f) b = true) : RoundsTo f (valueIn f a + valueIn f b) ((ieee f f.width nan).fadd a b) := by
  have hsum : valueIn f a + valueIn f b =
      ((signedUnits f a.toNat + signedUnits f b.toNat : ℤ) : ℚ) / 2 ^ unitExp f := by
    rw [valueIn, valueIn, Int.cast_add, add_div]
  rw [hsum, ieee_fadd_finite nan ha hb]
  generalize signedUnits f a.toNat + signedUnits f b.toNat = t
  split
  · next h0 =>
    have h := roundsTo_packWord hf (a.msb && b.msb) 0 0
    rw [roundMag_zero] at h
    convert h using 1
    rw [h0]
    cases a.msb && b.msb <;> simp
  · have h := roundsTo_packWord hf (decide (t < 0)) t.natAbs 0
    rwa [zero_add, signed_natAbs_div] at h

/-- Between the largest finite value and the next point of the grid: from here on values round to an infinity. -/
def overflowLimit (f : BinFormat) : ℚ := (gridVal f (infMag f - 1) + gridVal f (infMag f)) / 2

theorem even_infMag (hf : Usable f) : Even (infMag f) :=
  (Nat.even_pow.mpr ⟨even_two, by have := hf.frac; omega⟩).mul_left _

theorem NearestEven.lt_infMag_iff (hf : Usable f) {x : ℚ} {m : ℕ} (h : NearestEven (gridVal f) x m) :
    m < infMag f ↔ x < overflowLimit f := by
  have hinf : infMag f - 1 + 1 = infMag f := Nat.sub_add_cancel (infMag_pos hf)
  have hle := h.le_iff (gridVal_strictMono f) (n := infMag f - 1) (by rw [hinf]; exact even_infMag hf)
  rw [hinf] at hle
  rw [← Nat.le_sub_one_iff_lt (infMag_pos hf), hle, overflowLimit, lt_div_iff₀ two_pos, mul_comm]

section Rounded

variable {p : ℚ} {r : Word f.width}

theorem RoundsTo.isFinite_iff (h : RoundsTo f p r) (hf : Usable f) :
    isFinite (.binary f) r = true ↔ |p| < overflowLimit f := by
  obtain ⟨b, x, m, hx, rfl, hnear, rfl⟩ := h
  have hlt : min m (infMag f) < signWeight f := lt_of_le_of_lt (Nat.min_le_right _ _) (infMag_lt_signWeight f)
  rw [isFinite_iff_magOf, magOf_packWord b hlt, abs_signed, abs_of_nonneg hx, ← hnear.lt_infMag_iff hf, min_lt_iff,
    or_iff_left (lt_irrefl _)]

/-- A rounded value is no NaN (rule R111, `finite_closed_or_overflow`). -/
theorem RoundsTo.not_isNaN (h : RoundsTo f p r) : isNaN (.binary f) r = false := by
  obtain ⟨b, x, m, -, -, -, rfl⟩ := h
  have hle : min m (infMag f) ≤ infMag f := Nat.min_le_right _ _
  rw [isNaN, toNat_packWord b (lt_of_le_of_lt hle (infMag_lt_signWeight f))]
  exact nanNat_packSign b hle

theorem RoundsTo.isInf (h : RoundsTo f p r) (hf : Usable f) (hp : overflowLimit f ≤ |p|) : isInf f r = true := by
  rcases isFinite_or_isInf h.not_isNaN with hfin | hinf
  · exact absurd ((h.isFinite_iff hf).mp hfin) hp.not_gt
  · exact hinf

theorem RoundsTo.msb (h : RoundsTo f p r) (hp : p ≠ 0) : r.msb = decide (p < 0) := by
  obtain ⟨b, x, m, hx, rfl, -, rfl⟩ := h
  rw [msb_packWord b (lt_of_le_of_lt (Nat.min_le_right _ _) (infMag_lt_signWeight f))]
  have hpos : 0 < x := lt_of_le_of_ne hx fun h0 => hp (by cases b <;> simp [← h0])
  cases b
  · exact (decide_eq_false hx.not_gt).symm
  · exact (decide_eq_true (neg_lt_zero.mpr hpos)).symm

theorem getLsbD_zero_packWord (hf : Usable f) {m : ℕ} (b : Bool) (hm : m < signWeight f) (heven : Even m) :
    (packWord f b m).getLsbD 0 = false := by
  have hsign : Even (signWeight f) := Nat.even_pow.mpr ⟨even_two, by have := hf.frac; omega⟩
  have hword : Even (packSign f b m) := by
    rw [packSign]
    split
    · exact hsign.add heven
    · simpa using heven
  rw [BitVec.getLsbD, toNat_packWord b hm, Nat.testBit_zero, Nat.even_iff.mp hword]
  rfl

/-- No finite word is nearer to the exact value, and where one of another value is as near the last bit is 0. -/
theorem RoundsTo.nearest (h : RoundsTo f p r) (hf : Usable f) (hr : isFinite (.binary f) r = true) (c : Word f.width) :
    |valueIn f r - p| ≤ |valueIn f c - p| ∧
      (valueIn f c ≠ valueIn f r → |valueIn f c - p| = |valueIn f r - p| → r.getLsbD 0 = false) := by
  have hlimit := (h.isFinite_iff hf).mp hr
  obtain ⟨b, x, m, hx, rfl, hnear, rfl⟩ := h
  rw [abs_signed, abs_of_nonneg hx, ← hnear.lt_infMag_iff hf] at hlimit
  have hm : m < signWeight f := hlimit.trans (infMag_lt_signWeight f)
  have hr : valueIn f (packWord f b (min m (infMag f))) = signed b (gridVal f m) := by
    rw [valueIn_eq_signed, Nat.min_eq_left hlimit.le, msb_packWord b hm, magOf_packWord b hm]
  rw [hr, signed_sub_signed, abs_signed, valueIn_eq_signed c]
  obtain ⟨hle, heven⟩ := hnear (magOf f c.toNat)
  have hc := abs_sub_le_abs_signed_sub (gridVal_nonneg f (magOf f c.toNat)) hx c.msb b
  refine ⟨hle.trans hc, fun hne htie => ?_⟩
  rw [Nat.min_eq_left hlimit.le]
  refine getLsbD_zero_packWord hf b hm (heven (fun hmag => hne ?_) (le_antisymm (hc.trans htie.le) hle))
  rw [hmag] at htie ⊢
  exact signed_eq_of_abs_sub_eq hx (gridVal_nonneg f m) (fun h0 => hnear.eq_zero h0) htie

/-- Below the limit of overflow no finite word is nearer. -/
theorem RoundsTo.finite_and_nearest (h : RoundsTo f p r) (hf : Usable f) (hp : |p| < overflowLimit f) :
    isFinite (.binary f) r = true ∧ ∀ c : Word f.width, isFinite (.binary f) c = true →
      |valueIn f r - p| ≤ |valueIn f c - p| ∧
        (valueIn f c ≠ valueIn f r → |valueIn f c - p| = |valueIn f r - p| → r.getLsbD 0 = false) := by
  have hr := (h.isFinite_iff hf).mpr hp
  exact ⟨hr, fun c _ => h.nearest hf hr c⟩

theorem abs_valueIn_lt_overflowLimit {c : Word f.width} (hc : isFinite (.binary f) c = true) :
    |valueIn f c| < overflowLimit f := by
  have hlt := isFinite_iff_magOf.mp hc
  have hle : gridVal f (magOf f c.toNat) ≤ gridVal f (infMag f - 1) := (gridVal_strictMono f).monotone (by omega)
  have hinf : gridVal f (infMag f - 1) < gridVal f (infMag f) := gridVal_strictMono f (by omega)
  rw [valueIn_eq_signed, abs_signed, abs_of_nonneg (gridVal_nonneg f _), overflowLimit]
  linarith

/-- A value the format has is not changed (rule R111, `exact`). -/
theorem RoundsTo.exact (h : RoundsTo f p r) (hf : Usable f) {c : Word f.width} (hc : isFinite (.binary f) c = true)
    (hp : valueIn f c = p) : isFinite (.binary f) r = true ∧ valueIn f r = p := by
  have hr := (h.isFinite_iff hf).mpr (hp ▸ abs_valueIn_lt_overflowLimit hc)
  have hle := (h.nearest hf hr c).1
  rw [hp, sub_self, abs_zero] at hle
  exact ⟨hr, sub_eq_zero.mp (abs_nonpos_iff.mp hle)⟩

end Rounded

end Sys2Proof.Proofs
end

section
/-! Rounding in the reference format, and the named properties of every format (42_numerics.md rules R111 to R117). -/

namespace Sys2Proof.Proofs

open Sys2Proof.Machine Sys2Proof.Laws

variable {f : BinFormat}

/-! The limit of overflow. -/

theorem gridUnits_infMag (hf : Usable f) : gridUnits f (infMag f) = 2 ^ f.fracBits * 2 ^ (expMax f - 1) := by
  have h := gridUnits_mul_add (f := f) (e := expMax f - 1) (sig := 2 ^ f.fracBits) (by omega) (.inr le_rfl)
  rwa [← Nat.succ_mul, Nat.succ_eq_add_one, Nat.sub_add_cancel (expMax_pos hf), ← infMag] at h

theorem gridUnits_infMag_sub_one (hf : Usable f) :
    gridUnits f (infMag f - 1) = (2 * 2 ^ f.fracBits - 1) * 2 ^ (expMax f - 2) := by
  have hpos : 0 < 2 ^ f.fracBits := Nat.two_pow_pos _
  have hexp : 2 ^ 2 ≤ 2 ^ f.expBits := Nat.pow_le_pow_right (by omega) hf.exp
  obtain ⟨e, he⟩ : ∃ e, expMax f = e + 2 := ⟨expMax f - 2, by unfold expMax; omega⟩
  have hmag : infMag f - 1 = e * 2 ^ f.fracBits + (2 * 2 ^ f.fracBits - 1) := by
    rw [infMag, he, Nat.add_mul]
    omega
  rw [hmag, gridUnits_mul_add (by omega) (.inr (by omega)), he, Nat.add_sub_cancel]

/-- The limit is half a unit in the last place past the largest finite value. -/
theorem overflowLimit_eq (hf : Usable f) :
    overflowLimit f = (2 ^ (f.fracBits + 2) - 1) * 2 ^ (expMax f - 3) / 2 ^ unitExp f := by
  have hexp : 2 ^ 2 ≤ 2 ^ f.expBits := Nat.pow_le_pow_right (by omega) hf.exp
  obtain ⟨e, he⟩ : ∃ e, expMax f = e + 3 := ⟨expMax f - 3, by unfold expMax; omega⟩
  rw [overflowLimit, gridVal, gridVal, gridUnits_infMag hf, gridUnits_infMag_sub_one hf, he, Nat.cast_mul,
    Nat.cast_pred (by positivity)]
  simp only [Nat.add_sub_cancel, show e + 3 - 1 = e + 2 from rfl, show e + 3 - 2 = e + 1 from rfl]
  push_cast
  ring

/-- The limit of binary64 (log 17). -/
theorem overflowLimit_binary64 : overflowLimit Config.binary64 = 2 ^ 1024 - 2 ^ 970 := by
  have hexp : expMax Config.binary64 - 3 = 970 + unitExp Config.binary64 := by decide
  rw [overflowLimit_eq usable_binary64, hexp, pow_add 2 970, ← mul_assoc, mul_div_cancel_right₀ _ (by positivity),
    sub_mul, ← pow_add, one_mul]

/-! The reference format. -/

/-- Settles O50: the product of finite words is rounded once. -/
theorem productIsRoundedOnceToNearestEven : Obligations.ProductIsRoundedOnceToNearestEven := by
  intro k a b finite r p
  have hf := usable_binary64
  refine ⟨fun ha hb => ?_, msb_fmul hf k, isNaN_fmul_inf_zero hf k, fun ha hb => ?_⟩
  · have h := roundsTo_fmul hf (nanWord _ k) ha hb
    rw [← overflowLimit_binary64]
    exact ⟨h.finite_and_nearest hf, h.isInf hf⟩
  · exact (congrArg _ (fmul_comm k a b)).trans (isNaN_fmul_inf_zero hf k hb ha)

/-- Settles O51: the sum of finite words is rounded once. -/
theorem sumIsRoundedOnceToNearestEven : Obligations.SumIsRoundedOnceToNearestEven := by
  intro k a b finite r p
  have hf := usable_binary64
  refine ⟨fun ha hb => ?_, isNaN_fadd_opposite_infinities hf k⟩
  have h := roundsTo_fadd hf (nanWord _ k) ha hb
  rw [← overflowLimit_binary64]
  exact ⟨h.msb, h.finite_and_nearest hf, h.isInf hf⟩

/-! The named properties (rule R111). -/

theorem valueIn_eq_zero_iff {a : Word f.width} : valueIn f a = 0 ↔ magOf f a.toNat = 0 := by
  rw [← signedUnits_eq_zero_iff, valueIn, div_eq_zero_iff, or_iff_left (by positivity), Int.cast_eq_zero]

theorem admissible_ieee (hf : Usable f) (nan : Word f.width) :
    Admissible (ieee f f.width nan) (fun a => valueIn f a) (fun a => nanNat f a.toNat) where
  zero_is_zero := ⟨isFinite_of_isZero hf (isZero_packWord f false), valueIn_eq_zero_iff.mpr (Nat.zero_mod _)⟩
  nan_not_finite a h := Bool.eq_false_iff.mpr fun hfin => by cases h.symm.trans (isInf_isNaN_of_isFinite hfin).2
  exact_mul a b r ha hb hr h := (roundsTo_fmul hf nan ha hb).exact hf hr h
  exact_add a b r ha hb hr h := (roundsTo_fadd hf nan ha hb).exact hf hr h
  zero_mul z c hz h0 hc := by
    have h := (roundsTo_fmul hf nan hz hc).exact hf hz (by simp only [h0, zero_mul])
    exact ⟨h.1, h.2.trans (by simp only [h0, zero_mul])⟩
  zero_add a z ha h hz h0 := by
    obtain ⟨hl, hr⟩ := addNat_zero hf nan.toNat a.isLt (isInf_isNaN_of_isFinite ha).2 (mt valueIn_eq_zero_iff.mpr h)
      (valueIn_eq_zero_iff.mp h0)
    exact ⟨(congrArg (BitVec.ofNat f.width) hl).trans (by simp), (congrArg (BitVec.ofNat f.width) hr).trans (by simp)⟩
  zero_add_zero z z' hz h0 hz' h0' := by
    have h := (roundsTo_fadd hf nan hz hz').exact hf hz (by simp only [h0, h0', add_zero])
    exact ⟨h.1, h.2.trans (by simp only [h0, h0', add_zero])⟩
  finite_closed_or_overflow a b ha hb :=
    ⟨(roundsTo_fmul hf nan ha hb).not_isNaN, (roundsTo_fadd hf nan ha hb).not_isNaN⟩

theorem admissible_fmtAt {f : Format} (hf : f.admitted = true) (k : ℕ) :
    Admissible (fmtAt f k) (valueAs f) (isNaN f) := by
  cases f with
  | binary shape => exact admissible_ieee ((usable_iff shape).mp hf) (nanWord shape k)
  | other W number => exact admissible_otherFmt W number k

/-- Finite is neither an infinity nor a NaN, in every format (rule R115). -/
theorem isFinite_eq (f : Format) (a : Word f.width) : isFinite f a = (!isInfinity f a && !isNaN f a) := by
  cases f with
  | binary shape =>
    change isFinite _ a = (!isInf shape a && !isNaN _ a)
    obtain ⟨h, hi, hn⟩ | ⟨h, hi, hn⟩ | ⟨h, hi, hn⟩ := isFinite_or a <;> rw [h, hi, hn] <;> rfl
  | other W number => exact (otherFormat W number).finite_iff a

theorem isNaN_of_isInfinity {f : Format} {a : Word f.width} (h : isInfinity f a = true) : isNaN f a = false := by
  cases f with
  | binary shape => exact isNaN_of_isInf h
  | other W number => exact (otherFormat W number).inf_not_nan a h

/-- Settles O56: binary arithmetic rounds once, and any other format is bound to the rules. -/
theorem binaryFormatsAreAdmissible : Obligations.BinaryFormatsAreAdmissible := by
  refine ⟨?_, fun f k hf => admissible_fmtAt hf k, fun f a _ => ⟨isFinite_eq f a, isNaN_of_isInfinity⟩,
    fun f k a b hf h => ⟨isNaN_fmul hf h, isNaN_fadd hf h⟩⟩
  rintro f w nan hexp hfrac rfl -
  exact admissible_ieee ⟨hexp, hfrac⟩ nan

end Sys2Proof.Proofs
end

section
/-! One command at a time, and no output that tells where the cursor stands (70_reset_and_hazards.md rules R168, R161). -/

namespace Sys2Proof.Proofs

open Sys2Proof.Machine Sys2Proof.Laws

/-! A transaction offered while a command is in progress. -/

/-- Only a clock cycle and the hardware reset come before the answer to the command in progress. -/
theorem whileBusy_eq_finish {s : State} (c : InFlight) {a : HostAction} {rest : List HostAction}
    (hb : s.inbox = a :: rest) (hcycle : ∀ p, a ≠ .cycle p) (hreset : a ≠ .hardwareReset) :
    whileBusy c s = finish c s := by
  unfold whileBusy
  split
  · next p _ h => exact absurd (List.cons.inj (hb.symm.trans h)).1 (hcycle p)
  · next h => exact absurd (List.cons.inj (hb.symm.trans h)).1 hreset
  · rfl

/-- Settles O8: the step is `finish`, which touches no transaction. -/
theorem waitingTransactionIsNotTakenNorLost : Obligations.WaitingTransactionIsNotTakenNorLost := by
  intro s c a rest hc hb hcycle hreset
  rw [step_busy hc, whileBusy_eq_finish c hb hcycle hreset, finish]

/-! Pushes on two machines of one window, wherever their cursors stand. -/

theorem HasWindow.admitted {cfg : FilterConfig} {s : State} {w : List (Word cfg.W)} (h : HasWindow cfg s w) :
    cfg.fmt.admitted = true := by
  obtain ⟨hist, c, -, hw, -⟩ := h
  obtain ⟨-, -, -, -, hf, -⟩ := (wf_iff _).mp hw
  exact hf

/-- A rejected PUSH leaves the window (41_push.md rule R86). -/
theorem HasWindow.push_rejected {cfg : FilterConfig} {s : State} {w : List (Word cfg.W)} (h : HasWindow cfg s w)
    {x : Word cfg.W} (hx : ¬(cfg.strict = true → isFinite cfg.fmt x = true)) :
    ∃ t, exec (.push ⟨cfg.W, x⟩) s = .next t ∧ HasWindow cfg t w ∧
      t.delivered = s.delivered ++ responses cfg.W [rspWord true 0] := by
  obtain ⟨hist, c, hi, hw, hwin⟩ := h
  have ha : Instance.accepts ⟨cfg, hist, c⟩ x = false := Bool.eq_false_iff.mpr (mt accepts_iff.mp hx)
  exact ⟨_, execPush_rejected hi ha, ⟨hist, c, hi, hw, hwin⟩, rfl⟩

/-- Whether a sample is accepted, the window after it and the sum over that window do not depend on the cursor. -/
theorem HasWindow.push_same {cfg : FilterConfig} {s s' : State} {w : List (Word cfg.W)} (h : HasWindow cfg s w)
    (h' : HasWindow cfg s' w) (x : Word cfg.W) :
    ∃ t t' w' r r', exec (.push ⟨cfg.W, x⟩) s = .next t ∧ exec (.push ⟨cfg.W, x⟩) s' = .next t' ∧
      HasWindow cfg t w' ∧ HasWindow cfg t' w' ∧ t.delivered = s.delivered ++ responses cfg.W [r] ∧
      t'.delivered = s'.delivered ++ responses cfg.W [r'] ∧ sameResponse cfg.fmt r r' := by
  by_cases hx : cfg.strict = true → isFinite cfg.fmt x = true
  · obtain ⟨t, ht, hwin, -, hd⟩ := h.push hx
    obtain ⟨t', ht', hwin', -, hd'⟩ := h'.push hx
    exact ⟨t, t', _, _, _, ht, ht', hwin, hwin', hd, hd',
      sameResponse_rspWord false (sameOutput_firSum h.admitted _ _ _ _)⟩
  · obtain ⟨t, ht, hwin, hd⟩ := h.push_rejected hx
    obtain ⟨t', ht', hwin', hd'⟩ := h'.push_rejected hx
    exact ⟨t, t', w, _, _, ht, ht', hwin, hwin', hd, hd', sameResponse_rspWord true (sameOutput_refl _ 0)⟩

theorem HasWindow.pushAll_same {cfg : FilterConfig} (xs : List (Word cfg.W)) :
    ∀ {s s' : State} {w : List (Word cfg.W)}, HasWindow cfg s w → HasWindow cfg s' w →
      ∃ t t' rs rs', execAll (pushes xs) s = .next t ∧ execAll (pushes xs) s' = .next t' ∧
        t.delivered = s.delivered ++ responses cfg.W rs ∧ t'.delivered = s'.delivered ++ responses cfg.W rs' ∧
        rs.length = xs.length ∧ List.Forall₂ (sameResponse cfg.fmt) rs rs' := by
  induction xs with
  | nil => exact fun {s s' _} _ _ => ⟨s, s', [], [], rfl, rfl, by simp [responses], by simp [responses], rfl, .nil⟩
  | cons x xs ih =>
    intro s s' w h h'
    obtain ⟨s₁, s₁', w₁, r, r', hs, hs', hw₁, hw₁', hd₁, hd₁', hr⟩ := h.push_same h' x
    obtain ⟨t, t', rs, rs', ht, ht', hd, hd', hlen, hrs⟩ := ih hw₁ hw₁'
    exact ⟨t, t', r :: rs, r' :: rs', (execAll_cons hs _).trans ht, (execAll_cons hs' _).trans ht',
      by simp [hd, hd₁, responses], by simp [hd', hd₁', responses], by simp [hlen], .cons hr hrs⟩

/-- Settles O31: the window decides every response, which NaN apart. -/
theorem outputsDependOnTheWindowOnly : Obligations.OutputsDependOnTheWindowOnly := by
  intro s₁ s₂ cfg h₁ h₂ xs c₁ c₂ hi₁ hi₂ hw₁ hw₂ hwin
  obtain ⟨t₁, t₂, rs₁, rs₂, ht₁, ht₂, hd₁, hd₂, hlen, hrs⟩ :=
    HasWindow.pushAll_same xs (HasWindow.of_inst hi₁ hw₁) ⟨h₂, c₂, hi₂, hw₂, hwin.symm⟩
  refine ⟨t₁, t₂, ht₁, ht₂, ?_⟩
  rw [responsesSince_eq hd₁, responsesSince_eq hd₂]
  exact ⟨hlen, hrs⟩

end Sys2Proof.Proofs
end

section
/-! The command words of the vectors (95_test_vectors.md V16; 30_encoding.md rules R53, R62). -/

namespace Sys2Proof.Proofs

open Sys2Proof.Machine Sys2Proof.Laws

/-- A word put together from the operation bit 1 and the data `v` is the PUSH of `v`. -/
theorem decode_eq_push_of_cmdWord {W : Nat} {cw : CmdWord W} {v : Word W} (h : cmdWord true v = cw) :
    decode cw = .push ⟨W, v⟩ := by
  rw [← h, decode_cmdWord, if_pos rfl]

/-- Settles O4: three of the words have bit 64 at 0, whatever their data, and the others are bit 64 above their data. -/
theorem wordsOfTheSpecDecode : Obligations.WordsOfTheSpecDecode := by
  refine ⟨decode_reset ?_, decode_reset ?_, decode_reset ?_, decode_eq_push_of_cmdWord ?_,
    decode_eq_push_of_cmdWord ?_, decode_eq_push_of_cmdWord ?_, decode_eq_push_of_cmdWord ?_⟩ <;> decide

end Sys2Proof.Proofs
end
